-- ==== Sys2Proof/Word.lean ====
section
/-! DEFINITION. The word types of the engine (00_scope.md R7): all values are unsigned bit vectors. -/

namespace Sys2Proof

/-- An 8-bit value (R7): a request operand, a text byte, a command byte. -/
abbrev Byte := BitVec 8

/-- A 4-bit value (R7): what one NIBBLE puts on D7..D4. -/
abbrev Nibble := BitVec 4

/-- A `BUS6` latch image (30_encoding.md R74): RS, RW, D7, D6, D5, D4 from bit 5 down. -/
abbrev Image := BitVec 6

/-- The name of a requester (43_public_operations.md R120): it only tells operations apart. -/
abbrev Requester := Nat

end Sys2Proof
end

