-- ==== Sys2Proof/Syntax.lean ====
section
/-! DEFINITION. The instruction set: one constructor for each row of spec/opcode_table.json, and the
four word formats of 30_encoding.md R70. -/

namespace Sys2Proof

/-- One row of spec/opcode_table.json each. Operands are the unsigned fields of 30_encoding.md R73,
R74, R76 and R78, each with its own width in its type. -/
inductive Instr where
  /-- `INIT g, m` (42_init_sequence.md R110); the pin map is a sideband of the request. -/
  | init (g m : Byte)
  /-- `CLEAR` (43_public_operations.md R121). -/
  | clear
  /-- `HOME` (43_public_operations.md R122). -/
  | home
  /-- `GOTOXY x, y` (43_public_operations.md R123). -/
  | gotoxy (x y : Byte)
  /-- `WRITE_STRING` (43_public_operations.md R125); the text is a sideband of the request. -/
  | writeString
  /-- `CONFIGURE` (40_pin_configuration.md R93), internal. -/
  | configure
  /-- `NIBBLE n, rs` (41_nibble_transfer.md R100), internal; the fields in the row's order. -/
  | nibble (rs : Bool) (n : Nibble)
  /-- `WRITE_CMD v` (41_nibble_transfer.md R102), internal. -/
  | writeCmd (v : Byte)
  /-- `WRITE_DATA v` (41_nibble_transfer.md R103), internal. -/
  | writeData (v : Byte)
  /-- The latch image of `NIBBLE n, 0` (30_encoding.md R74). -/
  | busCmdNibble (n : Nibble)
  /-- The latch image of `NIBBLE n, 1` (30_encoding.md R74). -/
  | busDataNibble (n : Nibble)
  /-- `WRITE_CMD v` on the wire, v = h ++ l (30_encoding.md R76). -/
  | busWriteCmd (h l : Nibble)
  /-- `WRITE_DATA v` on the wire, v = h ++ l (30_encoding.md R76). -/
  | busWriteData (h l : Nibble)
  /-- Command byte `0x01` (30_encoding.md R77). -/
  | cmdClearDisplay
  /-- Command byte `0x02` (30_encoding.md R77). -/
  | cmdReturnHome
  /-- Command byte `0x06` (30_encoding.md R77). -/
  | cmdEntryModeSet
  /-- Command byte `0x0C` (30_encoding.md R77). -/
  | cmdDisplayOn
  /-- Command byte `0x28` (30_encoding.md R77). -/
  | cmdFunctionSet
  /-- Command byte `0x80 OR addr` (30_encoding.md R77, R78). -/
  | cmdSetDdramAddr (addr : BitVec 7)
  deriving DecidableEq, Repr

/-- A word of one of the four formats of 30_encoding.md R70. -/
inductive FormatWord where
  /-- One operation request (R71). -/
  | req20 (w : BitVec 20)
  /-- One latch image (R74). -/
  | bus6 (w : BitVec 6)
  /-- One byte on the wire (R76). -/
  | bus12 (w : BitVec 12)
  /-- One command byte (R77). -/
  | cmd8 (w : BitVec 8)
  deriving DecidableEq, Repr

/-- The five operations of the public surface (00_scope.md R5, level 2); every other row is internal. -/
def Instr.isPublic : Instr → Bool
  | .init _ _ => true
  | .clear => true
  | .home => true
  | .gotoxy _ _ => true
  | .writeString => true
  | .configure => false
  | .nibble _ _ => false
  | .writeCmd _ => false
  | .writeData _ => false
  | .busCmdNibble _ => false
  | .busDataNibble _ => false
  | .busWriteCmd _ _ => false
  | .busWriteData _ _ => false
  | .cmdClearDisplay => false
  | .cmdReturnHome => false
  | .cmdEntryModeSet => false
  | .cmdDisplayOn => false
  | .cmdFunctionSet => false
  | .cmdSetDdramAddr _ => false

end Sys2Proof
end

