-- ==== Sys2Proof/WellFormed.lean ====
section
/-! DEFINITION. Well-formed instructions and well-formed request sidebands. Every operand's range
stands in its type (Syntax.lean), so an instruction word has nothing left to check; what can be
ill-formed is what comes beside the word (30_encoding.md R71). -/

namespace Sys2Proof

/-- Every instruction is well-formed: each operand field holds exactly the values its width admits
(30_encoding.md R73; R80 (d): WRITE_CMD and WRITE_DATA have no illegal operand). -/
def Instr.WellFormed : Instr → Bool
  | .init _ _ => true
  | .clear => true
  | .home => true
  | .gotoxy _ _ => true
  | .writeString => true
  | .configure => true
  | .nibble _ _ => true
  | .writeCmd _ => true
  | .writeData _ => true
  | .busCmdNibble _ => true
  | .busDataNibble _ => true
  | .busWriteCmd _ _ => true
  | .busWriteData _ _ => true
  | .cmdClearDisplay => true
  | .cmdReturnHome => true
  | .cmdEntryModeSet => true
  | .cmdDisplayOn => true
  | .cmdFunctionSet => true
  | .cmdSetDdramAddr _ => true

/-- The text of a WRITE_STRING request holds a `0x00` (20_memory.md R52); one that does not is
93_implementation_defined.md U3. -/
def textTerminated (bs : List Byte) : Bool := bs.contains 0x00#8

/-- Seven physical pins with no repeat (92_eei_decisions.md D22), given as a list. -/
def pinsDistinct {α : Type} [DecidableEq α] : List α → Bool
  | [] => true
  | p :: ps => !ps.contains p && pinsDistinct ps

/-- Two lists of physical pins with no pin in common (92_eei_decisions.md D22). -/
def pinsDisjoint {α : Type} [DecidableEq α] : List α → List α → Bool
  | [], _ => true
  | p :: ps, qs => !qs.contains p && pinsDisjoint ps qs

end Sys2Proof
end

