-- ==== Sys2Proof/Decode.lean ====
section
/-! DEFINITION. Decoding (total, rejecting by name) and encoding of the four formats of
30_encoding.md R70, from the tables of R72, R74, R76 and R77. -/

namespace Sys2Proof

/-- Why a word is no instruction (30_encoding.md R79, R80). -/
inductive DecodeReject where
  /-- `op` is 0x0, 0x6, 0x7 or 0xC to 0xF: unassigned (R79). -/
  | unassignedOp (w : BitVec 20)
  /-- An assigned `op` with an operand field that must be zero and is not (R79). -/
  | operandNotZero (w : BitVec 20)
  /-- A latch image with RW set, which is never latched (R80 (a)). -/
  | rwSet (w : BitVec 6)
  /-- Two images that are no byte on the wire: RW set, or two different RS levels (R76). -/
  | notOneByte (w : BitVec 12)
  /-- A command byte outside the six kinds of R77 (R80 (b)). -/
  | notACommand (w : BitVec 8)
  deriving DecidableEq, Repr

/-- `w AND mask = match` selects a row (30_encoding.md R72). -/
def rowHit {n : Nat} (w mask pat : BitVec n) : Bool := w &&& mask == pat

/-- Field `op[19:16]` of a request word (30_encoding.md R71). -/
def reqOp (w : BitVec 20) : BitVec 4 := w.extractLsb' 16 4
/-- Field `a[15:8]` of a request word (30_encoding.md R71). -/
def reqA (w : BitVec 20) : Byte := w.extractLsb' 8 8
/-- Field `b[7:0]` of a request word (30_encoding.md R71). -/
def reqB (w : BitVec 20) : Byte := w.extractLsb' 0 8

/-- The operation codes of R72. -/
def reqOpAssigned (op : BitVec 4) : Bool :=
  op == 0x1#4 || op == 0x2#4 || op == 0x3#4 || op == 0x4#4 || op == 0x5#4
    || op == 0x8#4 || op == 0x9#4 || op == 0xA#4 || op == 0xB#4

/-- A row of the table of R72: its match, its mask, and the instruction of a word it selects. -/
structure ReqRow where
  pat : BitVec 20
  mask : BitVec 20
  instr : BitVec 20 → Instr

/-- The row selects the word. -/
def ReqRow.selects (row : ReqRow) (w : BitVec 20) : Bool := rowHit w row.mask row.pat

/-- The nine rows of R72, in its order. -/
def reqRows : List ReqRow :=
  [⟨0x10000#20, 0xF0000#20, fun w => .init (reqA w) (reqB w)⟩,
   ⟨0x20000#20, 0xFFFFF#20, fun _ => .clear⟩,
   ⟨0x30000#20, 0xFFFFF#20, fun _ => .home⟩,
   ⟨0x40000#20, 0xF0000#20, fun w => .gotoxy (reqA w) (reqB w)⟩,
   ⟨0x50000#20, 0xFFFFF#20, fun _ => .writeString⟩,
   ⟨0x80000#20, 0xFFFFF#20, fun _ => .configure⟩,
   ⟨0x90000#20, 0xFFEF0#20, fun w => .nibble (w.getLsbD 8) (w.extractLsb' 0 4)⟩,
   ⟨0xA0000#20, 0xFFF00#20, fun w => .writeCmd (reqB w)⟩,
   ⟨0xB0000#20, 0xFFF00#20, fun w => .writeData (reqB w)⟩]

/-- The row of R72 that selects the word gives its instruction; what no row selects is illegal by R79. -/
def decodeReq (w : BitVec 20) : Except DecodeReject Instr :=
  match reqRows.find? fun row => row.selects w with
  | some row => .ok (row.instr w)
  | none => if reqOpAssigned (reqOp w) then .error (.operandNotZero w) else .error (.unassignedOp w)

/-- The two latch images of R74. -/
def decodeBus6 (w : BitVec 6) : Except DecodeReject Instr :=
  if rowHit w 0x30#6 0x00#6 then .ok (.busCmdNibble (w.extractLsb' 0 4))
  else if rowHit w 0x30#6 0x20#6 then .ok (.busDataNibble (w.extractLsb' 0 4))
  else .error (.rwSet w)

/-- The two wire patterns of R76: the first image in bits 11:6. -/
def decodeBus12 (w : BitVec 12) : Except DecodeReject Instr :=
  if rowHit w 0xC30#12 0x000#12 then .ok (.busWriteCmd (w.extractLsb' 6 4) (w.extractLsb' 0 4))
  else if rowHit w 0xC30#12 0x820#12 then
    .ok (.busWriteData (w.extractLsb' 6 4) (w.extractLsb' 0 4))
  else .error (.notOneByte w)

/-- The six kinds of command byte of R77. -/
def decodeCmd8 (w : BitVec 8) : Except DecodeReject Instr :=
  if w == 0x01#8 then .ok .cmdClearDisplay
  else if w == 0x02#8 then .ok .cmdReturnHome
  else if w == 0x06#8 then .ok .cmdEntryModeSet
  else if w == 0x0C#8 then .ok .cmdDisplayOn
  else if w == 0x28#8 then .ok .cmdFunctionSet
  else if rowHit w 0x80#8 0x80#8 then .ok (.cmdSetDdramAddr (w.extractLsb' 0 7))
  else .error (.notACommand w)

/-- The decoder: each format by its own table (30_encoding.md R70, R81: no mode bit changes it). -/
def decode : FormatWord → Except DecodeReject Instr
  | .req20 w => decodeReq w
  | .bus6 w => decodeBus6 w
  | .bus12 w => decodeBus12 w
  | .cmd8 w => decodeCmd8 w

/-- A request word from its three fields (30_encoding.md R71). -/
def reqWord (op : BitVec 4) (a b : Byte) : BitVec 20 := op ++ a ++ b

/-- The word of an instruction, from R72, R74, R76, R77 and R78. -/
def encode : Instr → FormatWord
  | .init g m => .req20 (reqWord 0x1#4 g m)
  | .clear => .req20 (reqWord 0x2#4 0 0)
  | .home => .req20 (reqWord 0x3#4 0 0)
  | .gotoxy x y => .req20 (reqWord 0x4#4 x y)
  | .writeString => .req20 (reqWord 0x5#4 0 0)
  | .configure => .req20 (reqWord 0x8#4 0 0)
  | .nibble rs n => .req20 (reqWord 0x9#4 (0#7 ++ BitVec.ofBool rs) (0#4 ++ n))
  | .writeCmd v => .req20 (reqWord 0xA#4 0 v)
  | .writeData v => .req20 (reqWord 0xB#4 0 v)
  | .busCmdNibble n => .bus6 (0b00#2 ++ n)
  | .busDataNibble n => .bus6 (0b10#2 ++ n)
  | .busWriteCmd h l => .bus12 ((0b00#2 ++ h) ++ (0b00#2 ++ l))
  | .busWriteData h l => .bus12 ((0b10#2 ++ h) ++ (0b10#2 ++ l))
  | .cmdClearDisplay => .cmd8 0x01#8
  | .cmdReturnHome => .cmd8 0x02#8
  | .cmdEntryModeSet => .cmd8 0x06#8
  | .cmdDisplayOn => .cmd8 0x0C#8
  | .cmdFunctionSet => .cmd8 0x28#8
  | .cmdSetDdramAddr addr => .cmd8 (0b1#1 ++ addr)

/-- The formatted word a bare word of the opcode table stands for: its length in bits tells the format
(20 or, in whole bytes, 24: REQ20; 12 or 16: BUS12; 6: BUS6; 8: CMD8 or BUS6). DESIGN CHOICE (log 13):
an 8-bit word that is a command byte of R77 is taken as CMD8, any other as BUS6. -/
def tableWord (nbits w : Nat) : Option FormatWord :=
  match nbits with
  | 20 => if w < 2 ^ 20 then some (.req20 (BitVec.ofNat 20 w)) else none
  | 24 => if w < 2 ^ 20 then some (.req20 (BitVec.ofNat 20 w)) else none
  | 12 => if w < 2 ^ 12 then some (.bus12 (BitVec.ofNat 12 w)) else none
  | 16 => if w < 2 ^ 12 then some (.bus12 (BitVec.ofNat 12 w)) else none
  | 6 => if w < 2 ^ 6 then some (.bus6 (BitVec.ofNat 6 w)) else none
  | 8 =>
    if w < 2 ^ 8 then
      match decodeCmd8 (BitVec.ofNat 8 w) with
      | .ok _ => some (.cmd8 (BitVec.ofNat 8 w))
      | .error _ => if w < 2 ^ 6 then some (.bus6 (BitVec.ofNat 6 w)) else none
    else none
  | _ => none

/-- The instruction the decoder reads from a bare word of the opcode table. -/
def decodeTableWord (nbits w : Nat) : Option Instr :=
  match tableWord nbits w with
  | some fw =>
    match decode fw with
    | .ok i => some i
    | .error _ => none
  | none => none

end Sys2Proof
end

