-- ==== Sys2Proof/Config.lean ====
section
/-! DEFINITION. What an implementation fixes (the parameters of 00_scope.md R6) and the free values of
what the spec leaves open. -/

namespace Sys2Proof

/-- The parameters of 00_scope.md R6 that are not fixed constants. A field's default is the value R6
shows. The machine holds them in `State.cfg` and never changes them (log 6), so that a statement about
every state is a statement about every choice of them. -/
structure Config where
  /-- `T_STROBE_MS`: the wait after EN goes high and again after it goes low. -/
  strobeMs : Nat := 1
  /-- `T_INIT_MS`: the wait after each command of INIT. -/
  initMs : Nat := 50
  /-- `T_EXEC_MS`: the wait after the command byte of CLEAR and of HOME. -/
  execMs : Nat := 2
  /-- `GEOMETRY_TABLE` (OPEN): further geometry codes, each with its (COLS, ROWS); code 0 is fixed. -/
  geometryTable : List (Byte × Nat × Nat) := []
  /-- `ROW_BASE` of a two-row geometry. -/
  rowBase2 : List Nat := [0x00, 0x40]
  /-- `ROW_BASE_TABLE` (OPEN): the row bases of any other row count. -/
  rowBaseTable : List (Nat × List Nat) := []
  /-- `LOCK_RELEASE_ON_ERROR` (92_eei_decisions.md D8). -/
  lockReleaseOnError : Bool := true
  /-- `lock_create_ok` (OPEN, 92_eei_decisions.md D11): whether the lock object is created at INIT. -/
  lockCreateOk : Bool := true
  deriving DecidableEq, Repr

/-- The parameters at the defaults of 00_scope.md R6. -/
def Config.default : Config := {}

/-- FREE VALUE (log 2): the answer of a GPIO call, `gpio_ok` of 40_pin_configuration.md R90, R91. -/
opaque Config.gpioOk : Nat → Bool

/-- FREE VALUE (log 3): whether handle storage is obtained, `alloc_ok` of 00_scope.md R6. -/
opaque Config.allocOk : Nat → Bool

/-- FREE VALUE (log 4): whether a SET(EN,0) with EN unknown is a falling edge
(93_implementation_defined.md U5). -/
opaque Config.edge : Nat → Bool

/-- FREE VALUE (log 4): the six levels shown at a falling edge where EN was unknown, and the level an unknown line
shows at any other (93_implementation_defined.md U5). -/
opaque Config.lineLevels : Nat → BitVec 6

/-- FREE VALUE (log 9): which requester the scheduler lets run (92_eei_decisions.md D16). -/
opaque Config.pick : Nat → Nat

/-- FREE VALUE (log 5): the milliseconds a micro-step lasts above its lower bound
(40_pin_configuration.md R92, 10_state.md R34). -/
opaque Config.overrun : Nat → Nat

end Sys2Proof
end

