-- ==== Sys2Proof/Machine/State.lean ====
section
/-! DEFINITION. The state of one engine (10_state.md), the reasons a step can stop, and reset
(70_reset_and_hazards.md R170). One `State` is the engine of one display (10_state.md R37, log 24). -/

namespace Sys2Proof.Machine

/-- The seven pin roles, in the order of 10_state.md R20 (index 0 to 6). -/
inductive Role where
  | rs | rw | en | d4 | d5 | d6 | d7
  deriving DecidableEq, Repr

/-- One cell of a kind per pin role. -/
structure PerPin (α : Type) where
  rs : α
  rw : α
  en : α
  d4 : α
  d5 : α
  d6 : α
  d7 : α
  deriving DecidableEq, Repr

/-- The value of an output latch: a level, or the spec's own third value before the first successful
drive (10_state.md R22). -/
inductive Level where
  | low | high | unknown
  deriving DecidableEq, Repr

/-- The direction cell of a pin (10_state.md R21). -/
inductive Dir where
  | unconfigured | outPpNoPull
  deriving DecidableEq, Repr

/-- A physical pin of the GPIO layer (10_state.md R29); numbers for the platform's types (log 17). -/
structure PhysPin where
  port : Nat
  number : Nat
  deriving DecidableEq, Repr

/-- `PINMAP` (10_state.md R29). -/
abbrev PinMap := PerPin PhysPin

/-- `HANDLE` (10_state.md R27). -/
inductive HandleState where
  | none | building | valid
  deriving DecidableEq, Repr

/-- The communication modes (10_state.md R28). -/
inductive Mode where
  | bit4 | bit8 | serial
  deriving DecidableEq, Repr

/-- `CONFIG` (10_state.md R28). -/
structure DisplayConfig where
  geometry : Byte
  mode : Mode
  deriving DecidableEq, Repr

/-- A byte-transfer strategy a `DISPATCH` cell can name (10_state.md R30). -/
inductive Strategy where
  | writeCmd | writeData
  deriving DecidableEq, Repr

/-- `DISPATCH` (10_state.md R30). -/
structure DispatchTable where
  writeCmd : Strategy
  writeData : Strategy
  deriving DecidableEq, Repr

/-- `LOCK` (10_state.md R32). -/
inductive Lock where
  | absent | free | held (c : Requester)
  deriving DecidableEq, Repr

/-- The two failures of a GPIO call (60_exceptions.md R141, causes 1 and 2). -/
inductive GpioCause where
  | cfgFail (p : Role)
  | setFail (p : Role)
  deriving DecidableEq, Repr

/-- The failure causes (60_exceptions.md R141). -/
inductive Cause where
  | gpio (f : GpioCause)
  | allocFail
  | initProtocol (j : Nat) (f : GpioCause)
  | modeUnimplemented (m : Byte)
  | rangeError (x y : Byte)
  | handleInvalid
  | reqIllegal (w : FormatWord)
  deriving DecidableEq, Repr

/-- The result of an operation (10_state.md R26 (b)). -/
inductive Result where
  | ok | err (c : Cause) | handle | null (c : Cause)
  deriving DecidableEq, Repr

/-- The event alphabet of the trace (00_scope.md R13). -/
inductive Event where
  | alloc (ok : Bool)
  | free
  | mkLock
  | cfg (p : Role) (ok : Bool)
  | set (p : Role) (v : Bool) (ok : Bool)
  | wait (t : Nat)
  | acq (c : Requester)
  | rel (c : Requester)
  | rd (i : Nat) (b : Byte)
  | ret (c : Requester) (r : Result)
  deriving DecidableEq, Repr

/-- What a call of the GPIO layer asks for (40_pin_configuration.md R90, R91). -/
inductive GpioAct where
  | configure | setLevel (v : Bool)
  deriving DecidableEq, Repr

/-- One call of the GPIO layer: the physical pin it is made on (10_state.md R29, 20_memory.md R54), what it asks
for, and the answer. -/
structure GpioCall where
  pin : PhysPin
  act : GpioAct
  ok : Bool
  deriving DecidableEq, Repr

/-- A level 1 operation (00_scope.md R5): CONFIGURE, NIBBLE, and the byte transfer of WRITE_CMD and WRITE_DATA. -/
inductive Level1 where
  | configure
  | nibble (rs : Bool) (n : Nibble)
  | byte (rs : Bool) (v : Byte)
  deriving DecidableEq, Repr

/-- The operation in progress with the operands it was requested with (10_state.md R24, `op`;
20_memory.md R68 (a): they are read once): one of the five level 2 operations, or a level 1 operation presented on its
own (log 11). -/
inductive Op where
  | init (g m : Byte) (pm : PinMap)
  | clear
  | home
  | gotoxy (x y : Byte)
  | writeString
  | level1 (x : Level1)
  deriving DecidableEq, Repr

/-- `phase` of 10_state.md R24. `initCmd`, `initSettle` are INIT's CMD(j), SETTLE(j); `abort` is the
abort path of 60_exceptions.md R146 that R25 names. -/
inductive Phase where
  | check | alloc | bind | cfg (k : Nat) | low (k : Nat) | initCmd (j : Nat) | initSettle (j : Nat)
  | mkLock | done | acq | cmd | settle | rel | fetch (i : Nat) | data (i : Nat) | abort (c : Cause)
  deriving DecidableEq, Repr

/-- `half` of 10_state.md R24: which nibble of the current byte. -/
inductive Half where
  | hi | lo
  deriving DecidableEq, Repr

/-- The position inside an operation (10_state.md R24); `half` and `nstep` have a meaning only in a phase
that transfers a byte. -/
structure Pos where
  phase : Phase
  half : Half
  nstep : Nat
  deriving DecidableEq, Repr

/-- `seq` (10_state.md R24): idle, or the operation in progress, its requester and its position. -/
inductive Seq where
  | idle
  | busy (c : Requester) (op : Op) (pos : Pos)
  deriving DecidableEq, Repr

/-- The TEXT space as cells (20_memory.md R52, log 18): rising addresses; an address not listed has no
byte. -/
abbrev Memory := List Host.Cell

/-- One request at the engine's request port (30_encoding.md R71): the word and its sidebands. `internal`
tells a request of the sequencer itself from a caller's (30_encoding.md R72, column port; log 11). -/
structure Request where
  requester : Requester
  internal : Bool
  word : FormatWord
  pinMap : PinMap
  text : List Byte
  deriving DecidableEq, Repr

/-- What the environment has decided about coming draws, as plain lists read from the front; when a list
is used up every further draw is a free value of Config (logs 2 to 4, 9). The model's own, not the spec's state. -/
structure Env where
  /-- Answers of the coming GPIO calls (40_pin_configuration.md R90, R91). -/
  gpio : List Bool
  /-- Answers of the coming allocations (00_scope.md R6, `alloc_ok`). -/
  alloc : List Bool
  /-- For each coming SET(EN,0) with EN unknown: is it a falling edge, and the six levels of its image
  (93_implementation_defined.md U5). -/
  edge : List (Bool × Image)
  /-- Which requester runs next (92_eei_decisions.md D16). -/
  pick : List Nat
  /-- How many free values have been drawn. -/
  draws : Nat
  deriving DecidableEq, Repr

/-- How far `exec` takes an operation: by one micro-step, which is all that a step of the machine ever makes
(10_state.md R25, 92_eei_decisions.md D1), or whole, to its result, which is how the statements speak of an
instruction's own effect (log 1). -/
inductive Grain where
  | micro | whole
  deriving DecidableEq, Repr

/-- The whole state of one engine. The fields down to `now` are the spec's; the rest are the model's own
(INVENTORY.md, State). -/
structure State where
  /-- The seven output latches (10_state.md R20). -/
  pins : PerPin Level
  /-- The seven direction cells (10_state.md R21). -/
  dirs : PerPin Dir
  /-- The sequencer position (10_state.md R24). -/
  seq : Seq
  /-- `HANDLE` (10_state.md R27). -/
  handle : HandleState
  /-- `CONFIG`; none where it does not exist (10_state.md R28, R35). -/
  config : Option DisplayConfig
  /-- `PINMAP`; none where it does not exist (10_state.md R29, R35). -/
  pinMap : Option PinMap
  /-- `DISPATCH`; none where it does not exist (10_state.md R30, R35). -/
  dispatch : Option DispatchTable
  /-- `LOCK` (10_state.md R32). -/
  lock : Lock
  /-- The TEXT space of the WRITE_STRING request in progress (20_memory.md R52). -/
  text : Memory
  /-- Ghost: the latch images the controller was shown, oldest first (10_state.md R31). -/
  latched : List Image
  /-- Ghost: the events, oldest first (00_scope.md R13, 10_state.md R34). -/
  trace : List Event
  /-- Ghost: elapsed milliseconds (10_state.md R34). -/
  now : Nat
  /-- Ghost: the calls made of the GPIO layer with their physical pins, oldest first (10_state.md R29, 20_memory.md
  R54; log 29). -/
  calls : List GpioCall
  /-- Ghost: the result handed back last, which the engine never reads (10_state.md R26, log 23). -/
  result : Option Result
  /-- The parameters of 00_scope.md R6, which no step changes (log 6). -/
  cfg : Config
  /-- The physical pins of the other handles' pin maps (92_eei_decisions.md D22, log 17). -/
  otherPins : List PhysPin
  /-- Requests that have arrived and are not served yet (60_exceptions.md R147 (b), log 9). -/
  pending : List Request
  /-- The request that is at the port now (log 25). -/
  cur : Request
  /-- How far `exec` takes an operation; every step sets it to `micro` (log 1). -/
  grain : Grain
  /-- The environment's coming answers and choices. -/
  env : Env
  deriving DecidableEq, Repr

/-- Why the machine stops. -/
inductive Fault where
  /-- Raised by a public operation on a VALID handle one of whose cells (CONFIG, DISPATCH, LOCK, or the
  geometry CONFIG names) does not exist: the source would dereference a null pointer
  (93_implementation_defined.md U1, U4). Safe: no state with that combination is reachable (log 19). -/
  | brokenHandle
  deriving DecidableEq, Repr

/-- Why the model gives a request no meaning. -/
inductive Refusal where
  /-- Raised by exec for an instruction that has no meaning yet. Safe. -/
  | notModelled (mnemonic : String)
  /-- Raised by WRITE_STRING on a text with no `0x00` (93_implementation_defined.md U3). Safe (log 16). -/
  | unterminatedText
  /-- Raised by INIT while a handle exists (93_implementation_defined.md U7). Safe (log 16). -/
  | secondInit
  /-- Raised by INIT with a pin map that repeats a pin or overlaps another handle's
  (93_implementation_defined.md U7, 92_eei_decisions.md D22). Safe (log 16). -/
  | pinMapConflict
  /-- Raised by GOTOXY to a position in range of a geometry whose row bases were not given
  (43_public_operations.md R124, 93_implementation_defined.md U10). Safe (log 16). -/
  | rowBaseUnknown
  deriving DecidableEq, Repr

/-- The same value in all seven cells. -/
def PerPin.all {α : Type} (a : α) : PerPin α := ⟨a, a, a, a, a, a, a⟩

/-- Seven distinct pins, used where a request carries no pin map of its own (logs 14, 25). -/
def PinMap.sample : PinMap := ⟨⟨0, 0⟩, ⟨0, 1⟩, ⟨0, 2⟩, ⟨0, 3⟩, ⟨0, 4⟩, ⟨0, 5⟩, ⟨0, 6⟩⟩

/-- What the port shows when no request was ever presented (log 25). -/
def Request.placeholder : Request :=
  { requester := 0, internal := false, word := .req20 0, pinMap := PinMap.sample, text := [] }

/-- No answer or choice fixed in advance. -/
def Env.unfixed : Env := { gpio := [], alloc := [], edge := [], pick := [], draws := 0 }

/-- The reset state (70_reset_and_hazards.md R170, 10_state.md R35); the model's own fields as log 25
says. -/
def State.reset : State where
  pins := PerPin.all .unknown
  dirs := PerPin.all .unconfigured
  seq := .idle
  handle := .none
  config := none
  pinMap := none
  dispatch := none
  lock := .absent
  text := []
  latched := []
  trace := []
  now := 0
  calls := []
  result := none
  cfg := Config.default
  otherPins := []
  pending := []
  cur := Request.placeholder
  grain := .micro
  env := Env.unfixed

end Sys2Proof.Machine
end

