-- ==== Sys2Proof/Machine/Flags.lean ====
section
/-! DEFINITION. Status. The engine has no condition codes and no arithmetic flags (10_state.md R26); its
status is `busy`, which is the lock, and the result of an operation with its cause. -/

namespace Sys2Proof.Machine

/-- `busy`: the lock is held (10_state.md R26 (a)). -/
def State.busy (s : State) : Bool :=
  match s.lock with
  | .held _ => true
  | .free => false
  | .absent => false

/-- The cause codes of 60_exceptions.md R141. -/
def Cause.code : Cause → Nat
  | .gpio (.cfgFail _) => 1
  | .gpio (.setFail _) => 2
  | .allocFail => 3
  | .initProtocol _ _ => 4
  | .modeUnimplemented _ => 5
  | .rangeError _ _ => 6
  | .handleInvalid => 7
  | .reqIllegal _ => 8

/-- A GPIO failure inside command `j` of INIT is `InitProtocolFail(j, f)` (60_exceptions.md R141, R150);
everywhere else a cause is handed up unchanged. -/
def Cause.seenFrom (ph : Phase) (c : Cause) : Cause :=
  match ph, c with
  | .initCmd j, .gpio f => .initProtocol j f
  | _, c => c

/-- The failure result of an operation: `null` from INIT, `err` from the others (10_state.md R26 (b)). -/
def Op.failure (op : Op) (c : Cause) : Result :=
  match op with
  | .init _ _ _ => .null c
  | .clear => .err c
  | .home => .err c
  | .gotoxy _ _ => .err c
  | .writeString => .err c
  | .level1 _ => .err c

end Sys2Proof.Machine
end

