-- ==== Sys2Proof/Machine/Operands.lean ====
section
/-! DEFINITION. Operand forms: the fields of bytes and nibbles, the cells of a pin role, the latch image,
the mode and geometry codes, and the address arithmetic of GOTOXY. -/

namespace Sys2Proof.Machine

/-- The order of the calls of CONFIGURE, which is the listing order of the roles
(40_pin_configuration.md R93). -/
def Role.order : List Role := [.rs, .rw, .en, .d4, .d5, .d6, .d7]

/-- The cell of a role. -/
def PerPin.get {α : Type} (x : PerPin α) : Role → α
  | .rs => x.rs
  | .rw => x.rw
  | .en => x.en
  | .d4 => x.d4
  | .d5 => x.d5
  | .d6 => x.d6
  | .d7 => x.d7

/-- The cells with one role's replaced. -/
def PerPin.set {α : Type} (x : PerPin α) (p : Role) (a : α) : PerPin α :=
  match p with
  | .rs => { x with rs := a }
  | .rw => { x with rw := a }
  | .en => { x with en := a }
  | .d4 => { x with d4 := a }
  | .d5 => { x with d5 := a }
  | .d6 => { x with d6 := a }
  | .d7 => { x with d7 := a }

/-- The pin map a call looks its role up in: the handle's `PINMAP` (10_state.md R29); where no handle exists, which
happens only to a level 1 request of its own, the pin map that came beside that request, as the source's
`configure(pinMap)` and `transfer(pinMap, ...)` are given one (log 11). -/
def State.pinMapInUse (s : State) : PinMap :=
  match s.pinMap with
  | some pm => pm
  | none => s.cur.pinMap

/-- The physical pin of a role: one table look-up, with no check and no fault (20_memory.md R67). -/
def State.physPin (s : State) (p : Role) : PhysPin := s.pinMapInUse.get p

/-- The seven cells in role order. -/
def PerPin.toList {α : Type} (x : PerPin α) : List α := [x.rs, x.rw, x.en, x.d4, x.d5, x.d6, x.d7]

/-- A driven level (00_scope.md R7: 0 = low, 1 = high). -/
def Level.ofBool (v : Bool) : Level := if v then .high else .low

/-- The level a line shows, the given one where the latch is unknown (10_state.md R22,
93_implementation_defined.md U5). -/
def Level.toBool (free : Bool) : Level → Bool
  | .low => false
  | .high => true
  | .unknown => free

/-- `hi(v) = v[7:4]` (30_encoding.md R75). -/
def hiNibble (v : Byte) : Nibble := v.extractLsb' 4 4

/-- `lo(v) = v[3:0]` (30_encoding.md R75). -/
def loNibble (v : Byte) : Nibble := v.extractLsb' 0 4

/-- The byte whose nibbles are `h` and `l` (30_encoding.md R75, R76). -/
def joinNibbles (h l : Nibble) : Byte := h ++ l

/-- `rs ++ 0 ++ n` (30_encoding.md R74): the image of NIBBLE n, rs. -/
def nibbleImage (rs : Bool) (n : Nibble) : Image := BitVec.ofBool rs ++ 0#1 ++ n

/-- `pin[RS] ++ pin[RW] ++ pin[D7] ++ pin[D6] ++ pin[D5] ++ pin[D4]` (40_pin_configuration.md R91); an
unknown line shows its bit of `free` (40_pin_configuration.md R94 (d), log 4). -/
def busImage (free : Image) (pins : PerPin Level) : Image :=
  BitVec.ofBool (pins.rs.toBool (free.getLsbD 5)) ++ BitVec.ofBool (pins.rw.toBool (free.getLsbD 4))
    ++ BitVec.ofBool (pins.d7.toBool (free.getLsbD 3)) ++ BitVec.ofBool (pins.d6.toBool (free.getLsbD 2))
    ++ BitVec.ofBool (pins.d5.toBool (free.getLsbD 1)) ++ BitVec.ofBool (pins.d4.toBool (free.getLsbD 0))

/-- The mode a mode code names (30_encoding.md R73); `0x03` to `0xFF` name none. -/
def Mode.ofCode (m : Byte) : Option Mode :=
  if m == 0x00#8 then some .bit4
  else if m == 0x01#8 then some .bit8
  else if m == 0x02#8 then some .serial
  else none

/-- The strategies of a mode; only the 4-bit mode has any (42_init_sequence.md R114). -/
def DispatchTable.forMode : Mode → Option DispatchTable
  | .bit4 => some { writeCmd := .writeCmd, writeData := .writeData }
  | .bit8 => none
  | .serial => none

/-- The register-select level of a strategy (41_nibble_transfer.md R102, R103). -/
def Strategy.rs : Strategy → Bool
  | .writeCmd => false
  | .writeData => true

/-- (COLS, ROWS) of a geometry code: code 0 is 16 by 2, any other is looked up in `GEOMETRY_TABLE`
(30_encoding.md R73). -/
def geometryOf (cfg : Config) (g : Byte) : Option (Nat × Nat) :=
  if g == 0x00#8 then some (16, 2) else cfg.geometryTable.lookup g

/-- `ROW_BASE` of a row count (43_public_operations.md R124). -/
def rowBasesOf (cfg : Config) (rows : Nat) : Option (List Nat) :=
  if rows = 2 then some cfg.rowBase2 else cfg.rowBaseTable.lookup rows

/-- `INIT_CMDS` (00_scope.md R6). -/
def initCmds : List Byte := [0x02#8, 0x28#8, 0x06#8, 0x0C#8, 0x01#8]

/-- `CMD_CLEAR` (00_scope.md R6). -/
def cmdClear : Byte := 0x01#8

/-- `CMD_HOME` (00_scope.md R6). -/
def cmdHome : Byte := 0x02#8

/-- `0x80 OR addr` (30_encoding.md R78); the pattern is PRESUMED, general knowledge (log 20). -/
def setDdramByte (addr : Nat) : Byte := 0x80#8 ||| BitVec.ofNat 8 addr

/-- What GOTOXY x, y comes to under a configuration. -/
inductive Target where
  /-- In range: the command byte to send. -/
  | byte (v : Byte)
  /-- Out of range: RangeError. -/
  | outOfRange
  /-- In range of a geometry whose row bases are not given. -/
  | noRowBase
  /-- The configuration does not exist or names no geometry. -/
  | noGeometry
  deriving DecidableEq, Repr

/-- The checks and the address arithmetic of GOTOXY (43_public_operations.md R123, R124): row before
column, then `ROW_BASE[y] + x`, which must not exceed 0x7F. -/
def gotoxyTarget (cfg : Config) (config : Option DisplayConfig) (x y : Byte) : Target :=
  match config with
  | none => .noGeometry
  | some dc =>
    match geometryOf cfg dc.geometry with
    | none => .noGeometry
    | some (cols, rows) =>
      if rows ≤ y.toNat then .outOfRange
      else if cols ≤ x.toNat then .outOfRange
      else
        match rowBasesOf cfg rows with
        | none => .noRowBase
        | some bases =>
          match bases[y.toNat]? with
          | none => .noRowBase
          | some base =>
            if base + x.toNat ≤ 0x7F then .byte (setDdramByte (base + x.toNat)) else .outOfRange

/-- A pin map the model accepts (92_eei_decisions.md D22): seven distinct pins, none of them another
handle's. -/
def pinMapAccepted (others : List PhysPin) (pm : PinMap) : Bool :=
  pinsDistinct pm.toList && pinsDisjoint pm.toList others

end Sys2Proof.Machine
end

