-- ==== Sys2Proof/Machine/Ops.lean ====
section
/-! DEFINITION. The named operations of the engine: draws and time, the external primitives, the lock,
the text read, results, the abort of 60_exceptions.md R146, and the micro-steps of 10_state.md R25 and
how they run. -/

namespace Sys2Proof.Machine

/-! ### Time, trace and draws -/

/-- Time passes: every micro-step lasts a draw of at least 0 ms (10_state.md R34). -/
def State.tick (s : State) : State :=
  { s with now := s.now + Config.overrun s.env.draws, env := { s.env with draws := s.env.draws + 1 } }

/-- An event is appended to the trace (00_scope.md R13). -/
def State.log (e : Event) (s : State) : State := { s with trace := s.trace ++ [e] }

/-- The answer of the next GPIO call, `gpio_ok` (40_pin_configuration.md R90, R91; log 2). -/
def State.drawGpio (s : State) : Bool × State :=
  match s.env.gpio with
  | b :: rest => (b, { s with env := { s.env with gpio := rest } })
  | [] => (Config.gpioOk s.env.draws, { s with env := { s.env with draws := s.env.draws + 1 } })

/-- The answer of the next allocation, `alloc_ok` (00_scope.md R6; log 3). -/
def State.drawAlloc (s : State) : Bool × State :=
  match s.env.alloc with
  | b :: rest => (b, { s with env := { s.env with alloc := rest } })
  | [] => (Config.allocOk s.env.draws, { s with env := { s.env with draws := s.env.draws + 1 } })

/-- Is this SET(EN,0) with EN unknown a falling edge, and what image does it show
(93_implementation_defined.md U5; log 4). -/
def State.drawEdge (s : State) : (Bool × Image) × State :=
  match s.env.edge with
  | e :: rest => (e, { s with env := { s.env with edge := rest } })
  | [] =>
    ((Config.edge s.env.draws, Config.lineLevels s.env.draws),
      { s with env := { s.env with draws := s.env.draws + 1 } })

/-- The scheduler's next choice (92_eei_decisions.md D16; log 9). -/
def State.drawPick (s : State) : Nat × State :=
  match s.env.pick with
  | k :: rest => (k, { s with env := { s.env with pick := rest } })
  | [] => (Config.pick s.env.draws, { s with env := { s.env with draws := s.env.draws + 1 } })

/-! ### The external primitives -/

/-- What an engine call answered: nothing, or the failure it raised (00_scope.md R8). -/
abbrev Raised := Option Cause

/-- A call of the GPIO layer is made on the physical pin of a role (10_state.md R29, 20_memory.md R54). -/
def State.call (p : Role) (act : GpioAct) (ok : Bool) (s : State) : State :=
  { s with calls := s.calls ++ [{ pin := s.physPin p, act := act, ok := ok }] }

/-- `GpioCfg(p)` on the physical pin `PINMAP[p]` (40_pin_configuration.md R90). -/
def gpioCfg (p : Role) (s : State) : State × Raised :=
  let (r, s) := s.drawGpio
  let s := ((s.call p .configure r).log (.cfg p r)).tick
  if r then ({ s with dirs := s.dirs.set p .outPpNoPull }, none) else (s, some (.gpio (.cfgFail p)))

/-- What a successful SET(EN,0) does to `latched`, before the latch changes: at a falling edge the image
of the six lines is appended (10_state.md R31); with EN unknown it may be one, and the six bits of its image are
draws (93_implementation_defined.md U5; log 4). -/
def latchEdge (s : State) : State :=
  match s.pins.en with
  | .low => s
  | .high => { s with latched := s.latched ++ [busImage (Config.lineLevels s.env.draws) s.pins] }
  | .unknown =>
    let ((isEdge, image), s) := s.drawEdge
    if isEdge then { s with latched := s.latched ++ [image] } else s

/-- The effect of a level-set call that answered ok (40_pin_configuration.md R91). -/
def driveLine (p : Role) (v : Bool) (s : State) : State :=
  let s := if p = .en ∧ v = false then latchEdge s else s
  { s with pins := s.pins.set p (Level.ofBool v) }

/-- `GpioSet(p, v)` on the physical pin `PINMAP[p]` (40_pin_configuration.md R91): a failed call leaves every latch as
it was. -/
def gpioSet (p : Role) (v : Bool) (s : State) : State × Raised :=
  let (r, s) := s.drawGpio
  let s := ((s.call p (.setLevel v) r).log (.set p v r)).tick
  if r then (driveLine p v s, none) else (s, some (.gpio (.setFail p)))

/-- `Sleep(t)` (40_pin_configuration.md R92): at least `t` ms pass; it cannot fail. -/
def sleepFor (t : Nat) (s : State) : State :=
  let s := s.log (.wait t)
  State.tick { s with now := s.now + t }

/-! ### The TEXT space -/

/-- The cells of a byte sequence, the first at index `i` (20_memory.md R52). -/
def Memory.load (i : Nat) : List Byte → Memory
  | [] => []
  | b :: bs => (i, b) :: Memory.load (i + 1) bs

/-- The byte at an index; none where the sequence has none (20_memory.md R52). -/
def Memory.read (m : Memory) (i : Nat) : Option Byte := List.lookup i m

/-- The canonical form: addresses strictly rising. (An unlisted address has no byte, so no entry can
equal what it reads as.) -/
def Memory.wf : Memory → Bool
  | [] => true
  | [_] => true
  | a :: b :: rest => decide (a.1 < b.1) && Memory.wf (b :: rest)

/-- `MemRead(i, 1)` with its event (43_public_operations.md R125); it has no side effect but the trace
(20_memory.md R60). -/
def textRead (i : Nat) (s : State) : State :=
  match Memory.read s.text i with
  | some b => (s.log (.rd i b)).tick
  | none => s

/-! ### The lock (20_memory.md R61, R62) -/

/-- `LockAcquire(c)`: has a step only while the lock is free. -/
def lockAcquire (c : Requester) (s : State) : Option State :=
  if s.lock = .free then some (State.log (.acq c) { s with lock := .held c }) else none

/-- `LockRelease(c)`: performed by the holder. -/
def lockRelease (c : Requester) (s : State) : State :=
  if s.lock = .held c then State.log (.rel c) { s with lock := .free } else s

/-! ### Results, refusals, waiting -/

/-- The result is handed back to the requester (00_scope.md R13, `RET`). -/
def State.ret (c : Requester) (r : Result) (s : State) : State :=
  State.log (.ret c r) { s with result := some r }

/-- A refusal of a public operation: a single step that appends only its RET
(43_public_operations.md R120, R128; 30_encoding.md R79). -/
def refuseErr (c : Cause) (s : State) : State := (s.ret s.cur.requester (.err c)).tick

/-- A refusal of INIT (30_encoding.md R79, 42_init_sequence.md R114). -/
def refuseNull (c : Cause) (s : State) : State := (s.ret s.cur.requester (.null c)).tick

/-- The requester has no step and waits (20_memory.md R61, 60_exceptions.md R159); its request stays the first of
its requester and only time passes (log 10). -/
def waitTurn (s : State) : State := State.tick { s with pending := s.cur :: s.pending }

/-! ### Abort and return (60_exceptions.md R146, R149) -/

/-- `Teardown` (42_init_sequence.md R112): pins, directions and `latched` keep what they are. -/
def teardown (s : State) : State :=
  State.log .free
    { s with
      lock := .absent
      handle := .none
      config := none
      pinMap := none
      dispatch := none }

/-- What an abort undoes and releases (60_exceptions.md R146): INIT tears down what was allocated, a public operation
releases the lock (unless `LOCK_RELEASE_ON_ERROR` is false, 92_eei_decisions.md D8), a level 1 operation has neither. -/
def unwind (c : Requester) (op : Op) (s : State) : State :=
  match op with
  | .init _ _ _ => if s.handle = .building then teardown s else s
  | .level1 _ => s
  | _ => if s.cfg.lockReleaseOnError then lockRelease c s else s

/-- The failure is handed back: a caller's result with its RET, a level 1 operation's without one (00_scope.md R13,
10_state.md R26 (b)). -/
def retFailure (c : Requester) (op : Op) (f : Cause) (s : State) : State :=
  match op with
  | .level1 _ => { s with result := some (.err f) }
  | _ => { s.ret c (op.failure f) with text := [] }

/-- Abort, the one reaction to a failure `f` of operation `op` of requester `c` (60_exceptions.md R146): what has to be
is undone, the failure is handed back, the engine is idle. -/
def abortOp (c : Requester) (op : Op) (f : Cause) (s : State) : State :=
  State.tick { retFailure c op f (unwind c op s) with seq := .idle }

/-- The last step of a public operation that succeeded: the lock is released and `ok` handed back
(43_public_operations.md R120). -/
def releaseOk (c : Requester) (s : State) : State :=
  { (lockRelease c s).ret c .ok with text := [] }

/-! ### Micro-steps (10_state.md R25) -/

/-- One atomic step of an operation (10_state.md R25, 92_eei_decisions.md D1). -/
inductive Micro where
  /-- The mode check of INIT (42_init_sequence.md R114). -/
  | modeCheck (m : Byte)
  /-- The allocation, with what it writes (42_init_sequence.md R110). -/
  | alloc (g m : Byte) (pm : PinMap)
  /-- The binding of the two strategies (42_init_sequence.md R110). -/
  | bind
  /-- `GpioCfg(p)`. -/
  | cfg (p : Role)
  /-- `GpioSet(p, v)`. -/
  | set (p : Role) (v : Bool)
  /-- `Sleep(t)`. -/
  | sleep (t : Nat)
  /-- The creation of the lock (42_init_sequence.md R110). -/
  | mkLock
  /-- INIT returns the handle (42_init_sequence.md R110). -/
  | done (c : Requester)
  /-- `LockAcquire(c)`. -/
  | acq (c : Requester)
  /-- The range check of GOTOXY (43_public_operations.md R123). -/
  | rangeCheck (x y : Byte)
  /-- `MemRead(i, 1)`. -/
  | fetch (i : Nat)
  /-- `LockRelease(c)` and the result ok. -/
  | release (c : Requester)
  deriving DecidableEq, Repr

/-- INIT's allocation step (42_init_sequence.md R110). -/
def allocHandle (g m : Byte) (pm : PinMap) (s : State) : State × Raised :=
  let (r, s) := s.drawAlloc
  let s := (s.log (.alloc r)).tick
  if r then
    ({ s with
        handle := .building
        config := (Mode.ofCode m).map fun md => { geometry := g, mode := md }
        pinMap := some pm },
      none)
  else (s, some .allocFail)

/-- INIT's binding step (42_init_sequence.md R110, R114). -/
def bindDispatch (s : State) : State :=
  State.tick { s with dispatch := s.config.bind fun dc => DispatchTable.forMode dc.mode }

/-- INIT's lock creation (42_init_sequence.md R110; 92_eei_decisions.md D11). -/
def makeLock (s : State) : State × Raised :=
  if s.cfg.lockCreateOk then ((State.log .mkLock { s with lock := .free }).tick, none)
  else (s.tick, some .allocFail)

/-- INIT's last step (42_init_sequence.md R110). -/
def publishHandle (c : Requester) (s : State) : State :=
  (State.ret c .handle { s with handle := .valid }).tick

/-- What one micro-step does, and the failure it raises. -/
def Micro.act (m : Micro) (s : State) : State × Raised :=
  match m with
  | .modeCheck code =>
    (s.tick, if Mode.ofCode code = some .bit4 then none else some (.modeUnimplemented code))
  | .alloc g m pm => allocHandle g m pm s
  | .bind => (bindDispatch s, none)
  | .cfg p => gpioCfg p s
  | .set p v => gpioSet p v s
  | .sleep t => (sleepFor t s, none)
  | .mkLock => makeLock s
  | .done c => (publishHandle c s, none)
  | .acq c => (((lockAcquire c s).getD s).tick, none)
  | .rangeCheck x y =>
    (s.tick,
      match gotoxyTarget s.cfg s.config x y with
      | .byte _ => none
      | _ => some (.rangeError x y))
  | .fetch i => (textRead i s, none)
  | .release c => ((releaseOk c s).tick, none)

/-! ### The micro-steps of a nibble -/

/-- The ten micro-steps of NIBBLE n, rs (41_nibble_transfer.md R100); `t` is `T_STROBE_MS`. -/
def nibbleCode (t : Nat) (rs : Bool) (n : Nibble) : List Micro :=
  [.set .rs rs, .set .rw false, .set .d4 (n.getLsbD 0), .set .d5 (n.getLsbD 1), .set .d6 (n.getLsbD 2),
    .set .d7 (n.getLsbD 3), .set .en true, .sleep t, .set .en false, .sleep t]

/-! ### The micro-steps of the operations, with their positions -/

/-- Micro-steps with their positions (10_state.md R24). -/
abbrev Code := List (Pos × Micro)

/-- A position in a phase that transfers no byte. -/
def Pos.plain (ph : Phase) : Pos := { phase := ph, half := .hi, nstep := 0 }

/-- One micro-step in a phase that transfers no byte. -/
def plain (ph : Phase) (m : Micro) : Pos × Micro := (Pos.plain ph, m)

/-- The micro-steps of a nibble, numbered from `k` (10_state.md R24, `nstep`). -/
def numberFrom (ph : Phase) (h : Half) (k : Nat) : List Micro → Code
  | [] => []
  | m :: rest => ({ phase := ph, half := h, nstep := k }, m) :: numberFrom ph h (k + 1) rest

/-- BYTE v, rs in a phase: the high nibble, then the low nibble (41_nibble_transfer.md R101). -/
def sendByte (t : Nat) (ph : Phase) (rs : Bool) (v : Byte) : Code :=
  numberFrom ph .hi 0 (nibbleCode t rs (hiNibble v)) ++ numberFrom ph .lo 0 (nibbleCode t rs (loNibble v))

/-- The commands of INIT from number `j` on, each with its settle wait (42_init_sequence.md R110). -/
def initCommands (cfg : Config) (st : Strategy) (j : Nat) : List Byte → Code
  | [] => []
  | v :: rest =>
    sendByte cfg.strobeMs (.initCmd j) st.rs v ++ plain (.initSettle j) (.sleep cfg.initMs)
      :: initCommands cfg st (j + 1) rest

/-- Calls on the roles in order, in phases numbered from `k` (10_state.md R24). -/
def configurePhases (mk : Nat → Phase) (f : Role → Micro) (k : Nat) : List Role → Code
  | [] => []
  | p :: rest => plain (mk k) (f p) :: configurePhases mk f (k + 1) rest

/-- CONFIGURE: seven configure calls, then seven set-low calls, phases CFG(k) and LOW(k)
(40_pin_configuration.md R93, 10_state.md R24). -/
def configureCode : Code :=
  configurePhases Phase.cfg Micro.cfg 0 Role.order
    ++ configurePhases Phase.low (fun p => Micro.set p false) 0 Role.order

/-- A level 1 operation on its own, its transfer in the phase CMD of 10_state.md R24 (log 11). -/
def level1Code (cfg : Config) : Level1 → Code
  | .configure => configureCode
  | .nibble rs n => numberFrom .cmd .hi 0 (nibbleCode cfg.strobeMs rs n)
  | .byte rs v => sendByte cfg.strobeMs .cmd rs v

/-- INIT after its allocation and binding (42_init_sequence.md R110). -/
def initTail (cfg : Config) (c : Requester) (d : DispatchTable) : Code :=
  configureCode ++ initCommands cfg d.writeCmd 0 initCmds
    ++ [plain .mkLock .mkLock, plain .done (.done c)]

/-- INIT (42_init_sequence.md R110); a mode without strategies ends at the check. -/
def initCode (cfg : Config) (c : Requester) (g m : Byte) (pm : PinMap) : Code :=
  plain .check (.modeCheck m) ::
    match (Mode.ofCode m).bind DispatchTable.forMode with
    | some d => plain .alloc (.alloc g m pm) :: plain .bind .bind :: initTail cfg c d
    | none => []

/-- CLEAR and HOME: one command byte, the settle wait inside the lock
(43_public_operations.md R121, R122). -/
def commandCode (cfg : Config) (c : Requester) (d : DispatchTable) (v : Byte) : Code :=
  plain .acq (.acq c) :: sendByte cfg.strobeMs .cmd d.writeCmd.rs v
    ++ [plain .settle (.sleep cfg.execMs), plain .rel (.release c)]

/-- GOTOXY (43_public_operations.md R123); out of range it ends at the check. -/
def gotoxyCode (cfg : Config) (c : Requester) (d : DispatchTable) (config : Option DisplayConfig)
    (x y : Byte) : Code :=
  plain .acq (.acq c) :: plain .check (.rangeCheck x y) ::
    match gotoxyTarget cfg config x y with
    | .byte v => sendByte cfg.strobeMs .cmd d.writeCmd.rs v ++ [plain .rel (.release c)]
    | _ => []

/-- The loop of WRITE_STRING over the TEXT space (43_public_operations.md R125): each byte is read, then
sent, up to the first `0x00`, which is read and not sent. -/
def stringCode (cfg : Config) (d : DispatchTable) : Memory → Code
  | [] => []
  | (i, b) :: rest =>
    plain (.fetch i) (.fetch i) ::
      if b = 0x00#8 then []
      else sendByte cfg.strobeMs (.data i) d.writeData.rs b ++ stringCode cfg d rest

/-- WRITE_STRING (43_public_operations.md R125). -/
def writeStringCode (cfg : Config) (c : Requester) (d : DispatchTable) (text : Memory) : Code :=
  plain .acq (.acq c) :: stringCode cfg d text ++ [plain .rel (.release c)]

/-- The micro-steps of an operation in a state; none where a cell of the handle it needs does not exist
(log 19). -/
def opCode (c : Requester) (op : Op) (s : State) : Option Code :=
  match op with
  | .init g m pm => some (initCode s.cfg c g m pm)
  | .clear => s.dispatch.map fun d => commandCode s.cfg c d cmdClear
  | .home => s.dispatch.map fun d => commandCode s.cfg c d cmdHome
  | .gotoxy x y => s.dispatch.map fun d => gotoxyCode s.cfg c d s.config x y
  | .writeString => s.dispatch.map fun d => writeStringCode s.cfg c d s.text
  | .level1 x => some (level1Code s.cfg x)

/-! ### Running an operation -/

/-- How a run of micro-steps ended. -/
inductive Halt where
  /-- The last micro-step was made. -/
  | done
  /-- One micro-step was made; the next is the one at this position. -/
  | paused (pos : Pos)
  /-- The micro-step at this position raised a failure. -/
  | failed (pos : Pos) (f : Cause)
  deriving DecidableEq, Repr

/-- Micro-steps in order: one, or all of them up to the last or the first that fails (10_state.md R25;
60_exceptions.md R146; log 1). -/
def runCode (g : Grain) : Code → State → State × Halt
  | [], s => (s, .done)
  | (pos, m) :: rest, s =>
    match m.act s with
    | (s, some f) => (s, .failed pos f)
    | (s, none) =>
      match g, rest with
      | .micro, (q, _) :: _ => (s, .paused q)
      | _, _ => runCode g rest s

/-- After its last micro-step the engine is idle; a level 1 operation on its own hands back ok here, a level 2
operation has done so in that micro-step (10_state.md R26 (b)). -/
def finishOp (op : Op) (s : State) : State :=
  match op with
  | .level1 _ => { s with seq := .idle, result := some .ok }
  | _ => { s with seq := .idle }

/-- What a run leaves in `seq`: idle after the last micro-step; else the position of the next one, or the abort path
where one failed (10_state.md R25), which a whole run takes at once. -/
def settleRun (g : Grain) (c : Requester) (op : Op) (r : State × Halt) : State :=
  match r with
  | (s, .done) => finishOp op s
  | (s, .paused q) => { s with seq := .busy c op q }
  | (s, .failed pos f) =>
    match g with
    | .micro => { s with seq := .busy c op (Pos.plain (.abort (f.seenFrom pos.phase))) }
    | .whole => abortOp c op (f.seenFrom pos.phase) s

/-- An operation whose remaining micro-steps are `code` runs as far as the grain says. -/
def runOp (c : Requester) (op : Op) (code : Code) (s : State) : State :=
  settleRun s.grain c op (runCode s.grain code s)

/-- The micro-steps of `code` from a position on. -/
def codeFrom (pos : Pos) (code : Code) : Code := code.dropWhile fun pm => pm.1 ≠ pos

/-- The operation in progress goes on from its position (10_state.md R25); on the abort path the abort is made. -/
def resumeOp (c : Requester) (op : Op) (pos : Pos) (s : State) :
    Host.Outcome State Fault Refusal :=
  match pos.phase with
  | .abort f => .next (abortOp c op f s)
  | _ =>
    match opCode c op s with
    | some code => .next (runOp c op (codeFrom pos code) s)
    | none => .fault .brokenHandle

/-! ### Presenting an operation -/

/-- A level 1 operation at the port: a caller's is illegal (30_encoding.md R79, 60_exceptions.md R152), the
sequencer's runs, or waits while another operation is in progress. DESIGN CHOICE (log 11): that a level 1 operation can
be a request of its own; that it looks at neither `HANDLE` nor `LOCK`, so that with the engine idle it runs also while
the lock is held; and that with no handle, and so no `PINMAP`, it makes its calls on the pins of the pin map beside the
request, which is not checked for repeated pins or for an overlap with another handle's. -/
def internalOp (x : Level1) (s : State) : Host.Outcome State Fault Refusal :=
  if s.cur.internal = false then .next (refuseErr (.reqIllegal s.cur.word) s)
  else if s.seq ≠ .idle then .next (waitTurn s)
  else .next (runOp s.cur.requester (.level1 x) (level1Code s.cfg x) s)

/-- The frame of the four operations on a handle (43_public_operations.md R120, R128): the handle is
checked first; then the request waits for the lock; then the operation runs. -/
def publicOp (op : Op) (s : State) : Host.Outcome State Fault Refusal :=
  if s.handle ≠ .valid then .next (refuseErr .handleInvalid s)
  else if s.lock = .absent then .fault .brokenHandle
  else if s.lock ≠ .free ∨ s.seq ≠ .idle then .next (waitTurn s)
  else
    match opCode s.cur.requester op s with
    | some code => .next (runOp s.cur.requester op code s)
    | none => .fault .brokenHandle

end Sys2Proof.Machine
end

