-- ==== Sys2Proof/Machine/Commands.lean ====
section
/-! DEFINITION. The meanings of the six command bytes: each is WRITE_CMD of its byte (30_encoding.md R77,
R83; log 12). -/

namespace Sys2Proof.Machine

/-- The command byte `v` through WRITE_CMD (30_encoding.md R77, R83). -/
def commandByte (v : Byte) (s : State) : Host.Outcome State Fault Refusal :=
  internalOp (.byte Strategy.writeCmd.rs v) s

/-- `CMD.CLEAR_DISPLAY` (30_encoding.md R77). -/
def execCmdClearDisplay (s : State) : Host.Outcome State Fault Refusal := commandByte 0x01#8 s

/-- `CMD.RETURN_HOME` (30_encoding.md R77). -/
def execCmdReturnHome (s : State) : Host.Outcome State Fault Refusal := commandByte 0x02#8 s

/-- `CMD.ENTRY_MODE_SET` (30_encoding.md R77). -/
def execCmdEntryModeSet (s : State) : Host.Outcome State Fault Refusal := commandByte 0x06#8 s

/-- `CMD.DISPLAY_ON` (30_encoding.md R77). -/
def execCmdDisplayOn (s : State) : Host.Outcome State Fault Refusal := commandByte 0x0C#8 s

/-- `CMD.FUNCTION_SET` (30_encoding.md R77). -/
def execCmdFunctionSet (s : State) : Host.Outcome State Fault Refusal := commandByte 0x28#8 s

/-- `CMD.SET_DDRAM_ADDR`: the byte `0b1 ++ addr` (30_encoding.md R78; log 20). -/
def execCmdSetDdramAddr (addr : BitVec 7) (s : State) : Host.Outcome State Fault Refusal :=
  commandByte (setDdramByte addr.toNat) s

end Sys2Proof.Machine
end

