-- ==== Sys2Proof/Machine/Init.lean ====
section
/-! DEFINITION. The meaning of INIT (42_init_sequence.md). -/

namespace Sys2Proof.Machine

/-- `INIT g, m` with the port's pin map (42_init_sequence.md R110). The checks stand in the order of
60_exceptions.md R148: a geometry code that names none is illegal (30_encoding.md R79); a mode other than
4-bit fails (R114); then the launch premises of 93_implementation_defined.md U7 (log 15). -/
def execInit (g m : Byte) (s : State) : Host.Outcome State Fault Refusal :=
  if geometryOf s.cfg g = none then .next (refuseNull (.reqIllegal s.cur.word) s)
  else if Mode.ofCode m ≠ some .bit4 then .next (refuseNull (.modeUnimplemented m) s)
  else if s.handle ≠ .none then .refused .secondInit
  else if pinMapAccepted s.otherPins s.cur.pinMap = false then .refused .pinMapConflict
  else if s.seq ≠ .idle then .next (waitTurn s)
  else
    .next
      (runOp s.cur.requester (.init g m s.cur.pinMap)
        (initCode s.cfg s.cur.requester g m s.cur.pinMap) s)

end Sys2Proof.Machine
end

