-- ==== Sys2Proof/Machine/PinConfig.lean ====
section
/-! DEFINITION. The meaning of CONFIGURE (40_pin_configuration.md R93). -/

namespace Sys2Proof.Machine

/-- `CONFIGURE` (40_pin_configuration.md R93, R94). -/
def execConfigure (s : State) : Host.Outcome State Fault Refusal := internalOp .configure s

end Sys2Proof.Machine
end

