-- ==== Sys2Proof/Machine/Public.lean ====
section
/-! DEFINITION. The meanings of CLEAR, HOME, GOTOXY and WRITE_STRING (43_public_operations.md). -/

namespace Sys2Proof.Machine

/-- `CLEAR` (43_public_operations.md R121). -/
def execClear (s : State) : Host.Outcome State Fault Refusal := publicOp .clear s

/-- `HOME` (43_public_operations.md R122). -/
def execHome (s : State) : Host.Outcome State Fault Refusal := publicOp .home s

/-- `GOTOXY x, y` (43_public_operations.md R123). A position in range of a geometry without row bases has
no meaning (R124). -/
def execGotoxy (x y : Byte) (s : State) : Host.Outcome State Fault Refusal :=
  if s.handle = .valid then
    match gotoxyTarget s.cfg s.config x y with
    | .noGeometry => .fault .brokenHandle
    | .noRowBase => .refused .rowBaseUnknown
    | .byte _ => publicOp (.gotoxy x y) s
    | .outOfRange => publicOp (.gotoxy x y) s
  else publicOp (.gotoxy x y) s

/-- The request's text becomes the TEXT space when its operation can begin (20_memory.md R52). -/
def withText (s : State) : State :=
  if s.handle = .valid ∧ s.lock = .free ∧ s.seq = .idle then
    { s with text := Memory.load 0 s.cur.text }
  else s

/-- `WRITE_STRING` (43_public_operations.md R125). A text without a `0x00` has no meaning and no step
(93_implementation_defined.md U3). -/
def execWriteString (s : State) : Host.Outcome State Fault Refusal :=
  if s.handle = .valid ∧ textTerminated s.cur.text = false then .refused .unterminatedText
  else publicOp .writeString (withText s)

end Sys2Proof.Machine
end

