-- ==== Sys2Proof/Machine/Transfer.lean ====
section
/-! DEFINITION. The meanings of NIBBLE, WRITE_CMD and WRITE_DATA (41_nibble_transfer.md). -/

namespace Sys2Proof.Machine

/-- `NIBBLE n, rs` (41_nibble_transfer.md R100, R104). -/
def execNibble (rs : Bool) (n : Nibble) (s : State) : Host.Outcome State Fault Refusal :=
  internalOp (.nibble rs n) s

/-- `WRITE_CMD v` is BYTE v, 0 (41_nibble_transfer.md R102). -/
def execWriteCmd (v : Byte) (s : State) : Host.Outcome State Fault Refusal :=
  internalOp (.byte Strategy.writeCmd.rs v) s

/-- `WRITE_DATA v` is BYTE v, 1 (41_nibble_transfer.md R103). -/
def execWriteData (v : Byte) (s : State) : Host.Outcome State Fault Refusal :=
  internalOp (.byte Strategy.writeData.rs v) s

end Sys2Proof.Machine
end

