-- ==== Sys2Proof/Machine/Wire.lean ====
section
/-! DEFINITION. The meanings of the bus formats (30_encoding.md R74, R76): an image or a pair of images is
put on the wire by the transfer that produces it (log 12). -/

namespace Sys2Proof.Machine

/-- The latch image `00nnnn` is what NIBBLE n, 0 shows (30_encoding.md R74). -/
def execBusCmdNibble (n : Nibble) (s : State) : Host.Outcome State Fault Refusal :=
  internalOp (.nibble false n) s

/-- The latch image `10nnnn` is what NIBBLE n, 1 shows (30_encoding.md R74). -/
def execBusDataNibble (n : Nibble) (s : State) : Host.Outcome State Fault Refusal :=
  internalOp (.nibble true n) s

/-- The pair `00hhhh 00llll` is what WRITE_CMD of `h ++ l` shows (30_encoding.md R76). -/
def execBusWriteCmd (h l : Nibble) (s : State) : Host.Outcome State Fault Refusal :=
  internalOp (.byte Strategy.writeCmd.rs (joinNibbles h l)) s

/-- The pair `10hhhh 10llll` is what WRITE_DATA of `h ++ l` shows (30_encoding.md R76). -/
def execBusWriteData (h l : Nibble) (s : State) : Host.Outcome State Fault Refusal :=
  internalOp (.byte Strategy.writeData.rs (joinNibbles h l)) s

end Sys2Proof.Machine
end

