-- ==== Sys2Proof/Machine/Dispatch.lean ====
section
/-! DEFINITION. The dispatch: one arm per constructor of Instr. -/

namespace Sys2Proof.Machine

def exec (i : Instr) (s : State) : Host.Outcome State Fault Refusal :=
  match i with
  | .init g m => Sys2Proof.Machine.execInit g m s
  | .clear => Sys2Proof.Machine.execClear s
  | .home => Sys2Proof.Machine.execHome s
  | .gotoxy x y => Sys2Proof.Machine.execGotoxy x y s
  | .writeString => Sys2Proof.Machine.execWriteString s
  | .configure => Sys2Proof.Machine.execConfigure s
  | .nibble rs n => Sys2Proof.Machine.execNibble rs n s
  | .writeCmd v => Sys2Proof.Machine.execWriteCmd v s
  | .writeData v => Sys2Proof.Machine.execWriteData v s
  | .busCmdNibble n => Sys2Proof.Machine.execBusCmdNibble n s
  | .busDataNibble n => Sys2Proof.Machine.execBusDataNibble n s
  | .busWriteCmd h l => Sys2Proof.Machine.execBusWriteCmd h l s
  | .busWriteData h l => Sys2Proof.Machine.execBusWriteData h l s
  | .cmdClearDisplay => Sys2Proof.Machine.execCmdClearDisplay s
  | .cmdReturnHome => Sys2Proof.Machine.execCmdReturnHome s
  | .cmdEntryModeSet => Sys2Proof.Machine.execCmdEntryModeSet s
  | .cmdDisplayOn => Sys2Proof.Machine.execCmdDisplayOn s
  | .cmdFunctionSet => Sys2Proof.Machine.execCmdFunctionSet s
  | .cmdSetDdramAddr addr => Sys2Proof.Machine.execCmdSetDdramAddr addr s

end Sys2Proof.Machine
end

