-- ==== Sys2Proof/Machine/Port.lean ====
section
/-! DEFINITION. The request port: what arrives, which requester runs next, and how a bare word of the opcode
table is presented (logs 9, 14). -/

namespace Sys2Proof.Machine

/-- A request arrives (60_exceptions.md R147 (b)). -/
def State.submit (r : Request) (s : State) : State := { s with pending := s.pending ++ [r] }

/-- INIT is the one operation that runs without the lock (42_init_sequence.md R110). -/
def Op.isInit : Op → Bool
  | .init _ _ _ => true
  | .clear => false
  | .home => false
  | .gotoxy _ _ => false
  | .writeString => false
  | .level1 _ => false

/-- May a pending request be served now: when no operation is in progress; while INIT is, a caller's
request is refused at once (95_test_vectors.md V13); while an operation holds the lock no event of another
requester may stand in the trace, so it waits (43_public_operations.md R120; log 9). DESIGN CHOICE (log 11): a request
flagged internal, be its word public, waits also while INIT is in progress. -/
def mayServe (sq : Seq) (r : Request) : Bool :=
  match sq with
  | .idle => true
  | .busy _ op _ => op.isInit && !r.internal

/-- The requesters, those of `seen` apart, that can run: a requester has its requests in order, so it is its first
one that counts (00_scope.md R5, 60_exceptions.md R155). -/
def waiters (sq : Seq) (seen : List Requester) : List Request → List Requester
  | [] => []
  | r :: rest =>
    if seen.contains r.requester then waiters sq seen rest
    else
      (if mayServe sq r then [r.requester] else []) ++ waiters sq (r.requester :: seen) rest

/-- The agents that have a step, one per requester (60_exceptions.md R155): the requester of the operation in
progress, whose step is its next micro-step, and every other requester with a request that can be served. A requester
whose operation is in progress presents nothing else. -/
def agents (s : State) : List Requester :=
  match s.seq with
  | .idle => waiters s.seq [] s.pending
  | .busy c _ _ => c :: waiters s.seq [c] s.pending

/-- What happens next in one step. -/
inductive Turn where
  /-- No requester has a step: only time passes (70_reset_and_hazards.md R170). -/
  | nothing
  /-- The operation in progress goes on. -/
  | resume
  /-- A pending request is presented at the port. -/
  | serve (r : Request)
  deriving DecidableEq, Repr

/-- The scheduler's choice among the agents; a draw only where there are several (20_memory.md R61, R65; log 9). -/
def chooseAgent (s : State) : Option Requester × State :=
  match agents s with
  | [] => (none, s)
  | [c] => (some c, s)
  | c :: rest =>
    let (k, s) := s.drawPick
    ((c :: rest)[k % (rest.length + 1)]?, s)

/-- Is the operation in progress that requester's? -/
def Seq.isOf (c : Requester) : Seq → Bool
  | .idle => false
  | .busy c' _ _ => c' == c

/-- The first request of a requester, and the requests that are left. -/
def takeRequest (c : Requester) : List Request → Option (Request × List Request)
  | [] => none
  | r :: rest =>
    if r.requester = c then some (r, rest)
    else
      match takeRequest c rest with
      | some (x, left) => some (x, r :: left)
      | none => none

/-- The turn the scheduler gives, and the state with the presented request at the port. -/
def nextTurn (s : State) : Turn × State :=
  match chooseAgent s with
  | (none, s) => (.nothing, s)
  | (some c, s) =>
    if s.seq.isOf c then (.resume, s)
    else
      match takeRequest c s.pending with
      | some (r, left) => (.serve r, { s with pending := left, cur := r })
      | none => (.nothing, s)

/-- The operation in progress, if any, goes on. -/
def resumeSeq (s : State) : Host.Outcome State Fault Refusal :=
  match s.seq with
  | .idle => .next s.tick
  | .busy c op pos => resumeOp c op pos s

/-- A request at the port: its word is decoded, a word of no row is refused with ReqIllegal
(30_encoding.md R79), any other is executed. DESIGN CHOICE (logs 11, 12): so is a BUS6, BUS12 or CMD8 word of no row,
of which R79 does not speak, and the sequencer's own word of no row. -/
def serveRequest (r : Request) (s : State) : Host.Outcome State Fault Refusal :=
  match decode r.word with
  | .ok i => exec i s
  | .error _ => .next (refuseErr (.reqIllegal r.word) s)

/-- The request that presents a word of the opcode table: a public row as a caller's, an internal row as the
sequencer's; beside it the shortest text and a pin map of seven pins (log 14). -/
def tableRequest (nbits w : Nat) : Option Request :=
  match tableWord nbits w with
  | none => none
  | some fw =>
    some
      { requester := 0
        internal :=
          match decode fw with
          | .ok i => !i.isPublic
          | .error _ => false
        word := fw
        pinMap := PinMap.sample
        text := [0x00#8] }

end Sys2Proof.Machine
end

