-- ==== Sys2Proof/Machine/Step.lean ====
section
/-! DEFINITION. One step: the agent the scheduler lets run makes one micro-step of the operation in progress,
or its request is presented, decoded and executed by its first micro-step (logs 1, 9). -/

namespace Sys2Proof.Machine

/-- One step of the machine makes one micro-step (10_state.md R25, 92_eei_decisions.md D1). -/
def step (s : State) : Host.Outcome State Fault Refusal :=
  match nextTurn { s with grain := .micro } with
  | (.nothing, s) => .next s.tick
  | (.resume, s) => resumeSeq s
  | (.serve r, s) => serveRequest r s

/-- The state in which the next step serves exactly the request of a word of the opcode table: no operation
in progress and no other request pending (log 14). -/
def State.withFetchWord (s : State) (nbits w : Nat) : State :=
  match tableRequest nbits w with
  | some r => { s with seq := .idle, pending := [r] }
  | none => s

end Sys2Proof.Machine
end

