-- ==== Sys2Proof/Machine/Platform.lean ====
section
/-! DEFINITION. Several displays side by side (10_state.md R37, 20_memory.md R65): each has an engine of its
own, the requesters are one for all of them (60_exceptions.md R155), and the scheduler steps any engine. -/

namespace Sys2Proof.Machine

/-- One engine per display, and the requests that have arrived and are not served yet, each with the index of its
display, oldest first (log 24). -/
structure Platform where
  engines : List State
  queue : List (Nat × Request)
  deriving DecidableEq, Repr

/-- A request for the display at index `k` arrives (60_exceptions.md R147 (b)). -/
def Platform.submit (P : Platform) (k : Nat) (r : Request) : Platform := { P with queue := P.queue ++ [(k, r)] }

/-- The physical pins an engine has for itself: those of its handle's pin map (10_state.md R29), and before INIT's
allocation those INIT was given, so that no two INITs in progress share a pin (92_eei_decisions.md D22). DESIGN CHOICE
(logs 11, 17): the pin map beside a level 1 operation of its own does not count, not even while it runs. -/
def boundPins (s : State) : List PhysPin :=
  match s.pinMap with
  | some pm => pm.toList
  | none =>
    match s.seq with
    | .busy _ (.init _ _ pm) _ => pm.toList
    | _ => []

/-- The physical pins of every handle but the one at index `k` (92_eei_decisions.md D22). -/
def Platform.pinsBut (P : Platform) (k : Nat) : List PhysPin :=
  (P.engines.eraseIdx k).flatMap boundPins

/-- The requester whose operation is in progress. -/
def Seq.requester? : Seq → Option Requester
  | .idle => none
  | .busy c _ _ => some c

/-- The requesters whose operation is in progress, on any display. -/
def Platform.running (P : Platform) : List Requester := P.engines.filterMap fun s => s.seq.requester?

/-- The requests for display `k` that are their requester's first, those of the requesters `seen` apart. -/
def firstRequests (k : Nat) (seen : List Requester) : List (Nat × Request) → List Request
  | [] => []
  | (d, r) :: rest =>
    if seen.contains r.requester then firstRequests k seen rest
    else (if d = k then [r] else []) ++ firstRequests k (r.requester :: seen) rest

/-- The requests that display `k` may serve: one agent per requester, so a requester presents its first request alone,
and none while its operation is in progress on any display (60_exceptions.md R155). -/
def Platform.presented (P : Platform) (k : Nat) : List Request := firstRequests k P.running P.queue

/-- The queue without the first request of a requester. -/
def dropFirst (c : Requester) (queue : List (Nat × Request)) : List (Nat × Request) :=
  queue.eraseP fun e => e.2.requester == c

/-- The queue after a step: without the request that was presented and no longer waits. -/
def leftOver (presented waiting : List Request) (queue : List (Nat × Request)) : List (Nat × Request) :=
  match presented.find? fun r => !waiting.contains r with
  | some r => dropFirst r.requester queue
  | none => queue

/-- A step of the display at index `k`: its engine steps, knowing the other handles' pins and the requests it may
serve; every other engine stays as it is (20_memory.md R65). -/
def Platform.stepAt (P : Platform) (k : Nat) : Host.Outcome Platform Fault Refusal :=
  match P.engines[k]? with
  | none => .next P
  | some s =>
    match step { s with otherPins := P.pinsBut k, pending := P.presented k } with
    | .next t =>
      .next
        { engines := P.engines.set k { t with pending := [] }
          queue := leftOver (P.presented k) t.pending P.queue }
    | .fault f => .fault f
    | .refused r => .refused r

end Sys2Proof.Machine
end

