-- ==== Sys2Proof/Safety.lean ====
section
/-! DEFINITION. The terms the claims use: premises on coming answers, the event sequences the rules give,
what a trace says about the latches, time and the lock, what an operation leaves alone, and the invariant
of the machine. -/

namespace Sys2Proof.Machine

/-! ### Premises -/

/-- The GPIO layer answers ok to each of the next `n` calls. -/
abbrev GpioOk (n : Nat) (s : State) : Prop := s.env.gpio.take n = List.replicate n true

/-- The GPIO layer answers ok to the next `k` calls and err to the one after them. -/
abbrev GpioFailsAt (k : Nat) (s : State) : Prop :=
  s.env.gpio.take (k + 1) = List.replicate k true ++ [false]

/-- The strategies bound for the 4-bit mode (10_state.md R30). -/
def fourBit : DispatchTable := { writeCmd := .writeCmd, writeData := .writeData }

/-- `exec` takes an operation to its result, so that its next state is that of the instruction's whole effect (log 1). -/
abbrev RunsWhole (s : State) : Prop := s.grain = .whole

/-- A level 1 operation of the sequencer can begin and run to its result: its request is at the port and no operation
is in progress (log 11). -/
abbrev Level1Ready (s : State) : Prop := s.cur.internal = true ∧ s.seq = .idle ∧ RunsWhole s

/-- A handle on which an operation can begin now and run to its result: VALID and bound, its lock free, no
operation in progress (43_public_operations.md R120). -/
abbrev Ready (s : State) : Prop :=
  s.handle = .valid ∧ s.lock = .free ∧ s.seq = .idle ∧ s.dispatch = some fourBit ∧ RunsWhole s

/-- A display on which INIT can begin now and run to its result: no handle, no operation in progress, a geometry
code that names a geometry, the 4-bit mode, an acceptable pin map (42_init_sequence.md R110). -/
abbrev InitReady (g m : Byte) (s : State) : Prop :=
  s.handle = .none ∧ s.seq = .idle ∧ RunsWhole s ∧ (geometryOf s.cfg g).isSome = true
    ∧ m = 0x00#8 ∧ pinMapAccepted s.otherPins s.cur.pinMap = true

/-! ### The event sequences of the rules -/

/-- `N(rs, n)`, the ten events of a successful NIBBLE (00_scope.md R14). -/
def nibbleEvents (t : Nat) (rs : Bool) (n : Nibble) : List Event :=
  [.set .rs rs true, .set .rw false true, .set .d4 (n.getLsbD 0) true, .set .d5 (n.getLsbD 1) true,
    .set .d6 (n.getLsbD 2) true, .set .d7 (n.getLsbD 3) true, .set .en true true, .wait t,
    .set .en false true, .wait t]

/-- `B(rs, v)`, the twenty events of a successful byte transfer (00_scope.md R14). -/
def byteEvents (t : Nat) (rs : Bool) (v : Byte) : List Event :=
  nibbleEvents t rs (hiNibble v) ++ nibbleEvents t rs (loNibble v)

/-- The two images of a byte, the high nibble first (41_nibble_transfer.md R101). -/
def byteImages (rs : Bool) (v : Byte) : List Image :=
  [nibbleImage rs (hiNibble v), nibbleImage rs (loNibble v)]

/-- The fourteen events of a successful CONFIGURE (40_pin_configuration.md R93). -/
def configureEvents : List Event :=
  [.cfg .rs true, .cfg .rw true, .cfg .en true, .cfg .d4 true, .cfg .d5 true, .cfg .d6 true, .cfg .d7 true,
    .set .rs false true, .set .rw false true, .set .en false true, .set .d4 false true,
    .set .d5 false true, .set .d6 false true, .set .d7 false true]

/-- The events of CONFIGURE and the five commands inside INIT (42_init_sequence.md R113). -/
def initEvents (cfg : Config) : List Event :=
  configureEvents
    ++ byteEvents cfg.strobeMs false 0x02#8 ++ [.wait cfg.initMs]
    ++ byteEvents cfg.strobeMs false 0x28#8 ++ [.wait cfg.initMs]
    ++ byteEvents cfg.strobeMs false 0x06#8 ++ [.wait cfg.initMs]
    ++ byteEvents cfg.strobeMs false 0x0C#8 ++ [.wait cfg.initMs]
    ++ byteEvents cfg.strobeMs false 0x01#8 ++ [.wait cfg.initMs]

/-- The ten images of the initialisation sequence (42_init_sequence.md R113). -/
def initImages : List Image :=
  [0x00#6, 0x02#6, 0x02#6, 0x08#6, 0x00#6, 0x06#6, 0x00#6, 0x0C#6, 0x00#6, 0x01#6]

/-- The bytes of a text before its first `0x00` (43_public_operations.md R125). -/
def textBody (bs : List Byte) : List Byte := bs.takeWhile fun b => b ≠ 0x00#8

/-- The events of the loop of WRITE_STRING from index `i`: each byte read and sent, the terminator only read
(43_public_operations.md R125). -/
def stringEvents (t : Nat) (i : Nat) : List Byte → List Event
  | [] => [.rd i 0x00#8]
  | b :: bs => .rd i b :: byteEvents t true b ++ stringEvents t (i + 1) bs

/-- The events up to and including GPIO call number `k` (from 0), that call answered err: what an abort at
that call leaves of a sequence (60_exceptions.md R146). -/
def cutAt : Nat → List Event → List Event
  | _, [] => []
  | 0, .cfg p _ :: _ => [.cfg p false]
  | k + 1, .cfg p r :: rest => .cfg p r :: cutAt k rest
  | 0, .set p v _ :: _ => [.set p v false]
  | k + 1, .set p v r :: rest => .set p v r :: cutAt k rest
  | k, e :: rest => e :: cutAt k rest

/-- The cause a failed GPIO call raises (40_pin_configuration.md R90, R91). -/
def causeOf : Event → Option GpioCause
  | .cfg p false => some (.cfgFail p)
  | .set p _ false => some (.setFail p)
  | _ => none

/-- The cause of the failed call a sequence ends with. -/
def lastCause (evs : List Event) : Option GpioCause := evs.getLast?.bind causeOf

/-! ### What a trace says -/

/-- The latches after an event: only a successful set changes one (10_state.md R20). -/
def driveEvent (pins : PerPin Level) : Event → PerPin Level
  | .set p v true => pins.set p (Level.ofBool v)
  | _ => pins

/-- The latches after a sequence of events. -/
def driveAll (evs : List Event) (pins : PerPin Level) : PerPin Level := evs.foldl driveEvent pins

/-- The directions after an event: only a successful configure changes one (10_state.md R21). -/
def configEvent (dirs : PerPin Dir) : Event → PerPin Dir
  | .cfg p true => dirs.set p .outPpNoPull
  | _ => dirs

/-- The directions after a sequence of events. -/
def configAll (evs : List Event) (dirs : PerPin Dir) : PerPin Dir := evs.foldl configEvent dirs

/-- Every latch holds a known level. -/
def pinsKnown (pins : PerPin Level) : Bool := pins.toList.all fun l => l != .unknown

/-- The images at the falling edges of a sequence of events, from latches that are known (10_state.md
R31). -/
def edgeImages (pins : PerPin Level) : List Event → List Image
  | [] => []
  | e :: rest =>
    (match e with
      | .set .en false true => if pins.en = .high then [busImage 0#6 pins] else []
      | _ => [])
      ++ edgeImages (driveEvent pins e) rest

/-- The images a SET(EN,0) answered ok can add to `latched`: none where EN was low, that of the lines where it was
high (10_state.md R31), none or one of any six levels where EN was not known (93_implementation_defined.md U5). -/
def EdgeImages (pins : PerPin Level) (imgs : List Image) : Prop :=
  match pins.en with
  | .low => imgs = []
  | .high => ∃ free, imgs = [busImage free pins]
  | .unknown => imgs = [] ∨ ∃ img, imgs = [img]

/-- The images CONFIGURE can show: its SET(EN,0) comes when RS and RW have been driven low
(40_pin_configuration.md R93, R94 (d)). -/
def ConfigureImages (pins : PerPin Level) (imgs : List Image) : Prop :=
  EdgeImages { pins with rs := .low, rw := .low } imgs

/-- The call of the GPIO layer an event records, on the physical pins of a pin map (10_state.md R29). -/
def callOf (pm : PinMap) : Event → Option GpioCall
  | .cfg p ok => some { pin := pm.get p, act := .configure, ok := ok }
  | .set p v ok => some { pin := pm.get p, act := .setLevel v, ok := ok }
  | _ => none

/-- The calls of the GPIO layer a sequence of events records. -/
def callsOf (pm : PinMap) (evs : List Event) : List GpioCall := evs.filterMap (callOf pm)

/-- The milliseconds a sequence of events asked to wait (00_scope.md R13). -/
def waitedMs : List Event → Nat
  | [] => 0
  | .wait t :: rest => t + waitedMs rest
  | _ :: rest => waitedMs rest

/-- A SET(EN,0) that answered err (70_reset_and_hazards.md R173). -/
def isEnFallFailure (e : Event) : Bool := e == .set .en false false

/-- Where a handle stands in the order of 20_memory.md R65: as its lock, or between a release and the
result that follows it at once (43_public_operations.md R120). -/
inductive Guard where
  | lock (l : Lock)
  | returning (c : Requester)
  deriving DecidableEq, Repr

/-- The one event order the lock allows: before the lock exists INIT may act on the pins; once it exists
pins are acted on only while it is held, by one requester, whose release is followed at once by its result
(20_memory.md R63, R65; 43_public_operations.md R120). -/
def guardStep : Guard → Event → Option Guard
  | .lock .absent, .mkLock => some (.lock .free)
  | .lock .absent, .acq _ => none
  | .lock .absent, .rel _ => none
  | .lock .absent, .rd _ _ => none
  | .lock .absent, _ => some (.lock .absent)
  | .lock .free, .acq c => some (.lock (.held c))
  | .lock .free, .ret _ _ => some (.lock .free)
  | .lock .free, _ => none
  | .lock (.held c), .set _ _ _ => some (.lock (.held c))
  | .lock (.held c), .wait _ => some (.lock (.held c))
  | .lock (.held c), .rd _ _ => some (.lock (.held c))
  | .lock (.held c), .rel c' => if c' = c then some (.returning c) else none
  | .lock (.held _), _ => none
  | .returning c, .ret c' _ => if c' = c then some (.lock .free) else none
  | .returning _, _ => none

/-- The order a whole trace leaves; none where it breaks the order. -/
def guardAll : Guard → List Event → Option Guard
  | g, [] => some g
  | g, e :: rest =>
    match guardStep g e with
    | some g' => guardAll g' rest
    | none => none

/-- The trace obeys the lock and agrees with the lock cell. -/
def Serialised (s : State) : Prop := guardAll (.lock .absent) s.trace = some (.lock s.lock)

/-! ### Frames -/

/-- What no operation changes: the parameters, other handles' pins, the port and the grain. -/
abbrev KeepsPort (s t : State) : Prop :=
  t.cfg = s.cfg ∧ t.otherPins = s.otherPins ∧ t.pending = s.pending ∧ t.cur = s.cur ∧ t.grain = s.grain

/-- The handle and its cells as they were (10_state.md R27 to R30). -/
abbrev KeepsHandle (s t : State) : Prop :=
  t.handle = s.handle ∧ t.config = s.config ∧ t.pinMap = s.pinMap ∧ t.dispatch = s.dispatch

/-- No pin activity: latches, directions and images as they were, no call made and no GPIO answer used. -/
abbrev KeepsPins (s t : State) : Prop :=
  t.pins = s.pins ∧ t.dirs = s.dirs ∧ t.latched = s.latched ∧ t.calls = s.calls ∧ t.env.gpio = s.env.gpio

/-- A level 1 operation on its own leaves the sequencer, the lock and the TEXT space (every index of it) as they
were (41_nibble_transfer.md R100). -/
abbrev KeepsSequencer (s t : State) : Prop :=
  t.seq = s.seq ∧ t.lock = s.lock ∧ t.text = s.text

/-- A refusal appends its RET and changes nothing else of the engine (43_public_operations.md R120, R128). -/
abbrev OnlyReturns (r : Result) (s t : State) : Prop :=
  t.trace = s.trace ++ [.ret s.cur.requester r] ∧ t.result = some r ∧ KeepsPins s t ∧ KeepsHandle s t
    ∧ KeepsSequencer s t ∧ KeepsPort s t

/-- The latches after a successful NIBBLE n, rs (41_nibble_transfer.md R100). -/
def nibblePins (rs : Bool) (n : Nibble) : PerPin Level where
  rs := Level.ofBool rs
  rw := .low
  en := .low
  d4 := Level.ofBool (n.getLsbD 0)
  d5 := Level.ofBool (n.getLsbD 1)
  d6 := Level.ofBool (n.getLsbD 2)
  d7 := Level.ofBool (n.getLsbD 3)

/-! ### The invariant -/

/-- The configuration exists, its mode is 4-bit and its geometry is named (10_state.md R28). -/
def ConfigOk (s : State) : Prop :=
  ∃ g, s.config = some { geometry := g, mode := .bit4 } ∧ (geometryOf s.cfg g).isSome = true

/-- The cells of the handle agree with `HANDLE` (10_state.md R27 to R32, R35). -/
def HandleInv (s : State) : Prop :=
  match s.handle with
  | .none => s.config = none ∧ s.pinMap = none ∧ s.dispatch = none ∧ s.lock = .absent
  | .building => ConfigOk s ∧ s.pinMap.isSome = true
  | .valid => ConfigOk s ∧ s.pinMap.isSome = true ∧ s.dispatch = some fourBit ∧ s.lock ≠ .absent

/-- What has happened at a position of INIT (42_init_sequence.md R110). -/
def InitAt (s : State) (pos : Pos) : Prop :=
  match pos.phase with
  | .check => s.handle = .none
  | .alloc => s.handle = .none
  | .bind => s.handle = .building ∧ s.lock = .absent
  | .cfg _ => s.handle = .building ∧ s.dispatch = some fourBit ∧ s.lock = .absent
  | .low _ => s.handle = .building ∧ s.dispatch = some fourBit ∧ s.lock = .absent
  | .initCmd _ => s.handle = .building ∧ s.dispatch = some fourBit ∧ s.lock = .absent
  | .initSettle _ => s.handle = .building ∧ s.dispatch = some fourBit ∧ s.lock = .absent
  | .mkLock => s.handle = .building ∧ s.dispatch = some fourBit ∧ s.lock = .absent
  | .done => s.handle = .building ∧ s.dispatch = some fourBit ∧ s.lock = .free
  | .abort _ => s.handle = .none ∨ (s.handle = .building ∧ s.lock = .absent)
  | _ => False

/-- A position of an operation is one of its micro-steps, or its abort path, which transfers no byte (10_state.md R24,
R25). -/
def PosOk (c : Requester) (op : Op) (s : State) (pos : Pos) : Prop :=
  (∃ f, pos = Pos.plain (.abort f)) ∨ ∃ code, opCode c op s = some code ∧ pos ∈ code.map Prod.fst

/-- The sequencer agrees with the handle, the lock and the TEXT space (10_state.md R24, R26;
20_memory.md R52, R63). -/
def SeqInv (s : State) : Prop :=
  match s.seq with
  | .idle =>
    s.text = [] ∧ s.handle ≠ .building
      ∧ (s.cfg.lockReleaseOnError = true → s.lock = .absent ∨ s.lock = .free)
  | .busy c (.init g m pm) pos =>
    s.text = [] ∧ m = 0x00#8 ∧ (geometryOf s.cfg g).isSome = true ∧ InitAt s pos
      ∧ PosOk c (.init g m pm) s pos
  | .busy c (.level1 x) pos =>
    s.text = [] ∧ s.handle ≠ .building
      ∧ (s.cfg.lockReleaseOnError = true → s.lock = .absent ∨ s.lock = .free)
      ∧ PosOk c (.level1 x) s pos
  | .busy c op pos =>
    s.handle = .valid ∧ s.lock = .held c ∧ (op ≠ .writeString → s.text = []) ∧ PosOk c op s pos

/-- The invariant of the machine: the handle's cells, the sequencer, the TEXT space's canonical form, and RW
never high (10_state.md R20). -/
def Inv (s : State) : Prop :=
  HandleInv s ∧ SeqInv s ∧ Memory.wf s.text = true ∧ s.pins.rw ≠ .high

/-- Every waiting request is a caller's, and no level 1 operation is in progress on its own (00_scope.md R5: level 1
operations are invoked only by level 2 operations). -/
def CallersOnly (s : State) : Prop :=
  (∀ r ∈ s.pending, r.internal = false) ∧ ∀ c x pos, s.seq ≠ .busy c (.level1 x) pos

/-- EN is high exactly between the two strobe calls of a nibble, the micro-steps 7 and 8 of 10_state.md R24
(41_nibble_transfer.md R100, 70_reset_and_hazards.md R173); elsewhere it is low, or not yet driven. -/
def EnFollows (s : State) : Prop :=
  match s.seq with
  | .idle => s.pins.en ≠ .high
  | .busy _ _ pos => if pos.nstep = 7 ∨ pos.nstep = 8 then s.pins.en = .high else s.pins.en ≠ .high

/-- The displays of a platform are apart: each engine meets the invariant, and no two have a physical pin in common
(92_eei_decisions.md D22). -/
def Platform.Apart (P : Platform) : Prop :=
  (∀ s ∈ P.engines, Inv s)
    ∧ ∀ (i j : Nat) (a b : State), i ≠ j → P.engines[i]? = some a → P.engines[j]? = some b →
        ∀ p ∈ boundPins a, p ∉ boundPins b

/-- No requester has operations in progress on two displays (60_exceptions.md R155). -/
def Platform.OneAgentEach (P : Platform) : Prop :=
  ∀ (i j : Nat) (a b : State) (c : Requester), i ≠ j → P.engines[i]? = some a → P.engines[j]? = some b →
    a.seq.requester? = some c → b.seq.requester? ≠ some c

end Sys2Proof.Machine
end

