-- ==== Sys2Proof/Certificates/Slice0/Obligations.lean ====
section
/-! DEFINITION. The statements for the provers. Each docstring names the rule of spec/ it formalises. -/

open Sys2Proof Sys2Proof.Machine

/-! ### Encoding -/

/-- 30_encoding.md R72, R74, R76, R77: words of the tables and the instructions they stand for. -/
def Obligations.DecodesTheSpecsWords : Prop :=
  decode (.req20 0x10000#20) = .ok (.init 0x00#8 0x00#8)
    ∧ decode (.req20 0x40F01#20) = .ok (.gotoxy 0x0F#8 0x01#8)
    ∧ decode (.req20 0x9010F#20) = .ok (.nibble true 0xF#4)
    ∧ decode (.req20 0xB0041#20) = .ok (.writeData 0x41#8)
    ∧ decode (.bus6 0x2A#6) = .ok (.busDataNibble 0xA#4)
    ∧ decode (.bus12 0b000010001000#12) = .ok (.busWriteCmd 0x2#4 0x8#4)
    ∧ decode (.cmd8 0xC0#8) = .ok (.cmdSetDdramAddr 0x40#7)

/-- 30_encoding.md R72 to R78: no bit of an encoding is dropped. -/
def Obligations.EncodeThenDecodeGivesTheInstruction : Prop :=
  ∀ i : Instr, i.WellFormed = true → decode (encode i) = .ok i

/-- 30_encoding.md R72 to R78: a word that decodes is the word of what it decodes to. -/
def Obligations.DecodedWordsHaveOneEncoding : Prop :=
  ∀ (w : FormatWord) (i : Instr), decode w = .ok i → encode i = w

/-- 30_encoding.md R72: the nine rows are disjoint, and the decoder answers by them: a word decodes exactly when a row
selects it, to that row's instruction. -/
def Obligations.RequestRowsAreDisjoint : Prop :=
  ∀ w : BitVec 20,
    (reqRows.filter fun row => row.selects w).length ≤ 1
      ∧ ∀ i, decode (.req20 w) = .ok i ↔ ∃ row ∈ reqRows, row.selects w = true ∧ i = row.instr w

/-- 30_encoding.md R79: which request words match no row. -/
def Obligations.IllegalRequestWords : Prop :=
  ∀ w : BitVec 20,
    (∀ i, decode (.req20 w) ≠ .ok i) ↔
      (reqOp w ∈ [0x0#4, 0x6#4, 0x7#4, 0xC#4, 0xD#4, 0xE#4, 0xF#4]
        ∨ (reqOp w ∈ [0x2#4, 0x3#4, 0x5#4, 0x8#4] ∧ (reqA w ≠ 0#8 ∨ reqB w ≠ 0#8))
        ∨ (reqOp w = 0x9#4
            ∧ ((reqA w).extractLsb' 1 7 ≠ 0#7 ∨ (reqB w).extractLsb' 4 4 ≠ 0#4))
        ∨ (reqOp w ∈ [0xA#4, 0xB#4] ∧ reqA w ≠ 0#8))

/-! ### The step and the port -/

/-- The only pending request, its word that of an instruction: the step puts it at the port and is exec of that
instruction, by one micro-step (10_state.md R25; logs 1, 9). -/
def Obligations.StepRunsTheDecodedInstruction : Prop :=
  ∀ (s : State) (r : Request) (i : Instr),
    s.seq = .idle → s.pending = [r] → decode r.word = .ok i → i.WellFormed = true →
      step s = exec i { s with pending := [], cur := r, grain := .micro }

/-- 30_encoding.md R79: a REQ20 word of no row is refused in one step that appends only its RET. That a BUS6, BUS12 or
CMD8 word of no row is refused in the same way is the model's choice (log 12), and so is that the sequencer's own word of
no row is (log 11). -/
def Obligations.IllegalWordIsRefused : Prop :=
  ∀ (s : State) (r : Request) (e : DecodeReject),
    s.seq = .idle → s.pending = [r] → decode r.word = .error e →
      ∃ t, step s = .next t
        ∧ OnlyReturns (.err (.reqIllegal r.word)) { s with pending := [], cur := r, grain := .micro } t

/-- 30_encoding.md R79, 60_exceptions.md R152: a caller's CONFIGURE, NIBBLE, WRITE_CMD or WRITE_DATA is illegal at the
public port. That the BUS6, BUS12 and CMD8 rows are refused to a caller in the same way is the model's choice (log 12),
and so is the flag that tells a caller's request from the sequencer's (log 11). -/
def Obligations.InternalWordsAreRefusedAtThePublicPort : Prop :=
  ∀ (s : State) (i : Instr), i.isPublic = false → s.cur.internal = false →
    ∃ t, exec i s = .next t ∧ OnlyReturns (.err (.reqIllegal s.cur.word)) s t

/-- 20_memory.md R61, R65 (92_eei_decisions.md D16): of two requesters that wait either may be served first, as the
scheduler picks (the model's reading: log 9). -/
def Obligations.EitherWaiterMayBeServed : Prop :=
  ∀ (s : State) (a b : Request) (k : Nat) (ks : List Nat),
    s.seq = .idle → s.pending = [a, b] → a.requester ≠ b.requester → s.env.pick = k :: ks →
      step s =
        serveRequest (if k % 2 = 0 then a else b)
          { s with
            pending := [if k % 2 = 0 then b else a]
            cur := if k % 2 = 0 then a else b
            grain := .micro
            env := { s.env with pick := ks } }

/-- 60_exceptions.md R155, 00_scope.md R5: one agent per requester: a request is served only while its requester has no
operation in progress, and before every later request of the same requester (the model's form: log 9). -/
def Obligations.OneRequesterIsServedInOrder : Prop :=
  ∀ (s u : State) (r : Request), nextTurn s = (.serve r, u) →
    u.cur = r ∧ (∀ op pos, s.seq ≠ .busy r.requester op pos)
      ∧ ∃ before later, s.pending = before ++ r :: later ∧ u.pending = before ++ later
          ∧ ∀ x ∈ before, x.requester ≠ r.requester

/-- 43_public_operations.md R120: while an operation holds the lock no event of another requester stands in the trace.
The model's form (log 9): no other request is taken then, not even to be refused; the step goes on with the operation,
whatever is pending. -/
def Obligations.NoRequestIsServedDuringALockedOperation : Prop :=
  ∀ (s : State) (c : Requester) (op : Op) (pos : Pos),
    s.seq = .busy c op pos → op.isInit = false → step s = resumeOp c op pos { s with grain := .micro }

/-- 10_state.md R25 (92_eei_decisions.md D1): with no other request that could be served, a step of an operation in
progress makes exactly the micro-step at its position: `seq` goes to the position after it, to IDLE after the last, to
the abort path where it failed; and from the abort path to IDLE. Which requests could be served (`waiters`) is the
model's form (log 9). That the abort is a step of its own is the model's reading (log 22). -/
def Obligations.OneMicroStepAdvancesTheSequencer : Prop :=
  (∀ (s : State) (c : Requester) (op : Op) (pos : Pos) (m : Micro) (code rest : Code),
      s.seq = .busy c op pos → waiters s.seq [c] s.pending = [] → (∀ f, pos.phase ≠ .abort f) →
        opCode c op s = some code → codeFrom pos code = (pos, m) :: rest →
          step s =
            .next
              (match m.act { s with grain := .micro }, rest with
                | (t, none), [] => finishOp op t
                | (t, none), (q, _) :: _ => { t with seq := .busy c op q }
                | (t, some f), _ => { t with seq := .busy c op (Pos.plain (.abort (f.seenFrom pos.phase))) }))
    ∧ ∀ (s : State) (c : Requester) (op : Op) (pos : Pos) (f : Cause),
        s.seq = .busy c op pos → waiters s.seq [c] s.pending = [] → pos.phase = .abort f →
          step s = .next (abortOp c op f { s with grain := .micro })
            ∧ (abortOp c op f { s with grain := .micro }).seq = .idle

/-- What the trace shows of one step: no event, one, or a release (43_public_operations.md R120) or a teardown
(42_init_sequence.md R112) with the result that follows it. -/
def StepEvents (evs : List Event) : Prop :=
  evs.length ≤ 1 ∨ ∃ c r, evs = [.rel c, .ret c r] ∨ evs = [.free, .ret c r]

/-- 10_state.md R25 (92_eei_decisions.md D1): what a step can show, whatever the state: at most one event, or a REL or
FREE with the RET that follows it, and at most one call of the GPIO layer, whose event is then the only one. -/
def Obligations.AStepMakesAtMostOneCall : Prop :=
  ∀ s t : State, step s = .next t →
    ∃ evs, t.trace = s.trace ++ evs ∧ StepEvents evs
      ∧ ∃ calls, t.calls = s.calls ++ calls ∧ calls.length ≤ 1 ∧ (calls ≠ [] → evs.length = 1)

/-- 10_state.md R25, 60_exceptions.md R147 (a): where exec takes the one pending request's instruction whole to a next
state, as the statements of the instructions' effects do, the steps of the machine, one micro-step each, come to that
state (the two grains are the model's form: log 1). -/
def Obligations.StepsComeToTheWholeEffect : Prop :=
  ∀ (s u : State) (r : Request) (i : Instr),
    s.seq = .idle → s.pending = [r] → decode r.word = .ok i →
      exec i { s with pending := [], cur := r, grain := .whole } = .next u →
        ∃ k, Sys2Proof.core.run (k + 1) s = .next { u with grain := .micro }

/-- 10_state.md R37, 20_memory.md R65: a step of one display leaves every other display's engine as it was. -/
def Obligations.DisplaysAreIndependent : Prop :=
  ∀ (P Q : Platform) (k j : Nat), P.stepAt k = .next Q → j ≠ k → Q.engines[j]? = P.engines[j]?

/-- 60_exceptions.md R155: over all displays, a step takes from the queue nothing, or one request for its own display
to its port: the first of its requester, no operation of which is in progress on any display (the queue is the model's
form: logs 9, 24). -/
def Obligations.APlatformServesEachRequesterInOrder : Prop :=
  ∀ (P Q : Platform) (k : Nat), P.stepAt k = .next Q →
    Q.queue = P.queue
      ∨ ∃ before r later t, P.queue = before ++ (k, r) :: later ∧ Q.queue = before ++ later
          ∧ (∀ e ∈ before, e.2.requester ≠ r.requester)
          ∧ (∀ s ∈ P.engines, ∀ op pos, s.seq ≠ .busy r.requester op pos)
          ∧ Q.engines[k]? = some t ∧ t.cur = r

/-- 60_exceptions.md R155: one agent per requester: no step of any display gives a requester operations in progress on
two displays (the form: log 24). -/
def Obligations.NoRequesterRunsOnTwoDisplays : Prop :=
  ∀ (P Q : Platform) (k : Nat), P.OneAgentEach → P.stepAt k = .next Q → Q.OneAgentEach

/-! ### Reset -/

/-- 70_reset_and_hazards.md R170: the reset state, in which nothing runs until INIT is requested. That a step from it
answers a next state, in which no event is made and every cell is as it was, is the model's form (log 27), and so is the
reset value of the result field, which that step keeps (log 25). -/
def Obligations.ResetIsTheStateBeforeInit : Prop :=
  State.reset.handle = .none ∧ State.reset.lock = .absent ∧ State.reset.config = none
    ∧ State.reset.pinMap = none ∧ State.reset.dispatch = none ∧ State.reset.seq = .idle
    ∧ (∀ p, State.reset.dirs.get p = .unconfigured) ∧ (∀ p, State.reset.pins.get p = .unknown)
    ∧ State.reset.latched = [] ∧ State.reset.trace = []
    ∧ ∃ t, step State.reset = .next t ∧ t.trace = [] ∧ t.result = State.reset.result ∧ KeepsPins State.reset t
        ∧ KeepsHandle State.reset t ∧ KeepsSequencer State.reset t

/-! ### The external primitives and the lock -/

/-- What a primitive leaves alone: everything but the pins, the directions, the images, the calls, the trace and
time. -/
def OnlyPins (s t : State) : Prop :=
  KeepsHandle s t ∧ KeepsSequencer s t ∧ KeepsPort s t ∧ t.result = s.result

/-- 40_pin_configuration.md R90: one configure call with answer `r`; where PINMAP exists it is made on the role's physical
pin PINMAP[p] (10_state.md R29). -/
def Obligations.GpioCfgIsOneCall : Prop :=
  ∀ (s : State) (p : Role) (r : Bool) (rest : List Bool), s.env.gpio = r :: rest →
    ∃ t, gpioCfg p s = (t, if r then none else some (.gpio (.cfgFail p)))
      ∧ t.trace = s.trace ++ [.cfg p r]
      ∧ (∀ pm, s.pinMap = some pm → t.calls = s.calls ++ [{ pin := pm.get p, act := .configure, ok := r }])
      ∧ t.dirs = (if r then s.dirs.set p .outPpNoPull else s.dirs)
      ∧ t.pins = s.pins ∧ t.latched = s.latched ∧ t.env.gpio = rest ∧ OnlyPins s t

/-- 40_pin_configuration.md R91: one set call with answer `r`, where PINMAP exists on the role's physical pin PINMAP[p]
(10_state.md R29); the latch changes on success only, and a success that takes EN from 1 to 0 appends the image of the
six lines. With EN not yet driven a SET(EN,0) appends nothing or one image (93_implementation_defined.md U5). -/
def Obligations.GpioSetIsOneCall : Prop :=
  ∀ (s : State) (p : Role) (v r : Bool) (rest : List Bool), s.env.gpio = r :: rest →
    ∃ t imgs, gpioSet p v s = (t, if r then none else some (.gpio (.setFail p)))
      ∧ t.trace = s.trace ++ [.set p v r]
      ∧ (∀ pm, s.pinMap = some pm → t.calls = s.calls ++ [{ pin := pm.get p, act := .setLevel v, ok := r }])
      ∧ t.pins = (if r then s.pins.set p (Level.ofBool v) else s.pins)
      ∧ t.latched = s.latched ++ imgs
      ∧ (if r = true ∧ p = .en ∧ v = false then EdgeImages s.pins imgs else imgs = [])
      ∧ t.dirs = s.dirs ∧ t.env.gpio = rest ∧ OnlyPins s t

/-- The model's choice (log 11), not the spec's: where no PINMAP exists a call is made on the physical pin of the pin map
beside the request. -/
def Obligations.CallsWithoutAPinMapUseTheRequests : Prop :=
  ∀ (s : State) (p : Role) (v r : Bool) (rest : List Bool), s.pinMap = none → s.env.gpio = r :: rest →
    (gpioCfg p s).1.calls = s.calls ++ [{ pin := s.cur.pinMap.get p, act := .configure, ok := r }]
      ∧ (gpioSet p v s).1.calls = s.calls ++ [{ pin := s.cur.pinMap.get p, act := .setLevel v, ok := r }]

/-- 40_pin_configuration.md R92: a sleep of `ms`: at least `ms` milliseconds pass; it cannot fail, changes no pin and
does not release the lock. -/
def Obligations.SleepLastsAtLeastItsTime : Prop :=
  ∀ (s : State) (ms : Nat),
    ∃ t, (Micro.sleep ms).act s = (t, none) ∧ t.trace = s.trace ++ [.wait ms] ∧ s.now + ms ≤ t.now
      ∧ KeepsPins s t ∧ OnlyPins s t

/-- 20_memory.md R61, R62: the lock is acquired by one atomic step enabled only when it is free, and released by its
holder. -/
def Obligations.LockAcquireAndRelease : Prop :=
  ∀ (s : State) (c : Requester),
    (s.lock = .free → lockAcquire c s = some { s with lock := .held c, trace := s.trace ++ [.acq c] })
      ∧ (s.lock ≠ .free → lockAcquire c s = none)
      ∧ (s.lock = .held c → lockRelease c s = { s with lock := .free, trace := s.trace ++ [.rel c] })

/-! ### Level 1 operations -/

/-- What holds after a successful NIBBLE n, rs on its own (41_nibble_transfer.md R100); its calls on the pin map in use,
which is PINMAP, or the request's where none exists (log 11). -/
def NibbleSent (rs : Bool) (n : Nibble) (s t : State) : Prop :=
  t.trace = s.trace ++ nibbleEvents s.cfg.strobeMs rs n
    ∧ t.calls = s.calls ++ callsOf s.pinMapInUse (nibbleEvents s.cfg.strobeMs rs n)
    ∧ t.latched = s.latched ++ [BitVec.ofBool rs ++ 0#1 ++ n]
    ∧ t.pins = nibblePins rs n ∧ s.now + 2 * s.cfg.strobeMs ≤ t.now
    ∧ t.result = some .ok ∧ t.env.gpio = s.env.gpio.drop 8
    ∧ t.dirs = s.dirs ∧ KeepsHandle s t ∧ KeepsSequencer s t ∧ KeepsPort s t

/-- What holds after a level 1 operation on its own whose SET calls and waits `evs` end with a failed call
(41_nibble_transfer.md R101, R104; 60_exceptions.md R146): the calls before it took effect, and nothing is undone. -/
def TransferAborted (evs : List Event) (imgs : List Image) (s t : State) : Prop :=
  ∃ f, lastCause evs = some f
    ∧ t.trace = s.trace ++ evs
    ∧ t.calls = s.calls ++ callsOf s.pinMapInUse evs
    ∧ t.latched = s.latched ++ imgs
    ∧ t.pins = driveAll evs s.pins ∧ s.now + waitedMs evs ≤ t.now
    ∧ t.result = some (.err (.gpio f))
    ∧ t.dirs = s.dirs ∧ KeepsHandle s t ∧ KeepsSequencer s t ∧ KeepsPort s t

/-- A row that runs NIBBLE n, rs: with every call ok, and GPIO call `k` being the first to fail. -/
def NibbleRule (i : Instr) (rs : Bool) (n : Nibble) : Prop :=
  (∀ s : State, Level1Ready s → GpioOk 8 s → ∃ t, exec i s = .next t ∧ NibbleSent rs n s t)
    ∧ (∀ (s : State) (k : Nat), Level1Ready s → k < 8 → GpioFailsAt k s →
        ∃ t, exec i s = .next t ∧ TransferAborted (cutAt k (nibbleEvents s.cfg.strobeMs rs n)) [] s t
          ∧ t.pins.en = (if k = 7 then .high else s.pins.en))

/-- 41_nibble_transfer.md R100, R104: the encoding of NIBBLE n, rs; with every call ok its ten events, its one image
and its end state; and, GPIO call `k` being the first to fail, the row of R104's table: the calls before it took
effect, it and the later ones took none, this nibble latched nothing, and EN is left high only by the last call. That
NIBBLE is a request of its own, and its pins where no PINMAP exists, are the model's choice (log 11). -/
def Obligations.NibbleDrivesStrobesAndLatches : Prop :=
  ∀ (rs : Bool) (n : Nibble),
    decode (.req20 (0x9#4 ++ (0#7 ++ BitVec.ofBool rs) ++ (0#4 ++ n))) = .ok (.nibble rs n)
      ∧ NibbleRule (.nibble rs n) rs n

/-- The register-select level and the byte of the two byte transfers (41_nibble_transfer.md R102, R103). -/
def byteTransfer : Instr → Option (Bool × Byte)
  | .writeCmd v => some (false, v)
  | .writeData v => some (true, v)
  | _ => none

/-- What holds after a successful byte transfer of `v` at level `rs` on its own (41_nibble_transfer.md R101); its calls
as in `NibbleSent`. -/
def ByteSent (rs : Bool) (v : Byte) (s t : State) : Prop :=
  t.trace = s.trace ++ byteEvents s.cfg.strobeMs rs v
    ∧ t.calls = s.calls ++ callsOf s.pinMapInUse (byteEvents s.cfg.strobeMs rs v)
    ∧ t.latched = s.latched ++ [BitVec.ofBool rs ++ 0#1 ++ v.extractLsb' 4 4,
        BitVec.ofBool rs ++ 0#1 ++ v.extractLsb' 0 4]
    ∧ t.pins = nibblePins rs (v.extractLsb' 0 4) ∧ s.now + 4 * s.cfg.strobeMs ≤ t.now
    ∧ t.result = some .ok ∧ t.env.gpio = s.env.gpio.drop 16
    ∧ t.dirs = s.dirs ∧ KeepsHandle s t ∧ KeepsSequencer s t ∧ KeepsPort s t

/-- A row that runs the byte transfer of `v` at level `rs`: with every call ok, and GPIO call `k` being the first to fail,
the high nibble latched exactly when it was completed. -/
def ByteRule (i : Instr) (rs : Bool) (v : Byte) : Prop :=
  (∀ s : State, Level1Ready s → GpioOk 16 s → ∃ t, exec i s = .next t ∧ ByteSent rs v s t)
    ∧ (∀ (s : State) (k : Nat), Level1Ready s → k < 16 → GpioFailsAt k s →
        ∃ t, exec i s = .next t
          ∧ TransferAborted (cutAt k (byteEvents s.cfg.strobeMs rs v))
              (if k < 8 then [] else [BitVec.ofBool rs ++ 0#1 ++ v.extractLsb' 4 4]) s t)

/-- 41_nibble_transfer.md R101, R102, R103, for WRITE_CMD v and WRITE_DATA v: with every call ok the high nibble, then the
low one; aborted at GPIO call `k`, nothing is undone, the later calls are not made, and the high nibble is latched
exactly when it was completed. That each is a request of its own, and its pins where no PINMAP exists, are the model's
choice (log 11). -/
def Obligations.ByteTransferSendsHighNibbleFirst : Prop :=
  ∀ (i : Instr) (rs : Bool) (v : Byte), byteTransfer i = some (rs, v) → ByteRule i rs v

/-- The level and the nibble of the two BUS6 rows (30_encoding.md R74). -/
def busNibble : Instr → Option (Bool × Nibble)
  | .busCmdNibble n => some (false, n)
  | .busDataNibble n => some (true, n)
  | _ => none

/-- 30_encoding.md R74 with the model's reading of the BUS6 rows (log 12): each puts exactly its image on the wire, or is
aborted, as NIBBLE is, as a request of its own on the pins in use (log 11). -/
def Obligations.BusNibbleRowsShowTheirImage : Prop :=
  ∀ (i : Instr) (rs : Bool) (n : Nibble), busNibble i = some (rs, n) → NibbleRule i rs n

/-- The level and the byte of the BUS12 and CMD8 rows (30_encoding.md R76, R77, R78). -/
def wireByte : Instr → Option (Bool × Byte)
  | .busWriteCmd h l => some (false, h ++ l)
  | .busWriteData h l => some (true, h ++ l)
  | .cmdClearDisplay => some (false, 0x01#8)
  | .cmdReturnHome => some (false, 0x02#8)
  | .cmdEntryModeSet => some (false, 0x06#8)
  | .cmdDisplayOn => some (false, 0x0C#8)
  | .cmdFunctionSet => some (false, 0x28#8)
  | .cmdSetDdramAddr addr => some (false, 0b1#1 ++ addr)
  | _ => none

/-- 30_encoding.md R76, R77, R78, R83 with the model's reading of the BUS12 and CMD8 rows (log 12): each is the transfer of
its byte, or is aborted, as WRITE_CMD and WRITE_DATA are, as a request of its own on the pins in use (log 11). The `0b1` of
CMD.SET_DDRAM_ADDR's byte is PRESUMED (log 20). -/
def Obligations.WireAndCommandRowsSendTheirByte : Prop :=
  ∀ (i : Instr) (rs : Bool) (v : Byte), wireByte i = some (rs, v) → ByteRule i rs v

/-- 40_pin_configuration.md R93, R94: the encoding of CONFIGURE; with every call ok its fourteen events and its end
state, where `SET(EN,0)` shows no image when EN was low, the one of the lines at that moment when EN was high, and none or
one when EN was not yet driven (93_implementation_defined.md U5); and, call `k` being the first to fail, the calls before
it stay in effect, it and the later ones have none. That CONFIGURE is a request of its own, and its pins where no PINMAP
exists, are the model's choice (log 11). -/
def Obligations.ConfigureProgramsAndLowersAllSevenPins : Prop :=
  decode (.req20 0x80000#20) = .ok .configure ∧ Instr.configure.isPublic = false
    ∧ (∀ s : State, Level1Ready s → GpioOk 14 s →
        ∃ t spurious, exec .configure s = .next t
          ∧ t.trace = s.trace ++ configureEvents
          ∧ t.calls = s.calls ++ callsOf s.pinMapInUse configureEvents
          ∧ (∀ p, t.dirs.get p = .outPpNoPull) ∧ (∀ p, t.pins.get p = .low)
          ∧ t.result = some .ok ∧ t.env.gpio = s.env.gpio.drop 14
          ∧ t.latched = s.latched ++ spurious ∧ ConfigureImages s.pins spurious
          ∧ KeepsHandle s t ∧ KeepsSequencer s t ∧ KeepsPort s t)
    ∧ (∀ (s : State) (k : Nat), Level1Ready s → k < 14 → GpioFailsAt k s →
        ∃ t f spurious, exec .configure s = .next t
          ∧ t.trace = s.trace ++ cutAt k configureEvents
          ∧ t.calls = s.calls ++ callsOf s.pinMapInUse (cutAt k configureEvents)
          ∧ lastCause (cutAt k configureEvents) = some f ∧ t.result = some (.err (.gpio f))
          ∧ t.pins = driveAll (cutAt k configureEvents) s.pins
          ∧ t.dirs = configAll (cutAt k configureEvents) s.dirs
          ∧ t.latched = s.latched ++ spurious
          ∧ (if k ≤ 9 then spurious = [] else ConfigureImages s.pins spurious)
          ∧ KeepsHandle s t ∧ KeepsSequencer s t ∧ KeepsPort s t)

/-! ### INIT -/

/-- 42_init_sequence.md R110, R113: a successful INIT, run whole (log 1). -/
def Obligations.InitRunsTheWholeSequence : Prop :=
  ∀ (s : State) (g m : Byte) (rest : List Bool),
    InitReady g m s → s.cfg.lockCreateOk = true → s.env.alloc = true :: rest → GpioOk 94 s →
      ∃ t spurious, exec (.init g m) s = .next t
        ∧ t.trace = s.trace ++ [.alloc true] ++ initEvents s.cfg
            ++ [.mkLock, .ret s.cur.requester .handle]
        ∧ t.calls = s.calls ++ callsOf s.cur.pinMap (initEvents s.cfg)
        ∧ t.latched = s.latched ++ spurious ++ initImages
        ∧ ConfigureImages s.pins spurious
        ∧ t.pins = { rs := .low, rw := .low, en := .low, d4 := .high, d5 := .low, d6 := .low, d7 := .low }
        ∧ (∀ p, t.dirs.get p = .outPpNoPull)
        ∧ s.now + 5 * (4 * s.cfg.strobeMs + s.cfg.initMs) ≤ t.now
        ∧ t.handle = .valid ∧ t.lock = .free ∧ t.seq = .idle
        ∧ t.config = some { geometry := g, mode := .bit4 } ∧ t.pinMap = some s.cur.pinMap
        ∧ t.dispatch = some fourBit ∧ t.result = some .handle ∧ KeepsPort s t

/-- 42_init_sequence.md R115, R112: INIT aborted at any of its 94 GPIO calls: torn down, null returned, nothing
later sent, nothing undone. -/
def Obligations.InitFailsAtAnyGpioCall : Prop :=
  ∀ (s : State) (g m : Byte) (rest : List Bool) (k : Nat),
    InitReady g m s → s.env.alloc = true :: rest → k < 94 → GpioFailsAt k s →
      ∃ t f spurious, exec (.init g m) s = .next t
        ∧ lastCause (cutAt k (initEvents s.cfg)) = some f
        ∧ t.result = some (.null (if k < 14 then .gpio f else .initProtocol ((k - 14) / 16) f))
        ∧ t.trace = s.trace ++ [.alloc true] ++ cutAt k (initEvents s.cfg)
            ++ [.free,
              .ret s.cur.requester
                (.null (if k < 14 then .gpio f else .initProtocol ((k - 14) / 16) f))]
        ∧ t.calls = s.calls ++ callsOf s.cur.pinMap (cutAt k (initEvents s.cfg))
        ∧ t.pins = driveAll (cutAt k (initEvents s.cfg)) s.pins
        ∧ t.dirs = configAll (cutAt k (initEvents s.cfg)) s.dirs
        ∧ t.latched = s.latched ++ spurious ++ initImages.take ((k - 14) / 8)
        ∧ (if k ≤ 9 then spurious = [] else ConfigureImages s.pins spurious)
        ∧ t.handle = .none ∧ t.config = none ∧ t.pinMap = none ∧ t.dispatch = none
        ∧ t.lock = .absent ∧ t.seq = .idle ∧ KeepsPort s t

/-- 42_init_sequence.md R114: INIT with a mode other than 4-bit fails before anything else. -/
def Obligations.InitWithAnotherModeFailsFirst : Prop :=
  ∀ (s : State) (g m : Byte), (geometryOf s.cfg g).isSome = true → m ≠ 0x00#8 →
    ∃ t, exec (.init g m) s = .next t ∧ OnlyReturns (.null (.modeUnimplemented m)) s t

/-- 30_encoding.md R79: an INIT word whose geometry code names none is refused. -/
def Obligations.InitWithUnknownGeometryIsRefused : Prop :=
  ∀ (s : State) (g m : Byte), g ≠ 0x00#8 → s.cfg.geometryTable.lookup g = none →
    ∃ t, exec (.init g m) s = .next t ∧ OnlyReturns (.null (.reqIllegal s.cur.word)) s t

/-- 42_init_sequence.md R115: the allocation answers err. -/
def Obligations.InitWithoutStorageFails : Prop :=
  ∀ (s : State) (g m : Byte) (rest : List Bool), InitReady g m s → s.env.alloc = false :: rest →
    ∃ t, exec (.init g m) s = .next t
      ∧ t.trace = s.trace ++ [.alloc false, .ret s.cur.requester (.null .allocFail)]
      ∧ t.result = some (.null .allocFail)
      ∧ KeepsPins s t ∧ KeepsHandle s t ∧ t.lock = s.lock ∧ t.seq = .idle ∧ KeepsPort s t

/-- 42_init_sequence.md R115, last row, R112: the lock cannot be created: everything INIT built is torn down, the pins,
directions and images keep what was done. -/
def Obligations.InitWithoutLockIsTornDown : Prop :=
  ∀ (s : State) (g m : Byte) (rest : List Bool),
    InitReady g m s → s.cfg.lockCreateOk = false → s.env.alloc = true :: rest → GpioOk 94 s →
      ∃ t spurious, exec (.init g m) s = .next t
        ∧ t.trace = s.trace ++ [.alloc true] ++ initEvents s.cfg
            ++ [.free, .ret s.cur.requester (.null .allocFail)]
        ∧ t.calls = s.calls ++ callsOf s.cur.pinMap (initEvents s.cfg)
        ∧ t.latched = s.latched ++ spurious ++ initImages ∧ ConfigureImages s.pins spurious
        ∧ t.pins = { rs := .low, rw := .low, en := .low, d4 := .high, d5 := .low, d6 := .low, d7 := .low }
        ∧ (∀ p, t.dirs.get p = .outPpNoPull)
        ∧ s.now + 5 * (4 * s.cfg.strobeMs + s.cfg.initMs) ≤ t.now
        ∧ t.handle = .none ∧ t.config = none ∧ t.pinMap = none ∧ t.dispatch = none
        ∧ t.lock = .absent ∧ t.seq = .idle ∧ t.text = [] ∧ t.result = some (.null .allocFail) ∧ KeepsPort s t

/-- The launch premises of 93_implementation_defined.md U7 (log 16): a second INIT, and a pin map that repeats or
overlaps, have no meaning. -/
def Obligations.InitOutsideItsPremisesIsRefused : Prop :=
  ∀ (s : State) (g : Byte), (geometryOf s.cfg g).isSome = true →
    (s.handle ≠ .none → exec (.init g 0x00#8) s = .refused .secondInit)
      ∧ (s.handle = .none → pinMapAccepted s.otherPins s.cur.pinMap = false →
          exec (.init g 0x00#8) s = .refused .pinMapConflict)

/-! ### The public operations -/

/-- What holds after a successful operation on a handle (43_public_operations.md R120): its events between
`ACQ(c)` and `REL(c)`, the result ok, the lock free again, the engine idle. -/
def OperationDone (evs : List Event) (imgs : List Image) (pins : PerPin Level) (gpioCalls ms : Nat)
    (s t : State) : Prop :=
  t.trace = s.trace ++ [.acq s.cur.requester] ++ evs
      ++ [.rel s.cur.requester, .ret s.cur.requester .ok]
    ∧ (∀ pm, s.pinMap = some pm → t.calls = s.calls ++ callsOf pm evs)
    ∧ t.latched = s.latched ++ imgs ∧ t.pins = pins ∧ s.now + ms ≤ t.now
    ∧ t.env.gpio = s.env.gpio.drop gpioCalls ∧ t.result = some .ok
    ∧ t.lock = .free ∧ t.seq = .idle ∧ t.text = [] ∧ t.dirs = s.dirs
    ∧ KeepsHandle s t ∧ KeepsPort s t

/-- What holds after an operation on a handle that was aborted at a failed GPIO call (60_exceptions.md R146): what
was done stays done, the lock is free again, err is returned. -/
def OperationAborted (evs : List Event) (imgs : List Image) (s t : State) : Prop :=
  ∃ f, lastCause evs = some f
    ∧ t.trace = s.trace ++ [.acq s.cur.requester] ++ evs
        ++ [.rel s.cur.requester, .ret s.cur.requester (.err (.gpio f))]
    ∧ (∀ pm, s.pinMap = some pm → t.calls = s.calls ++ callsOf pm evs)
    ∧ t.latched = s.latched ++ imgs ∧ t.pins = driveAll evs s.pins
    ∧ t.result = some (.err (.gpio f))
    ∧ t.lock = .free ∧ t.seq = .idle ∧ t.text = [] ∧ t.dirs = s.dirs
    ∧ KeepsHandle s t ∧ KeepsPort s t

/-- CLEAR and HOME with their byte `v`: every call ok, and aborted at GPIO call `k` of the byte
(43_public_operations.md R121, R122; 60_exceptions.md R146). -/
def CommandRule (i : Instr) (v : Byte) : Prop :=
  (∀ s : State, Ready s → GpioOk 16 s →
      ∃ t, exec i s = .next t
        ∧ OperationDone (byteEvents s.cfg.strobeMs false v ++ [.wait s.cfg.execMs]) (byteImages false v)
            (nibblePins false (v.extractLsb' 0 4)) 16 (4 * s.cfg.strobeMs + s.cfg.execMs) s t)
    ∧ (∀ (s : State) (k : Nat), Ready s → s.cfg.lockReleaseOnError = true → k < 16 → GpioFailsAt k s →
        ∃ t, exec i s = .next t
          ∧ OperationAborted (cutAt k (byteEvents s.cfg.strobeMs false v)) ((byteImages false v).take (k / 8)) s t)

/-- 43_public_operations.md R121: CLEAR sends 0x01 and waits T_EXEC_MS inside the lock; aborted, it makes no settle
wait, releases the lock and returns err. -/
def Obligations.ClearSendsOneCommandAndWaits : Prop :=
  decode (.req20 0x20000#20) = .ok .clear ∧ Instr.clear.isPublic = true ∧ byteImages false 0x01#8 = [0x00#6, 0x01#6]
    ∧ CommandRule .clear 0x01#8

/-- 43_public_operations.md R122: HOME sends 0x02 and waits T_EXEC_MS inside the lock; aborted, as CLEAR. -/
def Obligations.HomeSendsOneCommandAndWaits : Prop :=
  decode (.req20 0x30000#20) = .ok .home ∧ Instr.home.isPublic = true ∧ byteImages false 0x02#8 = [0x00#6, 0x02#6]
    ∧ CommandRule .home 0x02#8

/-- The premises of a position in range (43_public_operations.md R123, R124). -/
abbrev InRange (x y : Byte) (dc : DisplayConfig) (cols rows : Nat) (bases : List Nat) (base : Nat)
    (s : State) : Prop :=
  s.config = some dc ∧ geometryOf s.cfg dc.geometry = some (cols, rows) ∧ y.toNat < rows
    ∧ x.toNat < cols ∧ rowBasesOf s.cfg rows = some bases ∧ bases[y.toNat]? = some base
    ∧ base + x.toNat ≤ 0x7F

/-- A position out of range: by its row, by its column, or by an address above 0x7F (43_public_operations.md
R123, R124). -/
def OutOfRange (x y : Byte) (cols rows : Nat) (s : State) : Prop :=
  rows ≤ y.toNat ∨ cols ≤ x.toNat
    ∨ ∃ bases base, rowBasesOf s.cfg rows = some bases ∧ bases[y.toNat]? = some base
        ∧ 0x7F < base + x.toNat

/-- The command byte of a DDRAM address (30_encoding.md R78; its `0x80` is log 20). -/
abbrev addressByte (addr : Nat) : Byte := 0x80#8 ||| BitVec.ofNat 8 addr

/-- The two images of that byte (43_public_operations.md R123). -/
abbrev addressImages (addr : Nat) : List Image :=
  [0b00#2 ++ (0b1#1 ++ (BitVec.ofNat 7 addr).extractLsb' 4 3), 0b00#2 ++ (BitVec.ofNat 7 addr).extractLsb' 0 4]

/-- 43_public_operations.md R123, R124: the encoding of GOTOXY x, y; in range it sends `0x80 OR (ROW_BASE[y] + x)`, where
the 0x80 is PRESUMED, general knowledge by the spec's own note (log 20), and nothing else; out of range by row or column
(R123) or by an address above 0x7F (R124) it takes and releases the lock, makes no GPIO call and returns RangeError;
aborted in its byte it releases the lock and returns err. -/
def Obligations.GotoxySendsTheAddressOrFails : Prop :=
  ∀ (x y : Byte),
    decode (.req20 (0x4#4 ++ x ++ y)) = .ok (.gotoxy x y) ∧ (Instr.gotoxy x y).isPublic = true
      ∧ (∀ (s : State) (dc : DisplayConfig) (cols rows : Nat) (bases : List Nat) (base : Nat),
          Ready s → InRange x y dc cols rows bases base s → GpioOk 16 s →
            ∃ t, exec (.gotoxy x y) s = .next t
              ∧ OperationDone (byteEvents s.cfg.strobeMs false (addressByte (base + x.toNat)))
                  (addressImages (base + x.toNat))
                  (nibblePins false ((BitVec.ofNat 7 (base + x.toNat)).extractLsb' 0 4)) 16
                  (4 * s.cfg.strobeMs) s t)
      ∧ (∀ (s : State) (dc : DisplayConfig) (cols rows : Nat),
          Ready s → s.config = some dc → geometryOf s.cfg dc.geometry = some (cols, rows) →
            OutOfRange x y cols rows s → s.cfg.lockReleaseOnError = true →
              ∃ t, exec (.gotoxy x y) s = .next t
                ∧ t.trace = s.trace ++ [.acq s.cur.requester, .rel s.cur.requester,
                    .ret s.cur.requester (.err (.rangeError x y))]
                ∧ t.result = some (.err (.rangeError x y)) ∧ KeepsPins s t ∧ t.lock = .free ∧ t.seq = .idle
                ∧ t.text = [] ∧ KeepsHandle s t ∧ KeepsPort s t)
      ∧ (∀ (s : State) (dc : DisplayConfig) (cols rows : Nat) (bases : List Nat) (base k : Nat),
          Ready s → InRange x y dc cols rows bases base s → s.cfg.lockReleaseOnError = true → k < 16 →
            GpioFailsAt k s →
              ∃ t, exec (.gotoxy x y) s = .next t
                ∧ OperationAborted (cutAt k (byteEvents s.cfg.strobeMs false (addressByte (base + x.toNat))))
                    ((addressImages (base + x.toNat)).take (k / 8)) s t)

/-- 43_public_operations.md R124, 93_implementation_defined.md U10 (logs 7, 16): a position in range of a geometry
whose row bases were not given, or not for that row, has no meaning; a position out of range is never refused, its range
check coming first (log 15). -/
def Obligations.GotoxyWithoutRowBasesIsRefused : Prop :=
  ∀ (s : State) (x y : Byte) (dc : DisplayConfig) (cols rows : Nat),
    s.handle = .valid → s.config = some dc → geometryOf s.cfg dc.geometry = some (cols, rows) →
      (y.toNat < rows → x.toNat < cols →
          (rowBasesOf s.cfg rows = none ∨ ∃ bases, rowBasesOf s.cfg rows = some bases ∧ bases[y.toNat]? = none) →
            exec (.gotoxy x y) s = .refused .rowBaseUnknown)
        ∧ (rows ≤ y.toNat ∨ cols ≤ x.toNat → ∀ ρ, exec (.gotoxy x y) s ≠ .refused ρ)

/-- 43_public_operations.md R124: the complete table of the 16 by 2 geometry at the default row bases. -/
def Obligations.SixteenByTwoAddressTable : Prop :=
  ∀ (m : Mode) (x y : Byte), x.toNat < 16 → y.toNat < 2 →
    gotoxyTarget Config.default (some { geometry := 0x00#8, mode := m }) x y =
      .byte (if y = 0x00#8 then 0x80#8 + x else 0xC0#8 + x)

/-- 43_public_operations.md R125: the encoding of WRITE_STRING; it sends every byte before the first 0x00 as a data byte,
whatever their number, and reads nothing after it; aborted at a GPIO call, the bytes before stay sent and the bytes
after are neither read nor sent. -/
def Obligations.WriteStringSendsUpToTheTerminator : Prop :=
  decode (.req20 0x50000#20) = .ok .writeString ∧ Instr.writeString.isPublic = true
    ∧ (∀ s : State, Ready s → textTerminated s.cur.text = true →
        GpioOk (16 * (textBody s.cur.text).length) s →
          ∃ t, exec .writeString s = .next t
            ∧ OperationDone (stringEvents s.cfg.strobeMs 0 (textBody s.cur.text))
                ((textBody s.cur.text).flatMap (byteImages true))
                (match (textBody s.cur.text).getLast? with
                  | none => s.pins
                  | some v => nibblePins true (v.extractLsb' 0 4))
                (16 * (textBody s.cur.text).length)
                (4 * (textBody s.cur.text).length * s.cfg.strobeMs) s t)
    ∧ (∀ (s : State) (k : Nat), Ready s → textTerminated s.cur.text = true →
        s.cfg.lockReleaseOnError = true → k < 16 * (textBody s.cur.text).length → GpioFailsAt k s →
          ∃ t, exec .writeString s = .next t
            ∧ OperationAborted (cutAt k (stringEvents s.cfg.strobeMs 0 (textBody s.cur.text)))
                (((textBody s.cur.text).flatMap (byteImages true)).take (k / 8)) s t)

/-- The operations on a handle (43_public_operations.md). -/
def isHandleOperation : Instr → Bool
  | .clear => true
  | .home => true
  | .gotoxy _ _ => true
  | .writeString => true
  | _ => false

/-- 43_public_operations.md R128: an operation on a handle that is not VALID is refused. -/
def Obligations.OperationsNeedAValidHandle : Prop :=
  ∀ (s : State) (i : Instr), isHandleOperation i = true → s.handle ≠ .valid →
    ∃ t, exec i s = .next t ∧ OnlyReturns (.err .handleInvalid) s t

/-- The requests on a handle that have a meaning, and so wait for the lock: CLEAR, HOME, GOTOXY to a position out of
range or with a row base, WRITE_STRING of a terminated text (43_public_operations.md R120). -/
def HasMeaning (s : State) : Instr → Prop
  | .clear => True
  | .home => True
  | .gotoxy x y => ∃ dc cols rows, s.config = some dc ∧ geometryOf s.cfg dc.geometry = some (cols, rows)
      ∧ ((∃ bases base, InRange x y dc cols rows bases base s) ∨ OutOfRange x y cols rows s)
  | .writeString => textTerminated s.cur.text = true
  | _ => False

/-- 20_memory.md R61, 43_public_operations.md R120: while the lock is held a requester waits: its request stays pending,
the first of its requester, and only time passes (the model's form of a wait: log 10). -/
def Obligations.ARequesterWaitsForTheLock : Prop :=
  ∀ (s : State) (i : Instr) (c : Requester), HasMeaning s i → s.handle = .valid → s.lock = .held c →
    ∃ t, exec i s = .next t ∧ t.trace = s.trace ∧ t.pending = s.cur :: s.pending
      ∧ t.result = s.result ∧ s.now ≤ t.now ∧ KeepsPins s t ∧ KeepsHandle s t ∧ KeepsSequencer s t
      ∧ t.cfg = s.cfg ∧ t.otherPins = s.otherPins ∧ t.cur = s.cur ∧ t.grain = s.grain

/-- 93_implementation_defined.md U3 (log 16): a text without a terminator has no meaning. -/
def Obligations.UnterminatedTextIsRefused : Prop :=
  ∀ (s : State), s.handle = .valid → 0x00#8 ∉ s.cur.text →
    exec .writeString s = .refused .unterminatedText

/-- 20_memory.md R52: the TEXT space of a byte sequence holds its i-th byte at index i and nothing past its end, and
is in canonical form. -/
def Obligations.TextSpaceHoldsTheBytes : Prop :=
  ∀ (bs : List Byte) (i : Nat),
    Memory.read (Memory.load 0 bs) i = bs[i]? ∧ Memory.wf (Memory.load 0 bs) = true

/-! ### Rules of the whole machine -/

/-- The invariant holds at reset. -/
def Obligations.ResetMeetsTheInvariant : Prop := Inv State.reset ∧ Serialised State.reset

/-- Every step keeps the invariant: the handle's cells exist exactly as 10_state.md R27 to R32 say, a VALID handle
is bound to the 4-bit strategies (R28, R30), the sequencer, the lock and the TEXT space agree, RW is never
high. -/
def Obligations.EveryStepKeepsTheInvariant : Prop :=
  ∀ s t : State, Inv s → step s = .next t → Inv t

/-- 93_implementation_defined.md U1, U4 (log 19): no state that meets the invariant steps to the fault of a handle
whose cells do not exist. -/
def Obligations.InvariantStatesNeverFault : Prop :=
  ∀ s : State, Inv s → ∀ f : Fault, step s ≠ .fault f

/-- 10_state.md R29, 20_memory.md R54: once INIT has written PINMAP, the calls of a step are those its events record, each
on the physical pin PINMAP[p]. -/
def Obligations.EveryCallIsOnThePinMap : Prop :=
  ∀ (s t : State) (pm : PinMap), Inv s → s.pinMap = some pm → step s = .next t →
    ∃ evs, t.trace = s.trace ++ evs ∧ t.calls = s.calls ++ callsOf pm evs

/-- 92_eei_decisions.md D22, 93_implementation_defined.md U7: no step of any display lets two displays have a physical
pin in common, with INITs in progress counted and the pin map beside a level 1 operation of its own not (the model's form:
logs 11, 16, 17). -/
def Obligations.PlatformsStayApart : Prop :=
  ∀ (P Q : Platform) (k : Nat), P.Apart → P.stepAt k = .next Q → Q.Apart

/-- 20_memory.md R63, R65, 43_public_operations.md R120: with callers only, every step keeps the trace in the one
order the lock allows. -/
def Obligations.PinActivityIsSerialisedByTheLock : Prop :=
  ∀ s t : State, Inv s → CallersOnly s → s.cfg.lockReleaseOnError = true → Serialised s →
    step s = .next t → Serialised t ∧ CallersOnly t

/-- 40_pin_configuration.md R91, 10_state.md R20, R21: the latches and directions change by successful calls alone;
and the time that passes is at least what the waits asked (00_scope.md R13). -/
def Obligations.PinsDirectionsAndTimeFollowTheTrace : Prop :=
  ∀ s t : State, step s = .next t →
    ∃ evs, t.trace = s.trace ++ evs ∧ t.pins = driveAll evs s.pins ∧ t.dirs = configAll evs s.dirs
      ∧ s.now + waitedMs evs ≤ t.now

/-- 10_state.md R31: from known latches, `latched` grows by exactly the images at the falling edges of EN, through
aborts alike. -/
def Obligations.LatchedFollowsTheFallingEdges : Prop :=
  ∀ s t : State, pinsKnown s.pins = true → step s = .next t →
    ∃ evs, t.trace = s.trace ++ evs ∧ t.latched = s.latched ++ edgeImages s.pins evs

/-- 30_encoding.md R80 (a), 10_state.md R20: no instruction, taken whole or by its first micro-step, latches an image with
RW set, whatever the latches were before it. With EN not yet driven the image of a SET(EN,0) is wholly open
(93_implementation_defined.md U5, log 4), so that case is no part of it. -/
def Obligations.NoImageHasReadSet : Prop :=
  ∀ (i : Instr) (s t : State), s.pins.en ≠ .unknown → exec i s = .next t →
    ∃ imgs, t.latched = s.latched ++ imgs ∧ ∀ img ∈ imgs, img.getLsbD 4 = false

/-- 30_encoding.md R80 (a), 10_state.md R20: once RW has been driven low and EN driven at all, every step keeps that
and latches no image with RW set. -/
def Obligations.NoStepFromALowRwLatchesARead : Prop :=
  ∀ s t : State, s.pins.rw = .low → s.pins.en ≠ .unknown → step s = .next t →
    t.pins.rw = .low ∧ t.pins.en ≠ .unknown
      ∧ ∃ imgs, t.latched = s.latched ++ imgs ∧ ∀ img ∈ imgs, img.getLsbD 4 = false

/-- 70_reset_and_hazards.md R173: an instruction taken whole, be it completed or aborted, leaves EN low as it found it, as
long as no SET(EN,0) fails. -/
def Obligations.EnStaysLowBetweenOperations : Prop :=
  ∀ (i : Instr) (s t : State), RunsWhole s → s.pins.en = .low → exec i s = .next t →
    (∀ evs, t.trace = s.trace ++ evs → evs.all (fun e => !isEnFallFailure e) = true) → t.pins.en = .low

/-- 70_reset_and_hazards.md R173, 41_nibble_transfer.md R100, 10_state.md R24: EN is high exactly while the sequencer stands
between the SET(EN,1) and the SET(EN,0) of a nibble, and every step keeps that as long as no SET(EN,0) fails. -/
def Obligations.EnIsHighOnlyInsideTheStrobe : Prop :=
  ∀ s t : State, Inv s → EnFollows s → step s = .next t →
    (∀ evs, t.trace = s.trace ++ evs → evs.all (fun e => !isEnFallFailure e) = true) → EnFollows t

/-- The parameters and the other handles' pins are fixed for the run (log 6). -/
def Obligations.ParametersNeverChange : Prop :=
  ∀ s t : State, step s = .next t → t.cfg = s.cfg ∧ t.otherPins = s.otherPins

/-- 70_reset_and_hazards.md R171: no step takes a VALID handle back. -/
def Obligations.AValidHandleStaysValid : Prop :=
  ∀ s t : State, Inv s → s.handle = .valid → step s = .next t →
    t.handle = .valid ∧ t.config = s.config ∧ t.pinMap = s.pinMap ∧ t.dispatch = s.dispatch
end

