-- ==== Sys2Proof/Laws/State.lean ====
section
/-! SUPPORT. One lemma per field per update of State, so that no later proof unfolds a record update. -/

namespace Sys2Proof.Machine

/-! ### Time passes -/

@[simp] theorem State.tick_pins (s : State) : (s.tick).pins = s.pins := rfl
@[simp] theorem State.tick_dirs (s : State) : (s.tick).dirs = s.dirs := rfl
@[simp] theorem State.tick_seq (s : State) : (s.tick).seq = s.seq := rfl
@[simp] theorem State.tick_handle (s : State) : (s.tick).handle = s.handle := rfl
@[simp] theorem State.tick_config (s : State) : (s.tick).config = s.config := rfl
@[simp] theorem State.tick_pinMap (s : State) : (s.tick).pinMap = s.pinMap := rfl
@[simp] theorem State.tick_dispatch (s : State) : (s.tick).dispatch = s.dispatch := rfl
@[simp] theorem State.tick_lock (s : State) : (s.tick).lock = s.lock := rfl
@[simp] theorem State.tick_text (s : State) : (s.tick).text = s.text := rfl
@[simp] theorem State.tick_latched (s : State) : (s.tick).latched = s.latched := rfl
@[simp] theorem State.tick_trace (s : State) : (s.tick).trace = s.trace := rfl
@[simp] theorem State.tick_now (s : State) : (s.tick).now = s.now + Config.overrun s.env.draws := rfl
@[simp] theorem State.tick_calls (s : State) : (s.tick).calls = s.calls := rfl
@[simp] theorem State.tick_result (s : State) : (s.tick).result = s.result := rfl
@[simp] theorem State.tick_cfg (s : State) : (s.tick).cfg = s.cfg := rfl
@[simp] theorem State.tick_otherPins (s : State) : (s.tick).otherPins = s.otherPins := rfl
@[simp] theorem State.tick_pending (s : State) : (s.tick).pending = s.pending := rfl
@[simp] theorem State.tick_cur (s : State) : (s.tick).cur = s.cur := rfl
@[simp] theorem State.tick_grain (s : State) : (s.tick).grain = s.grain := rfl
@[simp] theorem State.tick_env (s : State) : (s.tick).env = { s.env with draws := s.env.draws + 1 } := rfl

/-! ### An event is appended -/

@[simp] theorem State.log_pins (e : Event) (s : State) : (s.log e).pins = s.pins := rfl
@[simp] theorem State.log_dirs (e : Event) (s : State) : (s.log e).dirs = s.dirs := rfl
@[simp] theorem State.log_seq (e : Event) (s : State) : (s.log e).seq = s.seq := rfl
@[simp] theorem State.log_handle (e : Event) (s : State) : (s.log e).handle = s.handle := rfl
@[simp] theorem State.log_config (e : Event) (s : State) : (s.log e).config = s.config := rfl
@[simp] theorem State.log_pinMap (e : Event) (s : State) : (s.log e).pinMap = s.pinMap := rfl
@[simp] theorem State.log_dispatch (e : Event) (s : State) : (s.log e).dispatch = s.dispatch := rfl
@[simp] theorem State.log_lock (e : Event) (s : State) : (s.log e).lock = s.lock := rfl
@[simp] theorem State.log_text (e : Event) (s : State) : (s.log e).text = s.text := rfl
@[simp] theorem State.log_latched (e : Event) (s : State) : (s.log e).latched = s.latched := rfl
@[simp] theorem State.log_trace (e : Event) (s : State) : (s.log e).trace = s.trace ++ [e] := rfl
@[simp] theorem State.log_now (e : Event) (s : State) : (s.log e).now = s.now := rfl
@[simp] theorem State.log_calls (e : Event) (s : State) : (s.log e).calls = s.calls := rfl
@[simp] theorem State.log_result (e : Event) (s : State) : (s.log e).result = s.result := rfl
@[simp] theorem State.log_cfg (e : Event) (s : State) : (s.log e).cfg = s.cfg := rfl
@[simp] theorem State.log_otherPins (e : Event) (s : State) : (s.log e).otherPins = s.otherPins := rfl
@[simp] theorem State.log_pending (e : Event) (s : State) : (s.log e).pending = s.pending := rfl
@[simp] theorem State.log_cur (e : Event) (s : State) : (s.log e).cur = s.cur := rfl
@[simp] theorem State.log_grain (e : Event) (s : State) : (s.log e).grain = s.grain := rfl
@[simp] theorem State.log_env (e : Event) (s : State) : (s.log e).env = s.env := rfl

/-! ### A result is handed back -/

@[simp] theorem State.ret_pins (c : Requester) (r : Result) (s : State) : (s.ret c r).pins = s.pins := rfl
@[simp] theorem State.ret_dirs (c : Requester) (r : Result) (s : State) : (s.ret c r).dirs = s.dirs := rfl
@[simp] theorem State.ret_seq (c : Requester) (r : Result) (s : State) : (s.ret c r).seq = s.seq := rfl
@[simp] theorem State.ret_handle (c : Requester) (r : Result) (s : State) : (s.ret c r).handle = s.handle := rfl
@[simp] theorem State.ret_config (c : Requester) (r : Result) (s : State) : (s.ret c r).config = s.config := rfl
@[simp] theorem State.ret_pinMap (c : Requester) (r : Result) (s : State) : (s.ret c r).pinMap = s.pinMap := rfl
@[simp] theorem State.ret_dispatch (c : Requester) (r : Result) (s : State) : (s.ret c r).dispatch = s.dispatch := rfl
@[simp] theorem State.ret_lock (c : Requester) (r : Result) (s : State) : (s.ret c r).lock = s.lock := rfl
@[simp] theorem State.ret_text (c : Requester) (r : Result) (s : State) : (s.ret c r).text = s.text := rfl
@[simp] theorem State.ret_latched (c : Requester) (r : Result) (s : State) : (s.ret c r).latched = s.latched := rfl
@[simp] theorem State.ret_trace (c : Requester) (r : Result) (s : State) : (s.ret c r).trace = s.trace ++ [.ret c r] := rfl
@[simp] theorem State.ret_now (c : Requester) (r : Result) (s : State) : (s.ret c r).now = s.now := rfl
@[simp] theorem State.ret_calls (c : Requester) (r : Result) (s : State) : (s.ret c r).calls = s.calls := rfl
@[simp] theorem State.ret_result (c : Requester) (r : Result) (s : State) : (s.ret c r).result = some r := rfl
@[simp] theorem State.ret_cfg (c : Requester) (r : Result) (s : State) : (s.ret c r).cfg = s.cfg := rfl
@[simp] theorem State.ret_otherPins (c : Requester) (r : Result) (s : State) : (s.ret c r).otherPins = s.otherPins := rfl
@[simp] theorem State.ret_pending (c : Requester) (r : Result) (s : State) : (s.ret c r).pending = s.pending := rfl
@[simp] theorem State.ret_cur (c : Requester) (r : Result) (s : State) : (s.ret c r).cur = s.cur := rfl
@[simp] theorem State.ret_grain (c : Requester) (r : Result) (s : State) : (s.ret c r).grain = s.grain := rfl
@[simp] theorem State.ret_env (c : Requester) (r : Result) (s : State) : (s.ret c r).env = s.env := rfl

/-! ### A call of the GPIO layer -/

@[simp] theorem State.call_pins (p : Role) (act : GpioAct) (ok : Bool) (s : State) : (s.call p act ok).pins = s.pins := rfl
@[simp] theorem State.call_dirs (p : Role) (act : GpioAct) (ok : Bool) (s : State) : (s.call p act ok).dirs = s.dirs := rfl
@[simp] theorem State.call_seq (p : Role) (act : GpioAct) (ok : Bool) (s : State) : (s.call p act ok).seq = s.seq := rfl
@[simp] theorem State.call_handle (p : Role) (act : GpioAct) (ok : Bool) (s : State) : (s.call p act ok).handle = s.handle := rfl
@[simp] theorem State.call_config (p : Role) (act : GpioAct) (ok : Bool) (s : State) : (s.call p act ok).config = s.config := rfl
@[simp] theorem State.call_pinMap (p : Role) (act : GpioAct) (ok : Bool) (s : State) : (s.call p act ok).pinMap = s.pinMap := rfl
@[simp] theorem State.call_dispatch (p : Role) (act : GpioAct) (ok : Bool) (s : State) : (s.call p act ok).dispatch = s.dispatch := rfl
@[simp] theorem State.call_lock (p : Role) (act : GpioAct) (ok : Bool) (s : State) : (s.call p act ok).lock = s.lock := rfl
@[simp] theorem State.call_text (p : Role) (act : GpioAct) (ok : Bool) (s : State) : (s.call p act ok).text = s.text := rfl
@[simp] theorem State.call_latched (p : Role) (act : GpioAct) (ok : Bool) (s : State) : (s.call p act ok).latched = s.latched := rfl
@[simp] theorem State.call_trace (p : Role) (act : GpioAct) (ok : Bool) (s : State) : (s.call p act ok).trace = s.trace := rfl
@[simp] theorem State.call_now (p : Role) (act : GpioAct) (ok : Bool) (s : State) : (s.call p act ok).now = s.now := rfl
@[simp] theorem State.call_result (p : Role) (act : GpioAct) (ok : Bool) (s : State) : (s.call p act ok).result = s.result := rfl
@[simp] theorem State.call_cfg (p : Role) (act : GpioAct) (ok : Bool) (s : State) : (s.call p act ok).cfg = s.cfg := rfl
@[simp] theorem State.call_otherPins (p : Role) (act : GpioAct) (ok : Bool) (s : State) : (s.call p act ok).otherPins = s.otherPins := rfl
@[simp] theorem State.call_pending (p : Role) (act : GpioAct) (ok : Bool) (s : State) : (s.call p act ok).pending = s.pending := rfl
@[simp] theorem State.call_cur (p : Role) (act : GpioAct) (ok : Bool) (s : State) : (s.call p act ok).cur = s.cur := rfl
@[simp] theorem State.call_grain (p : Role) (act : GpioAct) (ok : Bool) (s : State) : (s.call p act ok).grain = s.grain := rfl
@[simp] theorem State.call_env (p : Role) (act : GpioAct) (ok : Bool) (s : State) : (s.call p act ok).env = s.env := rfl
@[simp] theorem State.call_calls (p : Role) (act : GpioAct) (ok : Bool) (s : State) : (s.call p act ok).calls = s.calls ++ [{ pin := s.physPin p, act := act, ok := ok }] := rfl

/-! ### A sleep -/

@[simp] theorem sleepFor_pins (t : Nat) (s : State) : (sleepFor t s).pins = s.pins := rfl
@[simp] theorem sleepFor_dirs (t : Nat) (s : State) : (sleepFor t s).dirs = s.dirs := rfl
@[simp] theorem sleepFor_seq (t : Nat) (s : State) : (sleepFor t s).seq = s.seq := rfl
@[simp] theorem sleepFor_handle (t : Nat) (s : State) : (sleepFor t s).handle = s.handle := rfl
@[simp] theorem sleepFor_config (t : Nat) (s : State) : (sleepFor t s).config = s.config := rfl
@[simp] theorem sleepFor_pinMap (t : Nat) (s : State) : (sleepFor t s).pinMap = s.pinMap := rfl
@[simp] theorem sleepFor_dispatch (t : Nat) (s : State) : (sleepFor t s).dispatch = s.dispatch := rfl
@[simp] theorem sleepFor_lock (t : Nat) (s : State) : (sleepFor t s).lock = s.lock := rfl
@[simp] theorem sleepFor_text (t : Nat) (s : State) : (sleepFor t s).text = s.text := rfl
@[simp] theorem sleepFor_latched (t : Nat) (s : State) : (sleepFor t s).latched = s.latched := rfl
@[simp] theorem sleepFor_trace (t : Nat) (s : State) : (sleepFor t s).trace = s.trace ++ [.wait t] := rfl
@[simp] theorem sleepFor_now (t : Nat) (s : State) : (sleepFor t s).now = s.now + t + Config.overrun s.env.draws := rfl
@[simp] theorem sleepFor_calls (t : Nat) (s : State) : (sleepFor t s).calls = s.calls := rfl
@[simp] theorem sleepFor_result (t : Nat) (s : State) : (sleepFor t s).result = s.result := rfl
@[simp] theorem sleepFor_cfg (t : Nat) (s : State) : (sleepFor t s).cfg = s.cfg := rfl
@[simp] theorem sleepFor_otherPins (t : Nat) (s : State) : (sleepFor t s).otherPins = s.otherPins := rfl
@[simp] theorem sleepFor_pending (t : Nat) (s : State) : (sleepFor t s).pending = s.pending := rfl
@[simp] theorem sleepFor_cur (t : Nat) (s : State) : (sleepFor t s).cur = s.cur := rfl
@[simp] theorem sleepFor_grain (t : Nat) (s : State) : (sleepFor t s).grain = s.grain := rfl
@[simp] theorem sleepFor_env (t : Nat) (s : State) : (sleepFor t s).env = { s.env with draws := s.env.draws + 1 } := rfl

/-! ### A refusal of a public operation -/

@[simp] theorem refuseErr_pins (c : Cause) (s : State) : (refuseErr c s).pins = s.pins := rfl
@[simp] theorem refuseErr_dirs (c : Cause) (s : State) : (refuseErr c s).dirs = s.dirs := rfl
@[simp] theorem refuseErr_seq (c : Cause) (s : State) : (refuseErr c s).seq = s.seq := rfl
@[simp] theorem refuseErr_handle (c : Cause) (s : State) : (refuseErr c s).handle = s.handle := rfl
@[simp] theorem refuseErr_config (c : Cause) (s : State) : (refuseErr c s).config = s.config := rfl
@[simp] theorem refuseErr_pinMap (c : Cause) (s : State) : (refuseErr c s).pinMap = s.pinMap := rfl
@[simp] theorem refuseErr_dispatch (c : Cause) (s : State) : (refuseErr c s).dispatch = s.dispatch := rfl
@[simp] theorem refuseErr_lock (c : Cause) (s : State) : (refuseErr c s).lock = s.lock := rfl
@[simp] theorem refuseErr_text (c : Cause) (s : State) : (refuseErr c s).text = s.text := rfl
@[simp] theorem refuseErr_latched (c : Cause) (s : State) : (refuseErr c s).latched = s.latched := rfl
@[simp] theorem refuseErr_trace (c : Cause) (s : State) : (refuseErr c s).trace = s.trace ++ [.ret s.cur.requester (.err c)] := rfl
@[simp] theorem refuseErr_now (c : Cause) (s : State) : (refuseErr c s).now = s.now + Config.overrun s.env.draws := rfl
@[simp] theorem refuseErr_calls (c : Cause) (s : State) : (refuseErr c s).calls = s.calls := rfl
@[simp] theorem refuseErr_result (c : Cause) (s : State) : (refuseErr c s).result = some (.err c) := rfl
@[simp] theorem refuseErr_cfg (c : Cause) (s : State) : (refuseErr c s).cfg = s.cfg := rfl
@[simp] theorem refuseErr_otherPins (c : Cause) (s : State) : (refuseErr c s).otherPins = s.otherPins := rfl
@[simp] theorem refuseErr_pending (c : Cause) (s : State) : (refuseErr c s).pending = s.pending := rfl
@[simp] theorem refuseErr_cur (c : Cause) (s : State) : (refuseErr c s).cur = s.cur := rfl
@[simp] theorem refuseErr_grain (c : Cause) (s : State) : (refuseErr c s).grain = s.grain := rfl
@[simp] theorem refuseErr_env (c : Cause) (s : State) : (refuseErr c s).env = { s.env with draws := s.env.draws + 1 } := rfl

/-! ### A refusal of INIT -/

@[simp] theorem refuseNull_pins (c : Cause) (s : State) : (refuseNull c s).pins = s.pins := rfl
@[simp] theorem refuseNull_dirs (c : Cause) (s : State) : (refuseNull c s).dirs = s.dirs := rfl
@[simp] theorem refuseNull_seq (c : Cause) (s : State) : (refuseNull c s).seq = s.seq := rfl
@[simp] theorem refuseNull_handle (c : Cause) (s : State) : (refuseNull c s).handle = s.handle := rfl
@[simp] theorem refuseNull_config (c : Cause) (s : State) : (refuseNull c s).config = s.config := rfl
@[simp] theorem refuseNull_pinMap (c : Cause) (s : State) : (refuseNull c s).pinMap = s.pinMap := rfl
@[simp] theorem refuseNull_dispatch (c : Cause) (s : State) : (refuseNull c s).dispatch = s.dispatch := rfl
@[simp] theorem refuseNull_lock (c : Cause) (s : State) : (refuseNull c s).lock = s.lock := rfl
@[simp] theorem refuseNull_text (c : Cause) (s : State) : (refuseNull c s).text = s.text := rfl
@[simp] theorem refuseNull_latched (c : Cause) (s : State) : (refuseNull c s).latched = s.latched := rfl
@[simp] theorem refuseNull_trace (c : Cause) (s : State) : (refuseNull c s).trace = s.trace ++ [.ret s.cur.requester (.null c)] := rfl
@[simp] theorem refuseNull_now (c : Cause) (s : State) : (refuseNull c s).now = s.now + Config.overrun s.env.draws := rfl
@[simp] theorem refuseNull_calls (c : Cause) (s : State) : (refuseNull c s).calls = s.calls := rfl
@[simp] theorem refuseNull_result (c : Cause) (s : State) : (refuseNull c s).result = some (.null c) := rfl
@[simp] theorem refuseNull_cfg (c : Cause) (s : State) : (refuseNull c s).cfg = s.cfg := rfl
@[simp] theorem refuseNull_otherPins (c : Cause) (s : State) : (refuseNull c s).otherPins = s.otherPins := rfl
@[simp] theorem refuseNull_pending (c : Cause) (s : State) : (refuseNull c s).pending = s.pending := rfl
@[simp] theorem refuseNull_cur (c : Cause) (s : State) : (refuseNull c s).cur = s.cur := rfl
@[simp] theorem refuseNull_grain (c : Cause) (s : State) : (refuseNull c s).grain = s.grain := rfl
@[simp] theorem refuseNull_env (c : Cause) (s : State) : (refuseNull c s).env = { s.env with draws := s.env.draws + 1 } := rfl

/-! ### A request that waits -/

@[simp] theorem waitTurn_pins (s : State) : (waitTurn s).pins = s.pins := rfl
@[simp] theorem waitTurn_dirs (s : State) : (waitTurn s).dirs = s.dirs := rfl
@[simp] theorem waitTurn_seq (s : State) : (waitTurn s).seq = s.seq := rfl
@[simp] theorem waitTurn_handle (s : State) : (waitTurn s).handle = s.handle := rfl
@[simp] theorem waitTurn_config (s : State) : (waitTurn s).config = s.config := rfl
@[simp] theorem waitTurn_pinMap (s : State) : (waitTurn s).pinMap = s.pinMap := rfl
@[simp] theorem waitTurn_dispatch (s : State) : (waitTurn s).dispatch = s.dispatch := rfl
@[simp] theorem waitTurn_lock (s : State) : (waitTurn s).lock = s.lock := rfl
@[simp] theorem waitTurn_text (s : State) : (waitTurn s).text = s.text := rfl
@[simp] theorem waitTurn_latched (s : State) : (waitTurn s).latched = s.latched := rfl
@[simp] theorem waitTurn_trace (s : State) : (waitTurn s).trace = s.trace := rfl
@[simp] theorem waitTurn_now (s : State) : (waitTurn s).now = s.now + Config.overrun s.env.draws := rfl
@[simp] theorem waitTurn_calls (s : State) : (waitTurn s).calls = s.calls := rfl
@[simp] theorem waitTurn_result (s : State) : (waitTurn s).result = s.result := rfl
@[simp] theorem waitTurn_cfg (s : State) : (waitTurn s).cfg = s.cfg := rfl
@[simp] theorem waitTurn_otherPins (s : State) : (waitTurn s).otherPins = s.otherPins := rfl
@[simp] theorem waitTurn_pending (s : State) : (waitTurn s).pending = s.cur :: s.pending := rfl
@[simp] theorem waitTurn_cur (s : State) : (waitTurn s).cur = s.cur := rfl
@[simp] theorem waitTurn_grain (s : State) : (waitTurn s).grain = s.grain := rfl
@[simp] theorem waitTurn_env (s : State) : (waitTurn s).env = { s.env with draws := s.env.draws + 1 } := rfl

/-! ### Teardown -/

@[simp] theorem teardown_pins (s : State) : (teardown s).pins = s.pins := rfl
@[simp] theorem teardown_dirs (s : State) : (teardown s).dirs = s.dirs := rfl
@[simp] theorem teardown_seq (s : State) : (teardown s).seq = s.seq := rfl
@[simp] theorem teardown_handle (s : State) : (teardown s).handle = .none := rfl
@[simp] theorem teardown_config (s : State) : (teardown s).config = none := rfl
@[simp] theorem teardown_pinMap (s : State) : (teardown s).pinMap = none := rfl
@[simp] theorem teardown_dispatch (s : State) : (teardown s).dispatch = none := rfl
@[simp] theorem teardown_lock (s : State) : (teardown s).lock = .absent := rfl
@[simp] theorem teardown_text (s : State) : (teardown s).text = s.text := rfl
@[simp] theorem teardown_latched (s : State) : (teardown s).latched = s.latched := rfl
@[simp] theorem teardown_trace (s : State) : (teardown s).trace = s.trace ++ [.free] := rfl
@[simp] theorem teardown_now (s : State) : (teardown s).now = s.now := rfl
@[simp] theorem teardown_calls (s : State) : (teardown s).calls = s.calls := rfl
@[simp] theorem teardown_result (s : State) : (teardown s).result = s.result := rfl
@[simp] theorem teardown_cfg (s : State) : (teardown s).cfg = s.cfg := rfl
@[simp] theorem teardown_otherPins (s : State) : (teardown s).otherPins = s.otherPins := rfl
@[simp] theorem teardown_pending (s : State) : (teardown s).pending = s.pending := rfl
@[simp] theorem teardown_cur (s : State) : (teardown s).cur = s.cur := rfl
@[simp] theorem teardown_grain (s : State) : (teardown s).grain = s.grain := rfl
@[simp] theorem teardown_env (s : State) : (teardown s).env = s.env := rfl

/-! ### INIT's last step -/

@[simp] theorem publishHandle_pins (c : Requester) (s : State) : (publishHandle c s).pins = s.pins := rfl
@[simp] theorem publishHandle_dirs (c : Requester) (s : State) : (publishHandle c s).dirs = s.dirs := rfl
@[simp] theorem publishHandle_seq (c : Requester) (s : State) : (publishHandle c s).seq = s.seq := rfl
@[simp] theorem publishHandle_handle (c : Requester) (s : State) : (publishHandle c s).handle = .valid := rfl
@[simp] theorem publishHandle_config (c : Requester) (s : State) : (publishHandle c s).config = s.config := rfl
@[simp] theorem publishHandle_pinMap (c : Requester) (s : State) : (publishHandle c s).pinMap = s.pinMap := rfl
@[simp] theorem publishHandle_dispatch (c : Requester) (s : State) : (publishHandle c s).dispatch = s.dispatch := rfl
@[simp] theorem publishHandle_lock (c : Requester) (s : State) : (publishHandle c s).lock = s.lock := rfl
@[simp] theorem publishHandle_text (c : Requester) (s : State) : (publishHandle c s).text = s.text := rfl
@[simp] theorem publishHandle_latched (c : Requester) (s : State) : (publishHandle c s).latched = s.latched := rfl
@[simp] theorem publishHandle_trace (c : Requester) (s : State) : (publishHandle c s).trace = s.trace ++ [.ret c .handle] := rfl
@[simp] theorem publishHandle_now (c : Requester) (s : State) : (publishHandle c s).now = s.now + Config.overrun s.env.draws := rfl
@[simp] theorem publishHandle_calls (c : Requester) (s : State) : (publishHandle c s).calls = s.calls := rfl
@[simp] theorem publishHandle_result (c : Requester) (s : State) : (publishHandle c s).result = some .handle := rfl
@[simp] theorem publishHandle_cfg (c : Requester) (s : State) : (publishHandle c s).cfg = s.cfg := rfl
@[simp] theorem publishHandle_otherPins (c : Requester) (s : State) : (publishHandle c s).otherPins = s.otherPins := rfl
@[simp] theorem publishHandle_pending (c : Requester) (s : State) : (publishHandle c s).pending = s.pending := rfl
@[simp] theorem publishHandle_cur (c : Requester) (s : State) : (publishHandle c s).cur = s.cur := rfl
@[simp] theorem publishHandle_grain (c : Requester) (s : State) : (publishHandle c s).grain = s.grain := rfl
@[simp] theorem publishHandle_env (c : Requester) (s : State) : (publishHandle c s).env = { s.env with draws := s.env.draws + 1 } := rfl

/-! ### INIT's binding step -/

@[simp] theorem bindDispatch_pins (s : State) : (bindDispatch s).pins = s.pins := rfl
@[simp] theorem bindDispatch_dirs (s : State) : (bindDispatch s).dirs = s.dirs := rfl
@[simp] theorem bindDispatch_seq (s : State) : (bindDispatch s).seq = s.seq := rfl
@[simp] theorem bindDispatch_handle (s : State) : (bindDispatch s).handle = s.handle := rfl
@[simp] theorem bindDispatch_config (s : State) : (bindDispatch s).config = s.config := rfl
@[simp] theorem bindDispatch_pinMap (s : State) : (bindDispatch s).pinMap = s.pinMap := rfl
@[simp] theorem bindDispatch_dispatch (s : State) : (bindDispatch s).dispatch = s.config.bind fun dc => DispatchTable.forMode dc.mode := rfl
@[simp] theorem bindDispatch_lock (s : State) : (bindDispatch s).lock = s.lock := rfl
@[simp] theorem bindDispatch_text (s : State) : (bindDispatch s).text = s.text := rfl
@[simp] theorem bindDispatch_latched (s : State) : (bindDispatch s).latched = s.latched := rfl
@[simp] theorem bindDispatch_trace (s : State) : (bindDispatch s).trace = s.trace := rfl
@[simp] theorem bindDispatch_now (s : State) : (bindDispatch s).now = s.now + Config.overrun s.env.draws := rfl
@[simp] theorem bindDispatch_calls (s : State) : (bindDispatch s).calls = s.calls := rfl
@[simp] theorem bindDispatch_result (s : State) : (bindDispatch s).result = s.result := rfl
@[simp] theorem bindDispatch_cfg (s : State) : (bindDispatch s).cfg = s.cfg := rfl
@[simp] theorem bindDispatch_otherPins (s : State) : (bindDispatch s).otherPins = s.otherPins := rfl
@[simp] theorem bindDispatch_pending (s : State) : (bindDispatch s).pending = s.pending := rfl
@[simp] theorem bindDispatch_cur (s : State) : (bindDispatch s).cur = s.cur := rfl
@[simp] theorem bindDispatch_grain (s : State) : (bindDispatch s).grain = s.grain := rfl
@[simp] theorem bindDispatch_env (s : State) : (bindDispatch s).env = { s.env with draws := s.env.draws + 1 } := rfl

end Sys2Proof.Machine
end

