-- ==== Sys2Proof/Laws/Pins.lean ====
section
/-! SUPPORT. What pin activity can do, said once: a run of configure calls, set calls and sleeps is
described by the events it appends. -/

namespace Sys2Proof.Machine

/-! ### The cells of a role -/

@[simp] theorem PerPin.get_set_self {α : Type} (x : PerPin α) (p : Role) (a : α) :
    (x.set p a).get p = a := by cases p <;> rfl

theorem PerPin.get_set_ne {α : Type} (x : PerPin α) {p q : Role} (a : α) (h : q ≠ p) :
    (x.set p a).get q = x.get q := by
  cases p <;> cases q <;> first | rfl | exact absurd rfl h

/-! ### Sequences of events -/

@[simp] theorem driveAll_nil (pins : PerPin Level) : driveAll [] pins = pins := rfl

@[simp] theorem driveAll_cons (e : Event) (evs : List Event) (pins : PerPin Level) :
    driveAll (e :: evs) pins = driveAll evs (driveEvent pins e) := rfl

theorem driveAll_append (a b : List Event) (pins : PerPin Level) :
    driveAll (a ++ b) pins = driveAll b (driveAll a pins) := List.foldl_append

@[simp] theorem configAll_nil (dirs : PerPin Dir) : configAll [] dirs = dirs := rfl

@[simp] theorem configAll_cons (e : Event) (evs : List Event) (dirs : PerPin Dir) :
    configAll (e :: evs) dirs = configAll evs (configEvent dirs e) := rfl

theorem configAll_append (a b : List Event) (dirs : PerPin Dir) :
    configAll (a ++ b) dirs = configAll b (configAll a dirs) := List.foldl_append

theorem callsOf_append (pm : PinMap) (a b : List Event) :
    callsOf pm (a ++ b) = callsOf pm a ++ callsOf pm b := List.filterMap_append

/-- The pin map in use depends on the handle's pin map and the request at the port alone. -/
theorem State.pinMapInUse_congr {s t : State} (h1 : t.pinMap = s.pinMap) (h2 : t.cur = s.cur) :
    t.pinMapInUse = s.pinMapInUse := by
  unfold State.pinMapInUse
  rw [h1, h2]

theorem waitedMs_append (a b : List Event) : waitedMs (a ++ b) = waitedMs a + waitedMs b := by
  induction a with
  | nil => simp [waitedMs]
  | cons e a ih => cases e <;> simp [waitedMs, ih]; omega

/-- The images one event can add to `latched` from given latches (10_state.md R31;
93_implementation_defined.md U5). -/
def EdgeOf (pins : PerPin Level) (e : Event) (imgs : List Image) : Prop :=
  if e = .set .en false true then EdgeImages pins imgs else imgs = []

/-- The images a sequence of events can add to `latched` from given latches. -/
def EdgesOf (pins : PerPin Level) : List Event → List Image → Prop
  | [], imgs => imgs = []
  | e :: rest, imgs => ∃ a b, imgs = a ++ b ∧ EdgeOf pins e a ∧ EdgesOf (driveEvent pins e) rest b

theorem EdgesOf.append {a b : List Event} {pins : PerPin Level} {x y : List Image}
    (ha : EdgesOf pins a x) (hb : EdgesOf (driveAll a pins) b y) : EdgesOf pins (a ++ b) (x ++ y) := by
  induction a generalizing pins x with
  | nil => cases ha; simpa using hb
  | cons e a ih =>
    obtain ⟨u, v, rfl, hu, hv⟩ := ha
    exact ⟨u, v ++ y, by simp, hu, ih hv hb⟩

theorem EdgesOf.split {a b : List Event} {pins : PerPin Level} {z : List Image}
    (h : EdgesOf pins (a ++ b) z) :
    ∃ x y, z = x ++ y ∧ EdgesOf pins a x ∧ EdgesOf (driveAll a pins) b y := by
  induction a generalizing pins z with
  | nil => exact ⟨[], z, rfl, rfl, h⟩
  | cons e a ih =>
    obtain ⟨u, v, rfl, hu, hv⟩ := h
    obtain ⟨x, y, rfl, hx, hy⟩ := ih hv
    exact ⟨u ++ x, y, by simp, ⟨u, x, rfl, hu, hx⟩, hy⟩

theorem Level.toBool_of_known {l : Level} (h : l ≠ .unknown) (x y : Bool) : l.toBool x = l.toBool y := by
  cases l <;> first | rfl | exact absurd rfl h

theorem busImage_of_known {pins : PerPin Level} (h : pinsKnown pins = true) (a b : Image) :
    busImage a pins = busImage b pins := by
  simp only [pinsKnown, PerPin.toList, List.all_cons, List.all_nil, Bool.and_true,
    Bool.and_eq_true, bne_iff_ne] at h
  obtain ⟨h1, h2, -, h4, h5, h6, h7⟩ := h
  unfold busImage
  rw [Level.toBool_of_known h1 _ (b.getLsbD 5), Level.toBool_of_known h2 _ (b.getLsbD 4),
    Level.toBool_of_known h7 _ (b.getLsbD 3), Level.toBool_of_known h6 _ (b.getLsbD 2),
    Level.toBool_of_known h5 _ (b.getLsbD 1), Level.toBool_of_known h4 _ (b.getLsbD 0)]

theorem pinsKnown_driveEvent {pins : PerPin Level} (h : pinsKnown pins = true) (e : Event) :
    pinsKnown (driveEvent pins e) = true := by
  cases e with
  | set p v r =>
    cases r with
    | false => exact h
    | true =>
      obtain ⟨rs, rw, en, d4, d5, d6, d7⟩ := pins
      cases p <;> cases v <;>
        simp_all [pinsKnown, driveEvent, PerPin.set, PerPin.toList, Level.ofBool]
  | _ => exact h

/-- From known latches the images are exactly those of `edgeImages` (10_state.md R31). -/
theorem EdgesOf.eq_edgeImages {evs : List Event} {pins : PerPin Level} {imgs : List Image}
    (hk : pinsKnown pins = true) (h : EdgesOf pins evs imgs) : imgs = edgeImages pins evs := by
  induction evs generalizing pins imgs with
  | nil => exact h
  | cons e evs ih =>
    obtain ⟨a, b, rfl, ha, hb⟩ := h
    rw [ih (pinsKnown_driveEvent hk e) hb]
    unfold EdgeOf EdgeImages at ha
    split at ha
    · next he =>
      subst he
      rw [edgeImages]
      congr 1
      cases hp : pins.en with
      | low => simpa [hp] using ha
      | high =>
        simp only [hp] at ha
        obtain ⟨free, rfl⟩ := ha
        simp [busImage_of_known hk free 0#6]
      | unknown => simp [pinsKnown, PerPin.toList, hp] at hk
    · next he =>
      subst ha
      rw [edgeImages]
      exact he

/-! ### The effect of pin activity -/

/-- Pin activity that appended `evs`: calls, latches, directions, images and time follow the events, and nothing
else of the state changes but the answers used. -/
structure PinEffect (evs : List Event) (s t : State) : Prop where
  trace : t.trace = s.trace ++ evs
  calls : t.calls = s.calls ++ callsOf s.pinMapInUse evs
  pins : t.pins = driveAll evs s.pins
  dirs : t.dirs = configAll evs s.dirs
  now : s.now + waitedMs evs ≤ t.now
  latched : ∃ imgs, t.latched = s.latched ++ imgs ∧ EdgesOf s.pins evs imgs
  seq : t.seq = s.seq
  handle : t.handle = s.handle
  config : t.config = s.config
  pinMap : t.pinMap = s.pinMap
  dispatch : t.dispatch = s.dispatch
  lock : t.lock = s.lock
  text : t.text = s.text
  result : t.result = s.result
  cfg : t.cfg = s.cfg
  otherPins : t.otherPins = s.otherPins
  pending : t.pending = s.pending
  cur : t.cur = s.cur
  alloc : t.env.alloc = s.env.alloc
  pick : t.env.pick = s.env.pick
  grain : t.grain = s.grain

theorem PinEffect.refl (s : State) : PinEffect [] s s where
  trace := by simp
  calls := by simp [callsOf]
  pins := rfl
  dirs := rfl
  now := by simp [waitedMs]
  latched := ⟨[], by simp, rfl⟩
  seq := rfl
  handle := rfl
  config := rfl
  pinMap := rfl
  dispatch := rfl
  lock := rfl
  text := rfl
  result := rfl
  cfg := rfl
  otherPins := rfl
  pending := rfl
  cur := rfl
  alloc := rfl
  pick := rfl
  grain := rfl

theorem PinEffect.trans {a b : List Event} {s t u : State} (h1 : PinEffect a s t)
    (h2 : PinEffect b t u) : PinEffect (a ++ b) s u where
  trace := by rw [h2.trace, h1.trace, List.append_assoc]
  calls := by
    rw [h2.calls, h1.calls, State.pinMapInUse_congr h1.pinMap h1.cur, List.append_assoc, ← callsOf_append]
  pins := by rw [h2.pins, h1.pins, driveAll_append]
  dirs := by rw [h2.dirs, h1.dirs, configAll_append]
  now := by
    have := h1.now
    have := h2.now
    rw [waitedMs_append]
    omega
  latched := by
    obtain ⟨x, hx, ex⟩ := h1.latched
    obtain ⟨y, hy, ey⟩ := h2.latched
    refine ⟨x ++ y, by rw [hy, hx, List.append_assoc], ex.append ?_⟩
    rw [h1.pins] at ey
    exact ey
  seq := h2.seq.trans h1.seq
  handle := h2.handle.trans h1.handle
  config := h2.config.trans h1.config
  pinMap := h2.pinMap.trans h1.pinMap
  dispatch := h2.dispatch.trans h1.dispatch
  lock := h2.lock.trans h1.lock
  text := h2.text.trans h1.text
  result := h2.result.trans h1.result
  cfg := h2.cfg.trans h1.cfg
  otherPins := h2.otherPins.trans h1.otherPins
  pending := h2.pending.trans h1.pending
  cur := h2.cur.trans h1.cur
  alloc := h2.alloc.trans h1.alloc
  pick := h2.pick.trans h1.pick
  grain := h2.grain.trans h1.grain

/-! ### One call -/

theorem drawGpio_cons {s : State} {b : Bool} {rest : List Bool} (h : s.env.gpio = b :: rest) :
    s.drawGpio = (b, { s with env := { s.env with gpio := rest } }) := by
  simp [State.drawGpio, h]

/-- What the answers of GPIO calls do not touch. -/
structure SameTapes (e e' : Env) : Prop where
  alloc : e'.alloc = e.alloc
  pick : e'.pick = e.pick

theorem SameTapes.refl (e : Env) : SameTapes e e := ⟨rfl, rfl⟩

/-- Is a SET(EN,0) with EN unknown a falling edge: what drawing that changes. -/
theorem drawEdge_cases (s : State) :
    ∃ e env, s.drawEdge = (e, { s with env := env }) ∧ env.gpio = s.env.gpio ∧ SameTapes s.env env := by
  unfold State.drawEdge
  split <;> exact ⟨_, _, rfl, rfl, rfl, rfl⟩

/-- The images of a SET(EN,0) and what drawing them changes. -/
theorem latchEdge_spec (s : State) :
    ∃ imgs env, latchEdge s = { s with latched := s.latched ++ imgs, env := env }
      ∧ EdgeImages s.pins imgs ∧ env.gpio = s.env.gpio ∧ SameTapes s.env env := by
  unfold latchEdge EdgeImages
  cases hp : s.pins.en with
  | low => exact ⟨[], s.env, by simp, by simp, rfl, .refl _⟩
  | high => exact ⟨_, s.env, rfl, by simpa using ⟨_, rfl⟩, rfl, .refl _⟩
  | unknown =>
    obtain ⟨⟨e, im⟩, env, hd, h1, h2⟩ := drawEdge_cases s
    cases e
    · exact ⟨[], env, by simp [hd], by simp, h1, h2⟩
    · exact ⟨[im], env, by simp [hd], by simp, h1, h2⟩

/-- The answer of a GPIO call, its tape, and that nothing else is touched. -/
theorem drawGpio_cases (s : State) :
    ∃ b env, s.drawGpio = (b, { s with env := env }) ∧ SameTapes s.env env
      ∧ ∀ c rest, s.env.gpio = c :: rest → b = c ∧ env.gpio = rest := by
  unfold State.drawGpio
  cases h : s.env.gpio with
  | nil => exact ⟨_, _, rfl, ⟨rfl, rfl⟩, by simp⟩
  | cons c rest => exact ⟨_, _, rfl, ⟨rfl, rfl⟩, by simp⟩

/-- A configure call with answer `b` (40_pin_configuration.md R90). -/
theorem gpioCfg_spec (p : Role) (s : State) :
    ∃ b, PinEffect [.cfg p b] s (gpioCfg p s).1
      ∧ (gpioCfg p s).2 = (if b then none else some (.gpio (.cfgFail p)))
      ∧ ∀ c rest, s.env.gpio = c :: rest → b = c ∧ (gpioCfg p s).1.env.gpio = rest := by
  obtain ⟨b, env, hd, ⟨h1, h2⟩, h5⟩ := drawGpio_cases s
  refine ⟨b, ?_, ?_, ?_⟩ <;> unfold gpioCfg <;> rw [hd] <;> cases b
  · constructor <;> first | rfl | simp [waitedMs, EdgesOf, EdgeOf, h1, h2]
  · constructor <;> first | rfl | simp [waitedMs, EdgesOf, EdgeOf, h1, h2]
  · simp
  · simp
  · simpa using h5
  · simpa using h5

/-- Driving a line after its call was logged. -/
theorem driveLine_spec (p : Role) (v : Bool) (s t : State) (hp : s.pins = t.pins) :
    ∃ imgs env, driveLine p v s =
        { s with pins := s.pins.set p (Level.ofBool v), latched := s.latched ++ imgs, env := env }
      ∧ EdgeOf t.pins (.set p v true) imgs ∧ env.gpio = s.env.gpio ∧ SameTapes s.env env := by
  unfold driveLine
  by_cases hen : p = .en ∧ v = false
  · obtain ⟨rfl, rfl⟩ := hen
    obtain ⟨imgs, env, hl, he, g1, g2⟩ := latchEdge_spec s
    refine ⟨imgs, env, ?_, by rw [hp] at he; exact he, g1, g2⟩
    simp [hl]
  · refine ⟨[], s.env, by simp [hen], ?_, rfl, .refl _⟩
    unfold EdgeOf
    rw [if_neg]
    intro h
    cases h
    exact hen ⟨rfl, rfl⟩

/-- A set call with answer `b` (40_pin_configuration.md R91). -/
theorem gpioSet_spec (p : Role) (v : Bool) (s : State) :
    ∃ b, PinEffect [.set p v b] s (gpioSet p v s).1
      ∧ (gpioSet p v s).2 = (if b then none else some (.gpio (.setFail p)))
      ∧ ∀ c rest, s.env.gpio = c :: rest → b = c ∧ (gpioSet p v s).1.env.gpio = rest := by
  obtain ⟨b, env, hd, ⟨h1, h2⟩, h5⟩ := drawGpio_cases s
  refine ⟨b, ?_⟩
  unfold gpioSet
  rw [hd]
  cases b with
  | false =>
    refine ⟨?_, by simp, by simpa using h5⟩
    constructor <;> first | rfl | simp [waitedMs, EdgesOf, EdgeOf, h1, h2]
  | true =>
    obtain ⟨imgs, env', hl, he, g1, g2, g3⟩ :=
      driveLine_spec p v
        ((State.log (.set p v true) (State.call p (.setLevel v) true { s with env := env })).tick) s rfl
    simp only [if_true, hl]
    refine ⟨?_, trivial, fun c rest hc => ⟨(h5 c rest hc).1, g1.trans (h5 c rest hc).2⟩⟩
    constructor <;>
      first
        | rfl
        | exact ⟨imgs, rfl, imgs, [], by simp, he, rfl⟩
        | simp [waitedMs, h1, h2, g2, g3]

/-- A sleep (40_pin_configuration.md R92). -/
theorem sleepFor_spec (t : Nat) (s : State) : PinEffect [.wait t] s (sleepFor t s) := by
  constructor <;> simp [configEvent, driveEvent, waitedMs, EdgesOf, EdgeOf, callsOf, callOf]

/-! ### Runs of pin activity -/

/-- A configure call, a set call or a sleep. -/
def Micro.isPin : Micro → Bool
  | .cfg _ => true
  | .set _ _ => true
  | .sleep _ => true
  | _ => false

/-- The event of a micro-step of pin activity that succeeds. -/
def Micro.okEvent : Micro → Event
  | .cfg p => .cfg p true
  | .set p v => .set p v true
  | .sleep t => .wait t
  | _ => .free

/-- One micro-step of pin activity: it appends its event, or the event of a call answered err and raises that
call's cause. -/
theorem Micro.act_pin {m : Micro} (hm : m.isPin = true) (s : State) :
    ∃ evs, PinEffect evs s (m.act s).1
      ∧ (((m.act s).2 = none ∧ evs = [m.okEvent])
        ∨ ∃ f, (m.act s).2 = some (.gpio f) ∧ evs = cutAt 0 [m.okEvent] ∧ lastCause evs = some f) := by
  cases m with
  | cfg p =>
    obtain ⟨b, h1, h2, -⟩ := gpioCfg_spec p s
    refine ⟨_, h1, ?_⟩
    cases b
    · exact .inr ⟨_, h2, rfl, rfl⟩
    · exact .inl ⟨h2, rfl⟩
  | set p v =>
    obtain ⟨b, h1, h2, -⟩ := gpioSet_spec p v s
    refine ⟨_, h1, ?_⟩
    cases b
    · exact .inr ⟨_, h2, rfl, rfl⟩
    · exact .inl ⟨h2, rfl⟩
  | sleep t => exact ⟨_, sleepFor_spec t s, .inl ⟨rfl, rfl⟩⟩
  | _ => cases hm

/-- The number of GPIO calls of a micro-step. -/
def Micro.calls : Micro → Nat
  | .cfg _ => 1
  | .set _ _ => 1
  | _ => 0

/-- The events of pin activity that succeeds. -/
def codeEvents (code : Code) : List Event := code.map fun pm => pm.2.okEvent

/-- The number of GPIO calls of pin activity. -/
def codeCalls : Code → Nat
  | [] => 0
  | pm :: rest => pm.2.calls + codeCalls rest

/-- Every micro-step is pin activity. -/
def allPin (code : Code) : Bool := code.all fun pm => pm.2.isPin

theorem codeEvents_append (a b : Code) : codeEvents (a ++ b) = codeEvents a ++ codeEvents b := by
  simp [codeEvents]

theorem codeCalls_append (a b : Code) : codeCalls (a ++ b) = codeCalls a + codeCalls b := by
  induction a with
  | nil => simp [codeCalls]
  | cons x a ih => simp [codeCalls, ih]; omega

theorem allPin_append (a b : Code) : allPin (a ++ b) = (allPin a && allPin b) := by simp [allPin]

theorem runCode_whole_cons (pos : Pos) (m : Micro) (rest : Code) (s : State) :
    runCode .whole ((pos, m) :: rest) s =
      match m.act s with
      | (t, some f) => (t, .failed pos f)
      | (t, none) => runCode .whole rest t := by
  rcases h : m.act s with ⟨t, _ | f⟩ <;> simp [runCode, h]

/-- A run by one micro-step (10_state.md R25). -/
theorem runCode_micro_cons (pos : Pos) (m : Micro) (rest : Code) (s : State) :
    runCode .micro ((pos, m) :: rest) s =
      match m.act s with
      | (t, some f) => (t, .failed pos f)
      | (t, none) =>
        match rest with
        | [] => (t, .done)
        | (q, _) :: _ => (t, .paused q) := by
  rw [runCode]
  rcases m.act s with ⟨t, _ | f⟩ <;> cases rest <;> rfl

/-- A whole run of two pieces of code is a run of the second after a run of the first that
ended. -/
theorem runCode_whole_append (a b : Code) (s : State) :
    runCode .whole (a ++ b) s =
      match runCode .whole a s with
      | (t, .done) => runCode .whole b t
      | r => r := by
  induction a generalizing s with
  | nil => simp [runCode]
  | cons x a ih =>
    obtain ⟨pos, m⟩ := x
    rw [List.cons_append, runCode_whole_cons, runCode_whole_cons]
    split
    · rfl
    · exact ih _

/-- A run of pin activity whose calls are all answered ok. -/
theorem runCode_pin_ok {code : Code} {s : State} (hp : allPin code = true)
    (hg : s.env.gpio.take (codeCalls code) = List.replicate (codeCalls code) true) :
    ∃ t, runCode .whole code s = (t, .done) ∧ PinEffect (codeEvents code) s t
      ∧ t.env.gpio = s.env.gpio.drop (codeCalls code) := by
  induction code generalizing s with
  | nil => exact ⟨s, rfl, PinEffect.refl s, by simp [codeCalls]⟩
  | cons x code ih =>
    obtain ⟨pos, m⟩ := x
    simp only [allPin, List.all_cons, Bool.and_eq_true] at hp
    obtain ⟨hm, hp⟩ := hp
    rw [runCode_whole_cons]
    have key : ∃ t, m.act s = (t, none) ∧ PinEffect [m.okEvent] s t
        ∧ t.env.gpio = s.env.gpio.drop m.calls := by
      cases m with
      | cfg p =>
        obtain ⟨b, h1, h2, h3⟩ := gpioCfg_spec p s
        cases hc : s.env.gpio with
        | nil => simp [hc, codeCalls, Micro.calls, Nat.add_comm 1, List.replicate_succ] at hg
        | cons c rest =>
          obtain ⟨rfl, h4⟩ := h3 c rest hc
          simp only [hc, codeCalls, Micro.calls, Nat.add_comm 1, List.take_succ_cons,
            List.replicate_succ, List.cons.injEq] at hg
          obtain ⟨rfl, -⟩ := hg
          exact ⟨_, Prod.ext rfl h2, h1, h4⟩
      | set p v =>
        obtain ⟨b, h1, h2, h3⟩ := gpioSet_spec p v s
        cases hc : s.env.gpio with
        | nil => simp [hc, codeCalls, Micro.calls, Nat.add_comm 1, List.replicate_succ] at hg
        | cons c rest =>
          obtain ⟨rfl, h4⟩ := h3 c rest hc
          simp only [hc, codeCalls, Micro.calls, Nat.add_comm 1, List.take_succ_cons,
            List.replicate_succ, List.cons.injEq] at hg
          obtain ⟨rfl, -⟩ := hg
          exact ⟨_, Prod.ext rfl h2, h1, h4⟩
      | sleep t => exact ⟨_, rfl, sleepFor_spec t s, rfl⟩
      | _ => cases hm
    obtain ⟨t, ht, hpe, hgp⟩ := key
    rw [ht]
    have hg' : t.env.gpio.take (codeCalls code) = List.replicate (codeCalls code) true := by
      rw [hgp, List.take_drop]
      have := congrArg (List.drop m.calls) hg
      rw [List.drop_replicate] at this
      simpa [codeCalls] using this
    obtain ⟨u, hu, hpu, hgu⟩ := ih hp hg'
    refine ⟨u, hu, hpe.trans hpu, ?_⟩
    rw [hgu, hgp, List.drop_drop]
    rfl

/-- A run of pin activity whose call number `k` is the first answered err: it stops there, with the cause of that
call. -/
theorem runCode_pin_fail {code : Code} {s : State} {k : Nat} (hp : allPin code = true)
    (hk : k < codeCalls code) (hg : GpioFailsAt k s) :
    ∃ t f pos, runCode .whole code s = (t, .failed pos (.gpio f))
      ∧ PinEffect (cutAt k (codeEvents code)) s t
      ∧ lastCause (cutAt k (codeEvents code)) = some f ∧ pos ∈ code.map Prod.fst := by
  induction code generalizing s k with
  | nil => simp [codeCalls] at hk
  | cons x code ih =>
    obtain ⟨pos, m⟩ := x
    simp only [allPin, List.all_cons, Bool.and_eq_true] at hp
    obtain ⟨hm, hp⟩ := hp
    rw [runCode_whole_cons]
    have push : ∀ (t : State) (k' : Nat), m.act s = (t, none) → PinEffect [m.okEvent] s t →
        k' < codeCalls code → GpioFailsAt k' t →
        (∀ evs, cutAt k (m.okEvent :: evs) = m.okEvent :: cutAt k' evs) →
        ∃ t f pos', (match m.act s with
            | (t, some f) => (t, Halt.failed pos f)
            | (t, none) => runCode .whole code t) = (t, .failed pos' (.gpio f))
          ∧ PinEffect (cutAt k (codeEvents ((pos, m) :: code))) s t
          ∧ lastCause (cutAt k (codeEvents ((pos, m) :: code))) = some f
          ∧ pos' ∈ ((pos, m) :: code).map Prod.fst := by
      intro t k' ht hpe hk' hg' hcut
      obtain ⟨u, f, q, hu, hpu, hf, hq⟩ := ih hp hk' hg'
      refine ⟨u, f, q, by rw [ht]; exact hu, ?_, ?_, by simp [List.mem_map.mp hq]⟩
      · show PinEffect (cutAt k (m.okEvent :: codeEvents code)) s u
        rw [hcut]
        exact hpe.trans hpu
      · show lastCause (cutAt k (m.okEvent :: codeEvents code)) = some f
        rw [hcut]
        unfold lastCause at hf ⊢
        cases hc : cutAt k' (codeEvents code) with
        | nil => simp [hc] at hf
        | cons a b => rw [hc] at hf; simpa [List.getLast?_cons_cons] using hf
    have call : ∀ (ev : Bool → Event) (t : State) (b : Bool) (fc : GpioCause),
        m.okEvent = ev true → m.calls = 1 →
        (∀ evs, cutAt 0 (ev true :: evs) = [ev false]) →
        (∀ j evs, cutAt (j + 1) (ev true :: evs) = ev true :: cutAt j evs) →
        causeOf (ev false) = some fc →
        m.act s = (t, if b then none else some (.gpio fc)) → PinEffect [ev b] s t →
        (∀ c rest, s.env.gpio = c :: rest → b = c ∧ t.env.gpio = rest) →
        ∃ t f pos', (match m.act s with
            | (t, some f) => (t, Halt.failed pos f)
            | (t, none) => runCode .whole code t) = (t, .failed pos' (.gpio f))
          ∧ PinEffect (cutAt k (codeEvents ((pos, m) :: code))) s t
          ∧ lastCause (cutAt k (codeEvents ((pos, m) :: code))) = some f
          ∧ pos' ∈ ((pos, m) :: code).map Prod.fst := by
      intro ev t b fc hev hcalls hc0 hcs hcause hact hpe hgp
      cases hc : s.env.gpio with
      | nil => cases k <;> simp [GpioFailsAt, hc, List.replicate_succ] at hg
      | cons c rest =>
        obtain ⟨rfl, h4⟩ := hgp c rest hc
        cases k with
        | zero =>
          have hb : b = false := by simpa [GpioFailsAt, hc] using hg
          subst hb
          refine ⟨t, fc, pos, by rw [hact]; rfl, ?_, ?_, by simp⟩
          · show PinEffect (cutAt 0 (m.okEvent :: codeEvents code)) s t
            rw [hev, hc0]
            exact hpe
          · show lastCause (cutAt 0 (m.okEvent :: codeEvents code)) = some fc
            rw [hev, hc0]
            simpa [lastCause] using hcause
        | succ j =>
          have hb : b = true ∧ rest.take (j + 1) = List.replicate j true ++ [false] := by
            simpa [GpioFailsAt, hc, List.replicate_succ] using hg
          obtain ⟨rfl, hrest⟩ := hb
          refine push t j hact (by rw [hev]; exact hpe) ?_ ?_ ?_
          · simp only [codeCalls, hcalls] at hk; omega
          · rw [GpioFailsAt, h4]; exact hrest
          · intro evs; rw [hev]; exact hcs j evs
    cases m with
    | cfg p =>
      obtain ⟨b, h1, h2, h3⟩ := gpioCfg_spec p s
      exact call (fun r => .cfg p r) _ b (.cfgFail p) rfl rfl (fun _ => rfl) (fun _ _ => rfl) rfl
        (Prod.ext rfl h2) h1 h3
    | set p v =>
      obtain ⟨b, h1, h2, h3⟩ := gpioSet_spec p v s
      exact call (fun r => .set p v r) _ b (.setFail p) rfl rfl (fun _ => rfl) (fun _ _ => rfl) rfl
        (Prod.ext rfl h2) h1 h3
    | sleep t =>
      refine push _ k rfl (sleepFor_spec t s) ?_ ?_ ?_
      · simpa [codeCalls, Micro.calls] using hk
      · simpa [GpioFailsAt] using hg
      · intro evs; cases k <;> rfl
    | _ => cases hm

end Sys2Proof.Machine
end

