-- ==== Sys2Proof/Laws/Follow.lean ====
section
/-! SUPPORT. What every shared operation does to latches, directions, images, time and trace, said once per
operation: they follow the events it appends. -/

namespace Sys2Proof.Machine

/-- An event that drives no pin, configures none, waits for nothing and shows no image. -/
def Event.isQuiet : Event → Bool
  | .cfg _ _ => false
  | .set _ _ _ => false
  | .wait _ => false
  | _ => true

/-- The pins, the ghosts and the parameters after the events `evs`. -/
structure Follows (evs : List Event) (s t : State) : Prop where
  trace : t.trace = s.trace ++ evs
  pins : t.pins = driveAll evs s.pins
  dirs : t.dirs = configAll evs s.dirs
  now : s.now + waitedMs evs ≤ t.now
  latched : ∃ imgs, t.latched = s.latched ++ imgs ∧ EdgesOf s.pins evs imgs
  cfg : t.cfg = s.cfg
  otherPins : t.otherPins = s.otherPins
  cur : t.cur = s.cur
  grain : t.grain = s.grain

theorem PinEffect.follows {evs : List Event} {s t : State} (h : PinEffect evs s t) : Follows evs s t :=
  ⟨h.trace, h.pins, h.dirs, h.now, h.latched, h.cfg, h.otherPins, h.cur, h.grain⟩

theorem Follows.refl (s : State) : Follows [] s s := (PinEffect.refl s).follows

theorem Follows.trans {a b : List Event} {s t u : State} (h1 : Follows a s t) (h2 : Follows b t u) :
    Follows (a ++ b) s u where
  trace := by rw [h2.trace, h1.trace, List.append_assoc]
  pins := by rw [h2.pins, h1.pins, driveAll_append]
  dirs := by rw [h2.dirs, h1.dirs, configAll_append]
  now := by
    have := h1.now
    have := h2.now
    rw [waitedMs_append]
    omega
  latched := by
    obtain ⟨x, hx, ex⟩ := h1.latched
    obtain ⟨y, hy, ey⟩ := h2.latched
    refine ⟨x ++ y, by rw [hy, hx, List.append_assoc], ex.append ?_⟩
    rw [h1.pins] at ey
    exact ey
  cfg := h2.cfg.trans h1.cfg
  otherPins := h2.otherPins.trans h1.otherPins
  cur := h2.cur.trans h1.cur
  grain := h2.grain.trans h1.grain

theorem quiet_spec {evs : List Event} (hq : evs.all Event.isQuiet = true) (pins : PerPin Level)
    (dirs : PerPin Dir) :
    driveAll evs pins = pins ∧ configAll evs dirs = dirs ∧ waitedMs evs = 0 ∧ EdgesOf pins evs [] := by
  induction evs with
  | nil => exact ⟨rfl, rfl, rfl, rfl⟩
  | cons e evs ih =>
    simp only [List.all_cons, Bool.and_eq_true] at hq
    obtain ⟨h1, h2, h3, h4⟩ := ih hq.2
    cases e <;>
      first
        | (simp [Event.isQuiet] at hq; done)
        | exact ⟨h1, h2, h3, [], [], rfl, by simp [EdgeOf], h4⟩

/-- A change that touches no pin and appends only quiet events. -/
theorem Follows.of_quiet {evs : List Event} {s t : State} (hq : evs.all Event.isQuiet = true)
    (trace : t.trace = s.trace ++ evs) (pins : t.pins = s.pins) (dirs : t.dirs = s.dirs)
    (now : s.now ≤ t.now) (latched : t.latched = s.latched) (cfg : t.cfg = s.cfg)
    (otherPins : t.otherPins = s.otherPins) (cur : t.cur = s.cur) (grain : t.grain = s.grain) : Follows evs s t := by
  obtain ⟨h1, h2, h3, h4⟩ := quiet_spec hq s.pins s.dirs
  exact ⟨trace, by rw [pins, h1], by rw [dirs, h2], by rw [h3]; exact now,
    ⟨[], by simp [latched], h4⟩, cfg, otherPins, cur, grain⟩

theorem tick_follows (s : State) : Follows [] s s.tick :=
  .of_quiet rfl (by simp) rfl rfl (by simp) rfl rfl rfl rfl rfl

theorem refuseErr_follows (c : Cause) (s : State) :
    Follows [.ret s.cur.requester (.err c)] s (refuseErr c s) :=
  .of_quiet rfl (by simp) rfl rfl (by simp) rfl rfl rfl rfl rfl

theorem refuseNull_follows (c : Cause) (s : State) :
    Follows [.ret s.cur.requester (.null c)] s (refuseNull c s) :=
  .of_quiet rfl (by simp) rfl rfl (by simp) rfl rfl rfl rfl rfl

theorem waitTurn_follows (s : State) : Follows [] s (waitTurn s) :=
  .of_quiet rfl (by simp) rfl rfl (by simp) rfl rfl rfl rfl rfl

theorem bindDispatch_follows (s : State) : Follows [] s (bindDispatch s) :=
  .of_quiet rfl (by simp) rfl rfl (by simp) rfl rfl rfl rfl rfl

theorem publishHandle_follows (c : Requester) (s : State) :
    Follows [.ret c .handle] s (publishHandle c s) :=
  .of_quiet rfl (by simp) rfl rfl (by simp) rfl rfl rfl rfl rfl

/-- Reading the text appends the read byte (43_public_operations.md R125). -/
theorem textRead_follows (i : Nat) (s : State) :
    Follows (match Memory.read s.text i with | some b => [.rd i b] | none => []) s (textRead i s) := by
  unfold textRead
  cases Memory.read s.text i with
  | some b => exact .of_quiet rfl (by simp) rfl rfl (by simp) rfl rfl rfl rfl rfl
  | none => exact .refl s

theorem lockAcquire_follows (c : Requester) (s : State) :
    Follows (if s.lock = .free then [.acq c] else []) s ((lockAcquire c s).getD s) := by
  unfold lockAcquire
  split
  · exact .of_quiet rfl rfl rfl rfl (Nat.le_refl _) rfl rfl rfl rfl rfl
  · exact .refl s

/-- The events of a release (20_memory.md R62). -/
def releaseEvents (c : Requester) (l : Lock) : List Event := if l = .held c then [.rel c] else []

theorem lockRelease_follows (c : Requester) (s : State) :
    Follows (releaseEvents c s.lock) s (lockRelease c s) := by
  unfold lockRelease releaseEvents
  split
  · exact .of_quiet rfl rfl rfl rfl (Nat.le_refl _) rfl rfl rfl rfl rfl
  · exact .refl s

theorem releaseOk_follows (c : Requester) (s : State) :
    Follows (releaseEvents c s.lock ++ [.ret c .ok]) s (releaseOk c s) :=
  (lockRelease_follows c s).trans (.of_quiet rfl rfl rfl rfl (Nat.le_refl _) rfl rfl rfl rfl rfl)

theorem drawAlloc_spec (s : State) :
    ∃ b env, s.drawAlloc = (b, { s with env := env }) ∧ env.gpio = s.env.gpio ∧ env.pick = s.env.pick
      ∧ ∀ c rest, s.env.alloc = c :: rest → b = c ∧ env.alloc = rest := by
  unfold State.drawAlloc
  cases h : s.env.alloc with
  | nil => exact ⟨_, _, rfl, rfl, rfl, by simp⟩
  | cons c rest => exact ⟨_, _, rfl, rfl, rfl, by simp⟩

/-- INIT's allocation step with answer `b` (42_init_sequence.md R110). -/
theorem allocHandle_spec (g m : Byte) (pm : PinMap) (s : State) :
    ∃ b t, allocHandle g m pm s = (t, if b then none else some .allocFail)
      ∧ Follows [.alloc b] s t
      ∧ (b = true → t.handle = .building ∧ t.pinMap = some pm
          ∧ t.config = (Mode.ofCode m).map fun md => { geometry := g, mode := md })
      ∧ (b = false → t.handle = s.handle ∧ t.pinMap = s.pinMap ∧ t.config = s.config)
      ∧ t.dispatch = s.dispatch ∧ t.lock = s.lock ∧ t.text = s.text ∧ t.seq = s.seq
      ∧ t.pending = s.pending ∧ t.env.gpio = s.env.gpio
      ∧ ∀ c rest, s.env.alloc = c :: rest → b = c := by
  obtain ⟨b, env, hd, h1, h2, h4⟩ := drawAlloc_spec s
  unfold allocHandle
  rw [hd]
  cases b
  · exact ⟨false, _, rfl, .of_quiet rfl (by simp) rfl rfl (by simp) rfl rfl rfl rfl rfl, by simp, by simp,
      rfl, rfl, rfl, rfl, rfl, h1, fun c rest hc => (h4 c rest hc).1⟩
  · exact ⟨true, _, rfl, .of_quiet rfl (by simp) rfl rfl (by simp) rfl rfl rfl rfl rfl, by simp, by simp,
      rfl, rfl, rfl, rfl, rfl, h1, fun c rest hc => (h4 c rest hc).1⟩

/-- INIT's lock creation (42_init_sequence.md R110). -/
theorem makeLock_follows (s : State) :
    Follows (if s.cfg.lockCreateOk then [.mkLock] else []) s (makeLock s).1 := by
  unfold makeLock
  split
  · exact .of_quiet rfl (by simp) rfl rfl (by simp) rfl rfl rfl rfl rfl
  · exact tick_follows s

/-- The events of an abort (60_exceptions.md R146). -/
def abortEvents (c : Requester) (op : Op) (f : Cause) (s : State) : List Event :=
  match op with
  | .init _ _ _ => (if s.handle = .building then [.free] else []) ++ [.ret c (op.failure f)]
  | .level1 _ => []
  | _ => (if s.cfg.lockReleaseOnError then releaseEvents c s.lock else []) ++ [.ret c (op.failure f)]

theorem abortOp_follows (c : Requester) (op : Op) (f : Cause) (s : State) :
    Follows (abortEvents c op f s) s (abortOp c op f s) := by
  have rel : Follows (if s.cfg.lockReleaseOnError then releaseEvents c s.lock else []) s
      (if s.cfg.lockReleaseOnError then lockRelease c s else s) := by
    split
    · exact lockRelease_follows c s
    · exact .refl s
  cases op with
  | init g m pm =>
    refine Follows.trans (t := if s.handle = .building then teardown s else s) ?_
      (.of_quiet rfl rfl rfl rfl (by simp [abortOp, unwind, retFailure]) rfl rfl rfl rfl rfl)
    split
    · exact .of_quiet rfl (by simp) rfl rfl (by simp) rfl rfl rfl rfl rfl
    · exact .refl s
  | level1 x =>
    exact .of_quiet (evs := []) rfl (by simp [abortOp, unwind, retFailure]) rfl rfl
      (by simp [abortOp, unwind, retFailure]) rfl rfl rfl rfl rfl
  | _ => exact rel.trans (.of_quiet rfl rfl rfl rfl (by simp [abortOp, unwind, retFailure]) rfl rfl rfl rfl rfl)

/-- An abort leaves the engine idle, with the port as it was. -/
theorem abortOp_port (c : Requester) (op : Op) (f : Cause) (s : State) :
    (abortOp c op f s).seq = .idle ∧ (abortOp c op f s).pending = s.pending := by
  refine ⟨rfl, ?_⟩
  cases op <;> simp only [abortOp, unwind, retFailure, lockRelease] <;> repeat' split
  all_goals rfl

/-- What a micro-step leaves alone, and that the rest follows its events. -/
theorem Micro.act_follows (m : Micro) (s : State) :
    ∃ evs, Follows evs s (m.act s).1 ∧ (m.act s).1.pending = s.pending ∧ (m.act s).1.seq = s.seq := by
  have pin : m.isPin = true → ∃ evs, Follows evs s (m.act s).1 ∧ (m.act s).1.pending = s.pending
      ∧ (m.act s).1.seq = s.seq := by
    intro hm
    obtain ⟨evs, h, -⟩ := Micro.act_pin hm s
    exact ⟨evs, h.follows, h.pending, h.seq⟩
  cases m with
  | modeCheck code => exact ⟨_, tick_follows s, rfl, rfl⟩
  | alloc g m pm =>
    obtain ⟨b, t, he, hf, -, -, -, -, -, hs, hp, -⟩ := allocHandle_spec g m pm s
    simp only [Micro.act, he]
    exact ⟨_, hf, hp, hs⟩
  | bind => exact ⟨_, bindDispatch_follows s, rfl, rfl⟩
  | mkLock =>
    refine ⟨_, makeLock_follows s, ?_⟩
    simp only [Micro.act, makeLock]
    split <;> exact ⟨rfl, rfl⟩
  | done c => exact ⟨_, publishHandle_follows c s, rfl, rfl⟩
  | acq c =>
    refine ⟨_, (lockAcquire_follows c s).trans (tick_follows _), ?_⟩
    simp only [Micro.act, lockAcquire]
    split <;> exact ⟨rfl, rfl⟩
  | rangeCheck x y => exact ⟨_, tick_follows s, rfl, rfl⟩
  | fetch i =>
    refine ⟨_, textRead_follows i s, ?_⟩
    simp only [Micro.act, textRead]
    split <;> exact ⟨rfl, rfl⟩
  | release c =>
    refine ⟨_, (releaseOk_follows c s).trans (tick_follows _), ?_⟩
    simp only [Micro.act, releaseOk, lockRelease]
    split <;> exact ⟨rfl, rfl⟩
  | cfg p => exact pin rfl
  | set p v => exact pin rfl
  | sleep t => exact pin rfl

/-- A run of any grain is its first micro-step, then nothing more or a run of the rest. -/
theorem runCode_cons (g : Grain) (pos : Pos) (m : Micro) (rest : Code) (s : State) :
    (∃ f, (m.act s).2 = some f ∧ runCode g ((pos, m) :: rest) s = ((m.act s).1, .failed pos f))
      ∨ ((m.act s).2 = none ∧ g = .micro
          ∧ ∃ q m' rest', rest = (q, m') :: rest' ∧ runCode g ((pos, m) :: rest) s = ((m.act s).1, .paused q))
      ∨ ((m.act s).2 = none ∧ (g = .micro → rest = [])
          ∧ runCode g ((pos, m) :: rest) s = runCode g rest (m.act s).1) := by
  rw [runCode]
  rcases m.act s with ⟨t, _ | f⟩
  · refine .inr ?_
    cases g with
    | whole => exact .inr ⟨rfl, by simp, rfl⟩
    | micro =>
      cases rest with
      | nil => exact .inr ⟨rfl, fun _ => rfl, rfl⟩
      | cons y rest => exact .inl ⟨rfl, rfl, _, _, _, rfl, rfl⟩
  · exact .inl ⟨f, rfl, rfl⟩

theorem runCode_follows (g : Grain) (code : Code) (s : State) :
    ∃ evs, Follows evs s (runCode g code s).1 ∧ (runCode g code s).1.pending = s.pending
      ∧ (runCode g code s).1.seq = s.seq := by
  induction code generalizing s with
  | nil => exact ⟨[], .refl s, rfl, rfl⟩
  | cons x code ih =>
    obtain ⟨pos, m⟩ := x
    obtain ⟨a, h1, h2, h3⟩ := m.act_follows s
    rcases runCode_cons g pos m code s with ⟨f, -, he⟩ | ⟨-, -, q, -, -, -, he⟩ | ⟨-, -, he⟩ <;> rw [he]
    · exact ⟨a, h1, h2, h3⟩
    · exact ⟨a, h1, h2, h3⟩
    · obtain ⟨b, g1, g2, g3⟩ := ih (m.act s).1
      exact ⟨a ++ b, h1.trans g1, g2.trans h2, g3.trans h3⟩

/-- The last return of a run touches `seq` and the result alone. -/
theorem finishOp_follows (op : Op) (s : State) :
    Follows [] s (finishOp op s) ∧ (finishOp op s).pending = s.pending ∧ (finishOp op s).seq = .idle := by
  cases op <;> exact ⟨.of_quiet rfl (by simp [finishOp]) rfl rfl (Nat.le_refl _) rfl rfl rfl rfl rfl, rfl, rfl⟩

theorem settleRun_follows {evs : List Event} {s : State} (g : Grain) (c : Requester) (op : Op) (r : State × Halt)
    (h : Follows evs s r.1) :
    ∃ evs', Follows evs' s (settleRun g c op r) ∧ (settleRun g c op r).pending = r.1.pending := by
  obtain ⟨t, hl⟩ := r
  have quiet : ∀ sq : Seq, Follows evs s { t with seq := sq } := fun sq => by
    simpa using h.trans
      (Follows.of_quiet (evs := []) (s := t) (t := { t with seq := sq }) rfl (by simp) rfl rfl
        (Nat.le_refl _) rfl rfl rfl rfl rfl)
  cases hl with
  | done =>
    obtain ⟨h1, h2, -⟩ := finishOp_follows op t
    exact ⟨_, h.trans h1, h2⟩
  | paused q => exact ⟨_, quiet (.busy c op q), rfl⟩
  | failed pos f =>
    cases g with
    | micro => exact ⟨_, quiet _, rfl⟩
    | whole => exact ⟨_, h.trans (abortOp_follows c op _ t), (abortOp_port c op _ t).2⟩

theorem runOp_follows (c : Requester) (op : Op) (code : Code) (s : State) :
    ∃ evs, Follows evs s (runOp c op code s) ∧ (runOp c op code s).pending = s.pending := by
  obtain ⟨evs, h1, h2, -⟩ := runCode_follows s.grain code s
  obtain ⟨evs', g1, g2⟩ := settleRun_follows s.grain c op _ h1
  exact ⟨evs', g1, g2.trans h2⟩

/-! ### The calls of the GPIO layer -/

/-- The calls made are those the events record, on the pins of the pin map in use, which stays (10_state.md
R29). -/
structure Called (evs : List Event) (s t : State) : Prop where
  trace : t.trace = s.trace ++ evs
  calls : t.calls = s.calls ++ callsOf s.pinMapInUse evs
  pinMap : t.pinMap = s.pinMap
  cur : t.cur = s.cur

theorem PinEffect.called {evs : List Event} {s t : State} (h : PinEffect evs s t) : Called evs s t :=
  ⟨h.trace, h.calls, h.pinMap, h.cur⟩

theorem Called.refl (s : State) : Called [] s s := (PinEffect.refl s).called

theorem Called.trans {a b : List Event} {s t u : State} (h1 : Called a s t) (h2 : Called b t u) :
    Called (a ++ b) s u where
  trace := by rw [h2.trace, h1.trace, List.append_assoc]
  calls := by
    rw [h2.calls, h1.calls, State.pinMapInUse_congr h1.pinMap h1.cur, List.append_assoc, ← callsOf_append]
  pinMap := h2.pinMap.trans h1.pinMap
  cur := h2.cur.trans h1.cur

/-- Every micro-step but the allocation makes its calls on the pin map in use, and keeps it. -/
theorem Micro.act_called {m : Micro} (hm : ∀ g md pm, m ≠ .alloc g md pm) (s : State) :
    ∃ evs, Called evs s (m.act s).1 := by
  have pin : m.isPin = true → ∃ evs, Called evs s (m.act s).1 := fun h =>
    let ⟨evs, he, _⟩ := Micro.act_pin h s
    ⟨evs, he.called⟩
  cases m with
  | cfg p => exact pin rfl
  | set p v => exact pin rfl
  | sleep t => exact pin rfl
  | alloc g md pm => exact absurd rfl (hm g md pm)
  | modeCheck code => exact ⟨[], by constructor <;> simp [Micro.act, callsOf]⟩
  | bind => exact ⟨[], by constructor <;> simp [Micro.act, bindDispatch, callsOf]⟩
  | rangeCheck x y => exact ⟨[], by constructor <;> simp [Micro.act, callsOf]⟩
  | done c => exact ⟨[.ret c .handle], by constructor <;> simp [Micro.act, publishHandle, callsOf, callOf]⟩
  | mkLock =>
    simp only [Micro.act, makeLock]
    split
    · exact ⟨[.mkLock], by constructor <;> simp [callsOf, callOf]⟩
    · exact ⟨[], by constructor <;> simp [callsOf]⟩
  | acq c =>
    simp only [Micro.act, lockAcquire]
    split
    · exact ⟨[.acq c], by constructor <;> simp [callsOf, callOf]⟩
    · exact ⟨[], by constructor <;> simp [callsOf]⟩
  | fetch i =>
    simp only [Micro.act, textRead]
    split
    · next b _ => exact ⟨[.rd i b], by constructor <;> simp [callsOf, callOf]⟩
    · exact ⟨[], .refl s⟩
  | release c =>
    simp only [Micro.act, releaseOk, lockRelease]
    split
    · exact ⟨[.rel c, .ret c .ok], by constructor <;> simp [callsOf, callOf]⟩
    · exact ⟨[.ret c .ok], by constructor <;> simp [callsOf, callOf]⟩

/-- A run without the allocation makes its calls on the pin map in use, and keeps it. -/
theorem runCode_called {g : Grain} {code : Code} (hc : ∀ pm ∈ code, ∀ g md pins, pm.2 ≠ .alloc g md pins) (s : State) :
    ∃ evs, Called evs s (runCode g code s).1 := by
  induction code generalizing s with
  | nil => exact ⟨[], .refl s⟩
  | cons x code ih =>
    obtain ⟨pos, m⟩ := x
    obtain ⟨a, h1⟩ := Micro.act_called (hc _ (List.mem_cons_self ..)) s
    rcases runCode_cons g pos m code s with ⟨f, -, he⟩ | ⟨-, -, q, -, -, -, he⟩ | ⟨-, -, he⟩ <;> rw [he]
    · exact ⟨a, h1⟩
    · exact ⟨a, h1⟩
    · obtain ⟨b, g1⟩ := ih (fun pm h => hc pm (List.mem_cons_of_mem _ h)) (m.act s).1
      exact ⟨a ++ b, h1.trans g1⟩

end Sys2Proof.Machine
end

