-- ==== Sys2Proof/Laws/Memory.lean ====
section
/-! SUPPORT. The TEXT space: its canonical form, and reading it. -/

namespace Sys2Proof.Machine

/-- Loading a byte sequence gives the canonical form (20_memory.md R52). -/
theorem Memory.wf_load (i : Nat) (bs : List Byte) : Memory.wf (Memory.load i bs) = true := by
  induction bs generalizing i with
  | nil => rfl
  | cons b bs ih =>
    cases bs with
    | nil => rfl
    | cons c bs =>
      have h := ih (i + 1)
      simp only [Memory.load] at h
      simp only [Memory.load, Memory.wf, h, Bool.and_true, decide_eq_true_eq]
      omega

/-- The empty TEXT space is in canonical form. -/
theorem Memory.wf_nil : Memory.wf [] = true := rfl

/-- What is left of a canonical TEXT space after its first cell is canonical. -/
theorem Memory.wf_tail {x : Host.Cell} {m : Memory} (h : Memory.wf (x :: m) = true) : Memory.wf m = true := by
  cases m with
  | nil => rfl
  | cons y m => simp only [Memory.wf, Bool.and_eq_true] at h; exact h.2

/-- A read below the first index finds nothing. -/
theorem Memory.read_load_lt {i j : Nat} (bs : List Byte) (h : j < i) : Memory.read (Memory.load i bs) j = none := by
  induction bs generalizing i with
  | nil => rfl
  | cons b bs ih =>
    have hne : (j == i) = false := by simp; omega
    simp only [Memory.read, Memory.load, List.lookup, hne]
    exact ih (by omega)

/-- Reading the loaded sequence gives the byte at that place of it (20_memory.md R52). -/
theorem Memory.read_load_add (i k : Nat) (bs : List Byte) : Memory.read (Memory.load i bs) (i + k) = bs[k]? := by
  induction bs generalizing i k with
  | nil => rfl
  | cons b bs ih =>
    cases k with
    | zero => simp [Memory.read, Memory.load]
    | succ k =>
      have hne : (i + (k + 1) == i) = false := by simp
      simp only [Memory.read, Memory.load, List.lookup, hne]
      have := ih (i + 1) k
      rw [show i + 1 + k = i + (k + 1) by omega] at this
      simpa [Memory.read] using this

/-- The read of the text leaves the TEXT space as it was (20_memory.md R60). -/
theorem textRead_text (i : Nat) (s : State) : (textRead i s).text = s.text := by
  unfold textRead
  split <;> rfl

/-- The request's text is loaded in canonical form, or the TEXT space is as it was (20_memory.md R52). -/
theorem withText_wf {s : State} (h : Memory.wf s.text = true) : Memory.wf (withText s).text = true := by
  unfold withText
  split
  · exact Memory.wf_load 0 _
  · exact h

/-- The abort of a level 2 operation empties the TEXT space. -/
theorem abortOp_text (c : Requester) {op : Op} (h : ∀ x, op ≠ .level1 x) (f : Cause) (s : State) :
    (abortOp c op f s).text = [] := by
  cases op with
  | level1 x => exact absurd rfl (h x)
  | _ => rfl

/-- A released operation leaves the TEXT space empty. -/
theorem releaseOk_text (c : Requester) (s : State) : (releaseOk c s).text = [] := rfl

theorem reset_text : State.reset.text = [] := rfl

end Sys2Proof.Machine
end

