-- ==== Sys2Proof/Laws/Runs.lean ====
section
/-! SUPPORT. Reasoning about a run of an operation: a property of states per position, carried along the
micro-steps. -/

namespace Sys2Proof.Machine

/-- The property with which a piece of code begins: that of its first position, or that of its end. -/
def Start (P : Pos → State → Prop) (D : State → Prop) : Code → State → Prop
  | [], s => D s
  | pm :: _, s => P pm.1 s

/-- Each micro-step of the code carries its position's property to the next position's, or raises a failure in
a state with property `F`. -/
def Carries (P : Pos → State → Prop) (D F : State → Prop) : Code → Prop
  | [] => True
  | pm :: rest =>
    (∀ s, P pm.1 s →
      ((pm.2.act s).2 = none → Start P D rest (pm.2.act s).1)
        ∧ ((pm.2.act s).2 ≠ none → F (pm.2.act s).1))
      ∧ Carries P D F rest

/-- How a run ends, for code that carries a property along. -/
theorem runCode_carries {P : Pos → State → Prop} {D F : State → Prop} {code : Code}
    (hc : Carries P D F code) (g : Grain) {s : State} (hs : Start P D code s) :
    match runCode g code s with
    | (t, .done) => D t
    | (t, .paused q) => P q t ∧ q ∈ code.tail.map Prod.fst
    | (t, .failed pos _) => F t ∧ pos ∈ code.map Prod.fst := by
  induction code generalizing s with
  | nil => exact hs
  | cons x code ih =>
    obtain ⟨pos, m⟩ := x
    obtain ⟨h1, h2⟩ := hc
    obtain ⟨hok, hbad⟩ := h1 s hs
    rcases runCode_cons g pos m code s with ⟨f, hf, he⟩ | ⟨hn, -, q, m', rest, rfl, he⟩ | ⟨hn, -, he⟩ <;> rw [he]
    · exact ⟨hbad (by simp [hf]), by simp⟩
    · exact ⟨hok hn, by simp⟩
    · have := ih h2 (hok hn)
      revert this
      rcases runCode g code (m.act s).1 with ⟨u, _ | q | ⟨q, f⟩⟩
      · exact id
      · exact fun h => ⟨h.1, by
          obtain ⟨x, hx, he⟩ := List.mem_map.mp h.2
          exact List.mem_map.mpr ⟨x, List.mem_of_mem_tail hx, he⟩⟩
      · exact fun h => ⟨h.1, List.mem_cons_of_mem _ h.2⟩

theorem Carries.append {P : Pos → State → Prop} {D F : State → Prop} {a b : Code}
    (ha : Carries P (Start P D b) F a) (hb : Carries P D F b) : Carries P D F (a ++ b) := by
  induction a with
  | nil => exact hb
  | cons x a ih =>
    refine ⟨fun s hs => ?_, ih ha.2⟩
    have := ha.1 s hs
    refine ⟨fun h => ?_, this.2⟩
    have h3 := this.1 h
    cases a with
    | nil => exact h3
    | cons y a => exact h3

/-- Micro-steps at positions that all stand for one property, which each of them keeps. -/
theorem Carries.uniform {P : Pos → State → Prop} {D F B : State → Prop} {a : Code}
    (hP : ∀ pm ∈ a, ∀ s, P pm.1 s ↔ B s) (hB : ∀ pm ∈ a, ∀ s, B s → B (pm.2.act s).1)
    (hD : ∀ s, B s → D s) (hF : ∀ s, B s → F s) : Carries P D F a := by
  induction a with
  | nil => trivial
  | cons x a ih =>
    refine ⟨fun s hs => ?_, ih (fun pm h => hP pm (List.mem_cons_of_mem _ h))
      fun pm h => hB pm (List.mem_cons_of_mem _ h)⟩
    have hb' := hB x (List.mem_cons_self ..) s ((hP x (List.mem_cons_self ..) s).mp hs)
    refine ⟨fun _ => ?_, fun _ => hF _ hb'⟩
    cases a with
    | nil => exact hD _ hb'
    | cons y a => exact (hP y (by simp) _).mpr hb'

/-- From a position of the code on, the code still carries the property along. -/
theorem Carries.from {P : Pos → State → Prop} {D F : State → Prop} {code : Code}
    (hc : Carries P D F code) (pos : Pos) : Carries P D F (codeFrom pos code) := by
  induction code with
  | nil => trivial
  | cons x code ih =>
    unfold codeFrom
    rw [List.dropWhile_cons]
    split
    · exact ih hc.2
    · exact hc

/-- The code from one of its positions on begins at that position. -/
theorem codeFrom_mem {pos : Pos} {code : Code} (h : pos ∈ code.map Prod.fst) :
    ∃ m rest, codeFrom pos code = (pos, m) :: rest ∧ ∀ q, q ∈ rest.map Prod.fst → q ∈ code.map Prod.fst := by
  induction code with
  | nil => simp at h
  | cons x code ih =>
    by_cases hx : x.1 = pos
    · subst hx
      exact ⟨x.2, code, by simp [codeFrom], fun q hq => List.mem_cons_of_mem _ hq⟩
    · have h' : pos ∈ code.map Prod.fst := by
        simp only [List.map_cons, List.mem_cons] at h
        exact h.resolve_left fun e => hx e.symm
      obtain ⟨m, rest, h1, h2⟩ := ih h'
      refine ⟨m, rest, ?_, fun q hq => List.mem_cons_of_mem _ (h2 q hq)⟩
      rw [← h1]
      simp [codeFrom, hx]

end Sys2Proof.Machine
end

