-- ==== Sys2Proof/Laws/Transfer.lean ====
section
/-! SUPPORT. The pin activity of the transfers and of CONFIGURE: which events their micro-steps make, and what
those events do to the pins. -/

namespace Sys2Proof.Machine

/-! ### Events of micro-steps -/

/-- The events of a list of micro-steps that succeed. -/
def microEvents (ms : List Micro) : List Event := ms.map Micro.okEvent

/-- The number of GPIO calls of a list of micro-steps. -/
def microCalls (ms : List Micro) : Nat := (ms.map Micro.calls).sum

theorem codeEvents_numberFrom (ph : Phase) (h : Half) (k : Nat) (ms : List Micro) :
    codeEvents (numberFrom ph h k ms) = microEvents ms := by
  induction ms generalizing k with
  | nil => rfl
  | cons m ms ih => simpa [codeEvents, microEvents, numberFrom] using ih (k + 1)

theorem codeCalls_numberFrom (ph : Phase) (h : Half) (k : Nat) (ms : List Micro) :
    codeCalls (numberFrom ph h k ms) = microCalls ms := by
  induction ms generalizing k with
  | nil => rfl
  | cons m ms ih => simpa [codeCalls, microCalls, numberFrom] using ih (k + 1)

theorem allPin_numberFrom (ph : Phase) (h : Half) (k : Nat) (ms : List Micro) :
    allPin (numberFrom ph h k ms) = ms.all Micro.isPin := by
  induction ms generalizing k with
  | nil => rfl
  | cons m ms ih =>
    have := ih (k + 1)
    simp only [allPin, numberFrom, List.all_cons] at this ⊢
    rw [this]

/-! ### NIBBLE -/

theorem microEvents_nibbleCode (t : Nat) (rs : Bool) (n : Nibble) :
    microEvents (nibbleCode t rs n) = nibbleEvents t rs n := rfl

theorem microCalls_nibbleCode (t : Nat) (rs : Bool) (n : Nibble) : microCalls (nibbleCode t rs n) = 8 := rfl

theorem nibbleCode_isPin (t : Nat) (rs : Bool) (n : Nibble) : (nibbleCode t rs n).all Micro.isPin = true := rfl

theorem driveAll_nibbleEvents (t : Nat) (rs : Bool) (n : Nibble) (pins : PerPin Level) :
    driveAll (nibbleEvents t rs n) pins = nibblePins rs n := rfl

theorem configAll_nibbleEvents (t : Nat) (rs : Bool) (n : Nibble) (dirs : PerPin Dir) :
    configAll (nibbleEvents t rs n) dirs = dirs := rfl

theorem waitedMs_nibbleEvents (t : Nat) (rs : Bool) (n : Nibble) : waitedMs (nibbleEvents t rs n) = 2 * t := by
  simp [nibbleEvents, waitedMs]
  omega

theorem ofBool_nibble (n : Nibble) :
    BitVec.ofBool (n.getLsbD 3) ++ BitVec.ofBool (n.getLsbD 2) ++ BitVec.ofBool (n.getLsbD 1)
      ++ BitVec.ofBool (n.getLsbD 0) = n := by
  revert n
  decide

theorem Level.toBool_ofBool (f b : Bool) : (Level.ofBool b).toBool f = b := by cases b <;> rfl

theorem Level.toBool_low (f : Bool) : Level.low.toBool f = false := rfl

/-- With the six lines driven for NIBBLE n, rs the bus shows `rs ++ 0 ++ n` (30_encoding.md R74). -/
theorem busImage_nibble (free : Image) (rs : Bool) (n : Nibble) (en : Level) :
    busImage free { nibblePins rs n with en := en } = nibbleImage rs n := by
  simp only [busImage, nibblePins, Level.toBool_ofBool, Level.toBool_low, nibbleImage]
  clear free en
  revert n
  cases rs <;> decide

/-- A nibble's only falling edge shows its image (41_nibble_transfer.md R100). -/
theorem EdgesOf_nibbleEvents {t : Nat} {rs : Bool} {n : Nibble} {pins : PerPin Level} {imgs : List Image}
    (h : EdgesOf pins (nibbleEvents t rs n) imgs) : imgs = [nibbleImage rs n] := by
  have hq : nibbleEvents t rs n = (nibbleEvents t rs n).take 8 ++ (nibbleEvents t rs n).drop 8 := rfl
  rw [hq] at h
  obtain ⟨x, y, rfl, hx, hy⟩ := h.split
  have hx0 : x = [] := by
    simp only [nibbleEvents, List.take_succ_cons, List.take_zero, EdgesOf, EdgeOf] at hx
    simp at hx
    exact hx
  subst hx0
  obtain ⟨a, b, rfl, ha, hb⟩ := hy
  obtain ⟨free, rfl⟩ : ∃ free, a = [busImage free { nibblePins rs n with en := .high }] := ha
  have hb0 : b = [] := by
    simp [EdgesOf, EdgeOf] at hb
    exact hb
  subst hb0
  rw [busImage_nibble]
  rfl

/-! ### BYTE -/

theorem codeEvents_sendByte (t : Nat) (ph : Phase) (rs : Bool) (v : Byte) :
    codeEvents (sendByte t ph rs v) = byteEvents t rs v := rfl

theorem codeCalls_sendByte (t : Nat) (ph : Phase) (rs : Bool) (v : Byte) :
    codeCalls (sendByte t ph rs v) = 16 := by
  rw [sendByte, codeCalls_append, codeCalls_numberFrom, codeCalls_numberFrom, microCalls_nibbleCode,
    microCalls_nibbleCode]

theorem allPin_sendByte (t : Nat) (ph : Phase) (rs : Bool) (v : Byte) :
    allPin (sendByte t ph rs v) = true := rfl

theorem driveAll_byteEvents (t : Nat) (rs : Bool) (v : Byte) (pins : PerPin Level) :
    driveAll (byteEvents t rs v) pins = nibblePins rs (loNibble v) := by
  rw [byteEvents, driveAll_append, driveAll_nibbleEvents]

theorem configAll_byteEvents (t : Nat) (rs : Bool) (v : Byte) (dirs : PerPin Dir) :
    configAll (byteEvents t rs v) dirs = dirs := by
  rw [byteEvents, configAll_append, configAll_nibbleEvents, configAll_nibbleEvents]

theorem waitedMs_byteEvents (t : Nat) (rs : Bool) (v : Byte) : waitedMs (byteEvents t rs v) = 4 * t := by
  rw [byteEvents, waitedMs_append, waitedMs_nibbleEvents, waitedMs_nibbleEvents]
  omega

theorem EdgesOf_byteEvents {t : Nat} {rs : Bool} {v : Byte} {pins : PerPin Level} {imgs : List Image}
    (h : EdgesOf pins (byteEvents t rs v) imgs) : imgs = byteImages rs v := by
  obtain ⟨x, y, rfl, hx, hy⟩ := h.split
  rw [EdgesOf_nibbleEvents hx, EdgesOf_nibbleEvents hy]
  rfl

/-! ### CONFIGURE -/

theorem codeEvents_configureCode : codeEvents configureCode = configureEvents := rfl

theorem codeCalls_configureCode : codeCalls configureCode = 14 := rfl

theorem allPin_configureCode : allPin configureCode = true := rfl

theorem driveAll_configureEvents (pins : PerPin Level) :
    driveAll configureEvents pins = PerPin.all .low := rfl

theorem configAll_configureEvents (dirs : PerPin Dir) :
    configAll configureEvents dirs = PerPin.all .outPpNoPull := rfl

/-- The image of a CONFIGURE's one possible falling edge (40_pin_configuration.md R93, R94 (d)). -/
theorem EdgesOf_configureEvents {pins : PerPin Level} {imgs : List Image}
    (h : EdgesOf pins configureEvents imgs) : ConfigureImages pins imgs := by
  have hq : configureEvents = configureEvents.take 9 ++ configureEvents.drop 9 := rfl
  rw [hq] at h
  obtain ⟨x, y, rfl, hx, hy⟩ := h.split
  have hx0 : x = [] := by
    simp [configureEvents, EdgesOf, EdgeOf] at hx
    exact hx
  subst hx0
  obtain ⟨a, b, rfl, ha, hb⟩ := hy
  have hb0 : b = [] := by
    simp [EdgesOf, EdgeOf] at hb
    exact hb
  subst hb0
  have hpins : driveAll (configureEvents.take 9) pins = { pins with rs := .low, rw := .low } := rfl
  rw [hpins, EdgeOf, if_pos rfl] at ha
  rw [List.nil_append, List.append_nil]
  exact ha

/-! ### Running a level 1 operation -/

theorem level1Code_allPin (cfg : Config) (x : Level1) : allPin (level1Code cfg x) = true := by
  cases x with
  | configure => rfl
  | nibble rs n => rfl
  | byte rs v => rfl

/-- No position of a level 1 operation is one of INIT's commands. -/
theorem level1Code_phase (cfg : Config) (x : Level1) :
    ∀ pos ∈ (level1Code cfg x).map Prod.fst, ∀ j, pos.phase ≠ .initCmd j := by
  have key : ((level1Code cfg x).map Prod.fst).all (fun pos => match pos.phase with | .initCmd _ => false | _ => true)
      = true := by
    cases x with
    | configure => rfl
    | nibble rs n => rfl
    | byte rs v => rfl
  intro pos hpos j h
  have := List.all_eq_true.mp key pos hpos
  rw [h] at this
  cases this

/-- A cause is handed up unchanged but from INIT's commands (60_exceptions.md R141). -/
theorem Cause.seenFrom_eq {ph : Phase} (h : ∀ j, ph ≠ .initCmd j) (f : Cause) : f.seenFrom ph = f := by
  cases ph with
  | initCmd j => exact absurd rfl (h j)
  | _ => rfl

/-- A level 1 operation whose calls are all answered ok (10_state.md R26 (b)). -/
theorem runLevel1_ok (c : Requester) {x : Level1} {s : State} (hw : RunsWhole s)
    (hg : GpioOk (codeCalls (level1Code s.cfg x)) s) :
    ∃ t, runOp c (.level1 x) (level1Code s.cfg x) s = { t with seq := .idle, result := some .ok }
      ∧ PinEffect (codeEvents (level1Code s.cfg x)) s t
      ∧ t.env.gpio = s.env.gpio.drop (codeCalls (level1Code s.cfg x)) := by
  obtain ⟨t, h1, h2, h3⟩ := runCode_pin_ok (level1Code_allPin s.cfg x) hg
  exact ⟨t, by rw [runOp, hw, h1]; rfl, h2, h3⟩

/-- A level 1 operation aborted at GPIO call `k` (60_exceptions.md R146). -/
theorem runLevel1_fail (c : Requester) {x : Level1} {s : State} {k : Nat} (hw : RunsWhole s)
    (hk : k < codeCalls (level1Code s.cfg x)) (hg : GpioFailsAt k s) :
    ∃ t f, runOp c (.level1 x) (level1Code s.cfg x) s
        = State.tick { t with result := some (.err (.gpio f)), seq := .idle }
      ∧ PinEffect (cutAt k (codeEvents (level1Code s.cfg x))) s t
      ∧ lastCause (cutAt k (codeEvents (level1Code s.cfg x))) = some f := by
  obtain ⟨t, f, pos, h1, h2, h3, h4⟩ := runCode_pin_fail (level1Code_allPin s.cfg x) hk hg
  have hs : Cause.seenFrom pos.phase (.gpio f) = .gpio f :=
    Cause.seenFrom_eq (level1Code_phase s.cfg x pos h4) _
  refine ⟨t, f, ?_, h2, h3⟩
  rw [runOp, hw, h1]
  show abortOp c (.level1 x) (Cause.seenFrom pos.phase (.gpio f)) t = _
  rw [hs]
  rfl

end Sys2Proof.Machine
end

