-- ==== Sys2Proof/Laws/Operation.lean ====
section
/-! SUPPORT. The common frame of the operations on a handle (43_public_operations.md R120), run whole around a body of
pin activity. -/

namespace Sys2Proof.Machine

/-- CLEAR, HOME, GOTOXY and WRITE_STRING (43_public_operations.md). -/
def Op.onHandle : Op → Bool
  | .init _ _ _ => false
  | .clear => true
  | .home => true
  | .gotoxy _ _ => true
  | .writeString => true
  | .level1 _ => false

/-- The state right after `LockAcquire(c)` (20_memory.md R61). -/
def acquired (c : Requester) (s : State) : State := (State.log (.acq c) { s with lock := .held c }).tick

theorem runCode_acq {c : Requester} {s : State} (rest : Code) (hl : s.lock = .free) :
    runCode .whole (plain .acq (.acq c) :: rest) s = runCode .whole rest (acquired c s) := by
  rw [plain, runCode_whole_cons]
  simp [Micro.act, lockAcquire, hl, acquired]

theorem runCode_rel (c : Requester) (s : State) :
    runCode .whole [plain .rel (.release c)] s = ((releaseOk c s).tick, .done) := by
  rw [plain, runCode_whole_cons]
  rfl

/-- What an operation on a handle with the events `evs` between its lock and its result leaves (the frame of
43_public_operations.md R120). -/
structure Framed (c : Requester) (evs : List Event) (r : Result) (s t : State) : Prop where
  trace : t.trace = s.trace ++ [.acq c] ++ evs ++ [.rel c, .ret c r]
  calls : t.calls = s.calls ++ callsOf s.pinMapInUse evs
  latched : ∃ imgs, t.latched = s.latched ++ imgs ∧ EdgesOf s.pins evs imgs
  pins : t.pins = driveAll evs s.pins
  dirs : t.dirs = configAll evs s.dirs
  now : s.now + waitedMs evs ≤ t.now
  result : t.result = some r
  lock : t.lock = .free
  seq : t.seq = .idle
  text : t.text = []
  handle : KeepsHandle s t
  port : KeepsPort s t

/-- An operation whose body is pin activity answered ok throughout. -/
theorem runOp_frame_ok {c : Requester} {op : Op} {body : Code} {s : State} (hs : RunsWhole s)
    (hl : s.lock = .free) (hp : allPin body = true) (hg : GpioOk (codeCalls body) s) :
    Framed c (codeEvents body) .ok s (runOp c op (plain .acq (.acq c) :: body ++ [plain .rel (.release c)]) s)
      ∧ (runOp c op (plain .acq (.acq c) :: body ++ [plain .rel (.release c)]) s).env.gpio
        = s.env.gpio.drop (codeCalls body) := by
  obtain ⟨t, h1, h2, h3⟩ := runCode_pin_ok (s := acquired c s) hp hg
  have hlt : t.lock = .held c := h2.lock
  have hr : runCode .whole (plain .acq (.acq c) :: body ++ [plain .rel (.release c)]) s
      = ((releaseOk c t).tick, .done) := by
    rw [List.cons_append, runCode_acq _ hl, runCode_whole_append, h1]
    exact runCode_rel c t
  have he : runOp c op (plain .acq (.acq c) :: body ++ [plain .rel (.release c)]) s
      = { (releaseOk c t).tick with seq := .idle } := by
    rw [runOp, hs, hr, settleRun]
    cases op <;> rfl
  have hrel : releaseOk c t
      = { State.ret c .ok (State.log (.rel c) { t with lock := .free }) with text := [] } := by
    rw [releaseOk, lockRelease, if_pos hlt]
  rw [he, hrel]
  refine ⟨⟨?_, h2.calls, h2.latched, h2.pins, h2.dirs, ?_, rfl, rfl, rfl, rfl,
    ⟨h2.handle, h2.config, h2.pinMap, h2.dispatch⟩, ⟨h2.cfg, h2.otherPins, h2.pending, h2.cur, h2.grain⟩⟩, h3⟩
  · have := h2.trace
    simp [acquired] at this
    simp [this]
  · have := h2.now
    simp [acquired] at this
    simp
    omega

/-- An operation whose body is pin activity, aborted at GPIO call `k` (60_exceptions.md R146). -/
theorem runOp_frame_fail {c : Requester} {op : Op} {body rest : Code} {s : State} {k : Nat}
    (hop : op.onHandle = true)
    (hs : RunsWhole s) (hl : s.lock = .free) (hr : s.cfg.lockReleaseOnError = true)
    (hp : allPin body = true) (hph : ∀ pos ∈ body.map Prod.fst, ∀ j, pos.phase ≠ .initCmd j)
    (hk : k < codeCalls body) (hg : GpioFailsAt k s) :
    ∃ f, lastCause (cutAt k (codeEvents body)) = some f
      ∧ Framed c (cutAt k (codeEvents body)) (.err (.gpio f)) s
          (runOp c op (plain .acq (.acq c) :: body ++ rest) s) := by
  obtain ⟨t, f, pos, h1, h2, h3, h4⟩ := runCode_pin_fail (s := acquired c s) hp hk hg
  have hlt : t.lock = .held c := h2.lock
  have hrt : t.cfg.lockReleaseOnError = true := by rw [h2.cfg]; exact hr
  have hrun : runCode .whole (plain .acq (.acq c) :: body ++ rest) s
      = (t, .failed pos (.gpio f)) := by
    rw [List.cons_append, runCode_acq _ hl, runCode_whole_append, h1]
  have hseen : Cause.seenFrom pos.phase (.gpio f) = .gpio f := Cause.seenFrom_eq (hph pos h4) _
  have he : runOp c op (plain .acq (.acq c) :: body ++ rest) s
      = State.tick { (State.log (.rel c) { t with lock := .free }).ret c (.err (.gpio f)) with
          seq := .idle, text := [] } := by
    rw [runOp, hs, hrun]
    simp only [settleRun, hseen]
    cases op with
    | init g m pm => cases hop
    | level1 x => cases hop
    | _ => simp [abortOp, unwind, retFailure, hrt, lockRelease, hlt, Op.failure]
  rw [he]
  refine ⟨f, h3, ?_, h2.calls, h2.latched, h2.pins, h2.dirs, ?_, rfl, rfl, rfl, rfl,
    ⟨h2.handle, h2.config, h2.pinMap, h2.dispatch⟩, ⟨h2.cfg, h2.otherPins, h2.pending, h2.cur, h2.grain⟩⟩
  · have := h2.trace
    simp [acquired] at this
    simp [this]
  · have := h2.now
    simp [acquired] at this
    simp
    omega

end Sys2Proof.Machine
end

