-- ==== Sys2Proof/Laws/PerInstr.lean ====
section
/-! SUPPORT. Statements per instruction: the word an instruction encodes to lies in its own row of the tables of
30_encoding.md R72, R74, R76 and R77, whatever its operands. -/

namespace Sys2Proof.Laws

/-! ### Masking a word field by field -/

theorem req_masked (op mo : BitVec 4) (a ma b mb : Byte) :
    reqWord op a b &&& reqWord mo ma mb = reqWord (op &&& mo) (a &&& ma) (b &&& mb) := by
  show (((op ++ a) ++ b : BitVec (4 + 8 + 8)) &&& ((mo ++ ma) ++ mb : BitVec (4 + 8 + 8))) = _
  rw [BitVec.and_append, BitVec.and_append]
  rfl

theorem req_row (op : BitVec 4) (a b : Byte) : reqWord op a b &&& 0xF0000#20 = reqWord op 0 0 := by
  rw [show 0xF0000#20 = reqWord 0xF#4 0 0 from rfl, req_masked]
  simp only [BitVec.ofNat_eq_ofNat, BitVec.and_zero]
  rw [show op &&& 15#4 = op from BitVec.and_allOnes]

theorem req_byte_row (op : BitVec 4) (b : Byte) : reqWord op 0 b &&& 0xFFF00#20 = reqWord op 0 0 := by
  rw [show 0xFFF00#20 = reqWord 0xF#4 0xFF#8 0 from rfl, req_masked]
  simp only [BitVec.ofNat_eq_ofNat, BitVec.and_zero, BitVec.zero_and]
  rw [show op &&& 15#4 = op from BitVec.and_allOnes]

theorem bus6_row (tag : BitVec 2) (n : Nibble) : (tag ++ n) &&& 0x30#6 = tag ++ 0#4 := by
  revert tag n
  decide

theorem bus12_row (tag : BitVec 2) (h l : Nibble) :
    ((tag ++ h) ++ (tag ++ l)) &&& 0xC30#12 = (tag ++ 0#4) ++ (tag ++ 0#4) := by
  rw [show 0xC30#12 = 0x30#6 ++ 0x30#6 from rfl, BitVec.and_append, bus6_row, bus6_row]

/-! ### The rows -/

namespace InRow

/-- The match and the mask of each row of spec/opcode_table.json. -/
def row : Instr → FormatWord × FormatWord
  | .init _ _ => (.req20 0x10000#20, .req20 0xF0000#20)
  | .clear => (.req20 0x20000#20, .req20 0xFFFFF#20)
  | .home => (.req20 0x30000#20, .req20 0xFFFFF#20)
  | .gotoxy _ _ => (.req20 0x40000#20, .req20 0xF0000#20)
  | .writeString => (.req20 0x50000#20, .req20 0xFFFFF#20)
  | .configure => (.req20 0x80000#20, .req20 0xFFFFF#20)
  | .nibble _ _ => (.req20 0x90000#20, .req20 0xFFEF0#20)
  | .writeCmd _ => (.req20 0xA0000#20, .req20 0xFFF00#20)
  | .writeData _ => (.req20 0xB0000#20, .req20 0xFFF00#20)
  | .busCmdNibble _ => (.bus6 0x00#6, .bus6 0x30#6)
  | .busDataNibble _ => (.bus6 0x20#6, .bus6 0x30#6)
  | .busWriteCmd _ _ => (.bus12 0x000#12, .bus12 0xC30#12)
  | .busWriteData _ _ => (.bus12 0x820#12, .bus12 0xC30#12)
  | .cmdClearDisplay => (.cmd8 0x01#8, .cmd8 0xFF#8)
  | .cmdReturnHome => (.cmd8 0x02#8, .cmd8 0xFF#8)
  | .cmdEntryModeSet => (.cmd8 0x06#8, .cmd8 0xFF#8)
  | .cmdDisplayOn => (.cmd8 0x0C#8, .cmd8 0xFF#8)
  | .cmdFunctionSet => (.cmd8 0x28#8, .cmd8 0xFF#8)
  | .cmdSetDdramAddr _ => (.cmd8 0x80#8, .cmd8 0x80#8)

/-- A word of a format is in a row of the same format. -/
def inRow : FormatWord → FormatWord × FormatWord → Prop
  | .req20 w, (.req20 p, .req20 m) => w &&& m = p
  | .bus6 w, (.bus6 p, .bus6 m) => w &&& m = p
  | .bus12 w, (.bus12 p, .bus12 m) => w &&& m = p
  | .cmd8 w, (.cmd8 p, .cmd8 m) => w &&& m = p
  | _, _ => False

/-- The encoded word lies in the instruction's own row. -/
def Statement (i : Instr) : Prop := inRow (encode i) (row i)

theorem init (g m : Byte) : Statement (.init g m) := req_row 0x1#4 g m
theorem clear : Statement .clear := rfl
theorem home : Statement .home := rfl
theorem gotoxy (x y : Byte) : Statement (.gotoxy x y) := req_row 0x4#4 x y
theorem writeString : Statement .writeString := rfl
theorem configure : Statement .configure := rfl
theorem nibble (rs : Bool) (n : Nibble) : Statement (.nibble rs n) := by
  show reqWord 0x9#4 (0#7 ++ BitVec.ofBool rs) (0#4 ++ n) &&& reqWord 0xF#4 0xFE#8 0xF0#8 = reqWord 0x9#4 0 0
  rw [req_masked]
  have ha : (0#7 ++ BitVec.ofBool rs) &&& 0xFE#8 = 0#8 := by cases rs <;> rfl
  have hb : (0#4 ++ n) &&& 0xF0#8 = 0#8 := by revert n; decide
  rw [ha, hb]
  rfl
theorem writeCmd (v : Byte) : Statement (.writeCmd v) := req_byte_row 0xA#4 v
theorem writeData (v : Byte) : Statement (.writeData v) := req_byte_row 0xB#4 v
theorem busCmdNibble (n : Nibble) : Statement (.busCmdNibble n) := bus6_row 0b00#2 n
theorem busDataNibble (n : Nibble) : Statement (.busDataNibble n) := bus6_row 0b10#2 n
theorem busWriteCmd (h l : Nibble) : Statement (.busWriteCmd h l) := bus12_row 0b00#2 h l
theorem busWriteData (h l : Nibble) : Statement (.busWriteData h l) := bus12_row 0b10#2 h l
theorem cmdClearDisplay : Statement .cmdClearDisplay := rfl
theorem cmdReturnHome : Statement .cmdReturnHome := rfl
theorem cmdEntryModeSet : Statement .cmdEntryModeSet := rfl
theorem cmdDisplayOn : Statement .cmdDisplayOn := rfl
theorem cmdFunctionSet : Statement .cmdFunctionSet := rfl
theorem cmdSetDdramAddr (addr : BitVec 7) : Statement (.cmdSetDdramAddr addr) := by
  show (0b1#1 ++ addr) &&& 0x80#8 = 0x80#8
  revert addr
  decide

end InRow

end Sys2Proof.Laws
end

