-- ==== Sys2Proof/Laws/Port.lean ====
section
/-! SUPPORT. What the port can do in one step: which request the scheduler's choice serves. -/

namespace Sys2Proof.Machine

/-- The request taken is its requester's first, and the others stay in order (60_exceptions.md R155). -/
theorem takeRequest_spec {c : Requester} {l left : List Request} {r : Request}
    (h : takeRequest c l = some (r, left)) :
    r.requester = c ∧ ∃ a b, l = a ++ r :: b ∧ left = a ++ b ∧ ∀ x ∈ a, x.requester ≠ c := by
  induction l generalizing left with
  | nil => cases h
  | cons x l ih =>
    rw [takeRequest] at h
    split at h
    · next hx =>
      cases h
      exact ⟨hx, [], l, rfl, rfl, by simp⟩
    · next hx =>
      split at h
      · next y left' hy =>
        cases h
        obtain ⟨h1, a, b, rfl, rfl, h4⟩ := ih hy
        refine ⟨h1, x :: a, b, rfl, rfl, ?_⟩
        intro z hz
        rcases List.mem_cons.mp hz with rfl | hz
        · exact hx
        · exact h4 z hz
      · cases h

/-- An agent that waits is no requester seen before, and its first request can be served. -/
theorem waiters_spec {sq : Seq} {seen : List Requester} {l : List Request} {c : Requester}
    (h : c ∈ waiters sq seen l) :
    c ∉ seen ∧ ∃ r left, takeRequest c l = some (r, left) ∧ mayServe sq r = true := by
  induction l generalizing seen with
  | nil => cases h
  | cons x l ih =>
    have skip : x.requester ≠ c → (∃ r left, takeRequest c l = some (r, left) ∧ mayServe sq r = true) →
        ∃ r left, takeRequest c (x :: l) = some (r, left) ∧ mayServe sq r = true := by
      rintro hx ⟨r, left, h1, h2⟩
      exact ⟨r, x :: left, by simp [takeRequest, hx, h1], h2⟩
    rw [waiters] at h
    split at h
    · next hs =>
      obtain ⟨h1, h2⟩ := ih h
      refine ⟨h1, skip ?_ h2⟩
      rintro rfl
      exact h1 (by simpa using hs)
    · next hs =>
      rcases List.mem_append.mp h with h | h
      · split at h
        · next hm =>
          obtain rfl : c = x.requester := by simpa using h
          exact ⟨by simpa using hs, x, l, by simp [takeRequest], hm⟩
        · cases h
      · obtain ⟨h1, h2⟩ := ih h
        simp only [List.mem_cons, not_or] at h1
        exact ⟨h1.2, skip (Ne.symm h1.1) h2⟩

/-- The scheduler's choice is one of the agents, and drawing it touches its tape and the count of draws alone. -/
theorem chooseAgent_spec (s : State) :
    ∃ o env, chooseAgent s = (o, { s with env := env }) ∧ env.gpio = s.env.gpio ∧ env.alloc = s.env.alloc
      ∧ env.edge = s.env.edge ∧ (o = none ↔ agents s = []) ∧ ∀ c, o = some c → c ∈ agents s := by
  unfold chooseAgent
  split
  · next h => exact ⟨none, s.env, rfl, rfl, rfl, rfl, by simp [h], by simp⟩
  · next c h => exact ⟨some c, s.env, rfl, rfl, rfl, rfl, by simp [h], by simp [h]⟩
  · next c rest _ h =>
    have hd : ∃ k env, s.drawPick = (k, { s with env := env }) ∧ env.gpio = s.env.gpio
        ∧ env.alloc = s.env.alloc ∧ env.edge = s.env.edge := by
      unfold State.drawPick
      split <;> exact ⟨_, _, rfl, rfl, rfl, rfl⟩
    obtain ⟨k, env, hd, h1, h2, h3⟩ := hd
    have hlt : k % (rest.length + 1) < (c :: rest).length := Nat.mod_lt _ (Nat.succ_pos _)
    refine ⟨some (c :: rest)[k % (rest.length + 1)], env, ?_, h1, h2, h3, by simp [h], ?_⟩
    · simp only [hd, List.getElem?_eq_getElem hlt]
    · rintro d hd'
      cases hd'
      rw [h]
      exact List.getElem_mem hlt

/-- Everything the port can do in one step (60_exceptions.md R155): nothing where no agent has a step; the operation
in progress goes on; or a requester with no operation in progress has its first request served. -/
theorem nextTurn_cases (s : State) :
    ∃ env, env.gpio = s.env.gpio ∧ env.alloc = s.env.alloc ∧ env.edge = s.env.edge
      ∧ ((s.seq = .idle ∧ agents s = [] ∧ nextTurn s = (.nothing, { s with env := env }))
        ∨ (∃ c op pos, s.seq = .busy c op pos ∧ nextTurn s = (.resume, { s with env := env }))
        ∨ ∃ r left, takeRequest r.requester s.pending = some (r, left)
            ∧ s.seq.isOf r.requester = false ∧ mayServe s.seq r = true
            ∧ nextTurn s = (.serve r, { s with pending := left, cur := r, env := env })) := by
  obtain ⟨o, env, hc, h1, h2, h3, h4, h5⟩ := chooseAgent_spec s
  refine ⟨env, h1, h2, h3, ?_⟩
  unfold nextTurn
  rw [hc]
  cases o with
  | none =>
    have ha := h4.mp rfl
    refine .inl ⟨?_, ha, rfl⟩
    unfold agents at ha
    split at ha
    · assumption
    · cases ha
  | some c =>
    have hm := h5 c rfl
    by_cases hof : s.seq.isOf c = true
    · refine .inr (.inl ?_)
      cases hs : s.seq with
      | idle => simp [Seq.isOf, hs] at hof
      | busy c' op pos =>
        rw [hs] at hof
        exact ⟨c', op, pos, rfl, by simp [hof]⟩
    · refine .inr (.inr ?_)
      have hw : ∃ seen, c ∈ waiters s.seq seen s.pending := by
        unfold agents at hm
        split at hm
        · exact ⟨_, hm⟩
        · next c' op pos hs =>
          rcases List.mem_cons.mp hm with rfl | hm
          · simp [Seq.isOf, hs] at hof
          · exact ⟨_, hm⟩
      obtain ⟨seen, hw⟩ := hw
      obtain ⟨-, r, left, ht, hmay⟩ := waiters_spec hw
      have hr : r.requester = c := (takeRequest_spec ht).1
      subst hr
      exact ⟨r, left, ht, by simpa using hof, hmay, by simp [hof, ht]⟩

/-- Everything a step can do (10_state.md R25, 60_exceptions.md R155): let time pass where no agent has a step, go on with
the operation in progress, or serve a request; by one micro-step. -/
theorem step_cases (s : State) :
    ∃ env, env.gpio = s.env.gpio ∧ env.alloc = s.env.alloc ∧ env.edge = s.env.edge
      ∧ ((s.seq = .idle ∧ agents s = [] ∧ step s = .next (State.tick { s with grain := .micro, env := env }))
        ∨ (∃ c op pos, s.seq = .busy c op pos
            ∧ step s = resumeOp c op pos { s with grain := .micro, env := env })
        ∨ ∃ r left, takeRequest r.requester s.pending = some (r, left)
            ∧ s.seq.isOf r.requester = false ∧ mayServe s.seq r = true
            ∧ step s = serveRequest r { s with grain := .micro, pending := left, cur := r, env := env }) := by
  obtain ⟨env, h1, h2, h3, h⟩ := nextTurn_cases { s with grain := .micro }
  refine ⟨env, h1, h2, h3, ?_⟩
  rcases h with ⟨hs, ha, h⟩ | ⟨c, op, pos, hs, h⟩ | ⟨r, left, ht, ho, hm, h⟩
  · exact .inl ⟨hs, ha, by rw [step, h]⟩
  · have hs : s.seq = .busy c op pos := hs
    refine .inr (.inl ⟨c, op, pos, hs, ?_⟩)
    rw [step, h]
    simp only [resumeSeq, hs]
  · exact .inr (.inr ⟨r, left, ht, ho, hm, by rw [step, h]⟩)

end Sys2Proof.Machine
end

