-- ==== Sys2Proof/Tests/Slice0.lean ====
section
/-! SUPPORT. Tests, their expected results taken from the tables and vectors of spec/, and for each obligation
with hypotheses a state and operands that meet them. -/

namespace Sys2Proof.Tests

open Sys2Proof Sys2Proof.Machine

/-! ### States for the tests -/

/-- A request of requester 7. -/
def request (internal : Bool) (w : FormatWord) (text : List Byte) : Request :=
  { requester := 7, internal := internal, word := w, pinMap := PinMap.sample, text := text }

/-- A handle ready for use, GPIO calls answered as given, the request at the port, operations taken whole. -/
def ready (answers : List Bool) (r : Request) : State :=
  { State.reset with
    pins := PerPin.all .low
    dirs := PerPin.all .outPpNoPull
    handle := .valid
    config := some { geometry := 0x00#8, mode := .bit4 }
    pinMap := some PinMap.sample
    dispatch := some fourBit
    lock := .free
    cur := r
    grain := .whole
    env := { Env.unfixed with gpio := answers } }

/-- Before INIT, storage answered ok, GPIO calls answered as given, operations taken whole. -/
def fresh (answers : List Bool) : State :=
  { State.reset with
    cur := request false (.req20 0x10000#20) []
    grain := .whole
    env := { Env.unfixed with gpio := answers, alloc := [true] } }

/-- At reset, CONFIGURE at the port, operations taken whole; the one SET(EN,0) with EN unknown is no falling edge. -/
def unconfigured (answers : List Bool) : State :=
  { State.reset with
    cur := request true (.req20 0x80000#20) []
    grain := .whole
    env := { Env.unfixed with gpio := answers, edge := [(false, 0#6)] } }

/-- `n` calls answered ok. -/
def oks (n : Nat) : List Bool := List.replicate n true

/-- `k` calls answered ok, the next err. -/
def failAt (k : Nat) : List Bool := List.replicate k true ++ [false]

/-- The next state of an outcome, or the state given. -/
def after (o : Host.Outcome State Fault Refusal) (s : State) : State :=
  match o with
  | .next t => t
  | .fault _ => s
  | .refused _ => s

/-- Does the machine go on? -/
def goesOn (o : Host.Outcome State Fault Refusal) : Bool :=
  match o with
  | .next _ => true
  | .fault _ => false
  | .refused _ => false

/-- The refusal of an outcome. -/
def refusalOf (o : Host.Outcome State Fault Refusal) : Option Refusal :=
  match o with
  | .next _ => none
  | .fault _ => none
  | .refused r => some r

/-! ### Decoding: words written out from the tables (30_encoding.md R72, R74, R76, R77, R79, R80) -/

theorem test_decode_init : decodeReq 0b0001_00000000_00000000#20 = .ok (.init 0x00#8 0x00#8) := by decide
theorem test_decode_init_operands : decodeReq 0b0001_00000010_00000001#20 = .ok (.init 0x02#8 0x01#8) := by decide
theorem test_decode_clear : decodeReq 0b0010_00000000_00000000#20 = .ok .clear := by decide
theorem test_decode_home : decodeReq 0b0011_00000000_00000000#20 = .ok .home := by decide
theorem test_decode_gotoxy : decodeReq 0b0100_00001111_00000001#20 = .ok (.gotoxy 0x0F#8 0x01#8) := by decide
theorem test_decode_write_string : decodeReq 0b0101_00000000_00000000#20 = .ok .writeString := by decide
theorem test_decode_configure : decodeReq 0b1000_00000000_00000000#20 = .ok .configure := by decide
theorem test_decode_nibble : decodeReq 0b1001_00000001_00000100#20 = .ok (.nibble true 0x4#4) := by decide
theorem test_decode_write_cmd : decodeReq 0b1010_00000000_00101000#20 = .ok (.writeCmd 0x28#8) := by decide
theorem test_decode_write_data : decodeReq 0b1011_00000000_01000001#20 = .ok (.writeData 0x41#8) := by decide
theorem test_decode_bus_cmd : decodeBus6 0b001000#6 = .ok (.busCmdNibble 0x8#4) := by decide
theorem test_decode_bus_data : decodeBus6 0b100100#6 = .ok (.busDataNibble 0x4#4) := by decide
theorem test_decode_wire_cmd : decodeBus12 0b000010_001000#12 = .ok (.busWriteCmd 0x2#4 0x8#4) := by decide
theorem test_decode_wire_data : decodeBus12 0b100100_100001#12 = .ok (.busWriteData 0x4#4 0x1#4) := by decide
theorem test_decode_cmd_clear : decodeCmd8 0b00000001#8 = .ok .cmdClearDisplay := by decide
theorem test_decode_cmd_home : decodeCmd8 0b00000010#8 = .ok .cmdReturnHome := by decide
theorem test_decode_cmd_entry : decodeCmd8 0b00000110#8 = .ok .cmdEntryModeSet := by decide
theorem test_decode_cmd_on : decodeCmd8 0b00001100#8 = .ok .cmdDisplayOn := by decide
theorem test_decode_cmd_function : decodeCmd8 0b00101000#8 = .ok .cmdFunctionSet := by decide
theorem test_decode_cmd_address : decodeCmd8 0b11001111#8 = .ok (.cmdSetDdramAddr 0x4F#7) := by decide

theorem test_reject_unassigned : decodeReq 0x60000#20 = .error (.unassignedOp 0x60000#20) := by decide
theorem test_reject_clear_operand : decodeReq 0x20001#20 = .error (.operandNotZero 0x20001#20) := by decide
theorem test_reject_nibble_b : decodeReq 0x90010#20 = .error (.operandNotZero 0x90010#20) := by decide
theorem test_reject_nibble_a : decodeReq 0x90200#20 = .error (.operandNotZero 0x90200#20) := by decide
theorem test_reject_write_cmd_a : decodeReq 0xA0128#20 = .error (.operandNotZero 0xA0128#20) := by decide
theorem test_reject_read_image : decodeBus6 0b010000#6 = .error (.rwSet 0b010000#6) := by decide
theorem test_reject_mixed_rs : decodeBus12 0b000100_100001#12 = .error (.notOneByte 0b000100_100001#12) := by
  decide
theorem test_reject_command : decodeCmd8 0x03#8 = .error (.notACommand 0x03#8) := by decide

/-- The spec's words encode back (30_encoding.md R72, R76, R78). -/
theorem test_encode_words :
    encode (.gotoxy 0x0F#8 0x01#8) = .req20 0x40F01#20 ∧ encode (.nibble true 0x4#4) = .req20 0x90104#20
      ∧ encode (.busWriteData 0x4#4 0x1#4) = .bus12 0b100100_100001#12
      ∧ encode (.cmdSetDdramAddr 0x4F#7) = .cmd8 0xCF#8 := by decide

/-- Bare words of the opcode table, in bits and in whole bytes. -/
theorem test_table_words :
    decodeTableWord 20 0x40F01 = some (.gotoxy 0x0F#8 0x01#8)
      ∧ decodeTableWord 24 0x20000 = some .clear ∧ decodeTableWord 16 0x221 = none
      ∧ decodeTableWord 16 0x861 = some (.busWriteData 0x1#4 0x1#4)
      ∧ decodeTableWord 8 0x20 = some (.busDataNibble 0x0#4)
      ∧ decodeTableWord 8 0x00 = some (.busCmdNibble 0x0#4)
      ∧ decodeTableWord 8 0x01 = some .cmdClearDisplay
      ∧ decodeTableWord 8 0x80 = some (.cmdSetDdramAddr 0x00#7) := by decide

/-! ### Ill-formed sidebands are refused -/

theorem test_ill_formed_text : textTerminated [0x41#8, 0x42#8] = false := by decide
theorem test_ill_formed_pins_repeat : pinsDistinct [PhysPin.mk 0 1, PhysPin.mk 0 2, PhysPin.mk 0 1] = false := by
  decide
theorem test_ill_formed_pins_overlap : pinsDisjoint [PhysPin.mk 0 1] [PhysPin.mk 1 1, PhysPin.mk 0 1] = false := by
  decide
theorem test_unterminated_text_refused :
    refusalOf (exec .writeString (ready [] (request false (.req20 0x50000#20) [0x41#8])))
      = some .unterminatedText := by decide
theorem test_pin_conflict_refused :
    refusalOf (exec (.init 0x00#8 0x00#8) { fresh [] with otherPins := [PhysPin.mk 0 3] })
      = some .pinMapConflict := by decide
theorem test_second_init_refused :
    refusalOf (exec (.init 0x00#8 0x00#8) (ready [] (request false (.req20 0x10000#20) [])))
      = some .secondInit := by decide

/-! ### Single steps, expected results from 95_test_vectors.md and the rules -/

/-- NIBBLE 0x4, 1 shows `100100` (41_nibble_transfer.md R100, 30_encoding.md R74). -/
theorem test_nibble_image :
    (after (exec (.nibble true 0x4#4) (ready (oks 8) (request true (.req20 0x90104#20) []))) State.reset).latched
      = [0b100100#6] := by decide
/-- The failed SET(EN,1), the seventh call, is made on the pin PINMAP[EN], and is the last (10_state.md R29,
41_nibble_transfer.md R104). -/
theorem test_nibble_abort :
    (after (exec (.nibble true 0x4#4)
        { ready (failAt 6) (request true (.req20 0x90104#20) []) with
          pinMap := some { PinMap.sample with en := ⟨3, 9⟩ } }) State.reset).calls.drop 6
      = [{ pin := ⟨3, 9⟩, act := .setLevel true, ok := false }] := by decide
theorem test_write_cmd_images :
    (after (exec (.writeCmd 0x28#8) (ready (oks 16) (request true (.req20 0xA0028#20) []))) State.reset).latched
      = [0x02#6, 0x08#6] := by decide
theorem test_write_data_images :
    (after (exec (.writeData 0x41#8) (ready (oks 16) (request true (.req20 0xB0041#20) []))) State.reset).latched
      = [0x24#6, 0x21#6] := by decide
theorem test_bus_cmd_image :
    (after (exec (.busCmdNibble 0x8#4) (ready (oks 8) (request true (.bus6 0x08#6) []))) State.reset).latched
      = [0x08#6] := by decide
theorem test_bus_data_image :
    (after (exec (.busDataNibble 0x8#4) (ready (oks 8) (request true (.bus6 0x28#6) []))) State.reset).latched
      = [0x28#6] := by decide
theorem test_wire_cmd_images :
    (after (exec (.busWriteCmd 0x2#4 0x8#4) (ready (oks 16) (request true (.bus12 0x088#12) []))) State.reset).latched
      = [0x02#6, 0x08#6] := by decide
theorem test_wire_data_images :
    (after (exec (.busWriteData 0x4#4 0x1#4) (ready (oks 16) (request true (.bus12 0x921#12) []))) State.reset).latched
      = [0x24#6, 0x21#6] := by decide
theorem test_command_images :
    [Instr.cmdClearDisplay, .cmdReturnHome, .cmdEntryModeSet, .cmdDisplayOn, .cmdFunctionSet,
        .cmdSetDdramAddr 0x40#7].map
        (fun i => (after (exec i (ready (oks 16) (request true (.cmd8 0x00#8) []))) State.reset).latched)
      = [[0x00#6, 0x01#6], [0x00#6, 0x02#6], [0x00#6, 0x06#6], [0x00#6, 0x0C#6], [0x02#6, 0x08#6],
          [0x0C#6, 0x00#6]] := by decide
/-- CONFIGURE with EN high shows the lines at that moment: RS, RW already 0, D7..D4 still 1 (40_pin_configuration.md
R94 (d)). -/
theorem test_configure_from_high :
    (after (exec .configure { unconfigured (oks 14) with pins := PerPin.all .high }) State.reset).dirs
        = PerPin.all .outPpNoPull
      ∧ (after (exec .configure { unconfigured (oks 14) with pins := PerPin.all .high }) State.reset).latched = [0x0F#6] := by
  decide
/-- With EN never driven all six levels of the image are open, RW among them (93_implementation_defined.md U5). -/
theorem test_configure_unknown_image :
    (after (exec .configure
        { unconfigured (oks 14) with env := { Env.unfixed with gpio := oks 14, edge := [(true, 0x3F#6)] } })
      State.reset).latched = [0x3F#6] := by decide
theorem test_clear_trace_ends :
    (after (exec .clear (ready (oks 16) (request false (.req20 0x20000#20) []))) State.reset).trace.drop 21
      = [.wait 2, .rel 7, .ret 7 .ok] := by decide
theorem test_home_images :
    (after (exec .home (ready (oks 16) (request false (.req20 0x30000#20) []))) State.reset).latched
      = [0x00#6, 0x02#6] := by decide
/-- The last legal position of 16 by 2 sends 0xCF, the position after a row's end fails (43_public_operations.md R127). -/
theorem test_gotoxy_range :
    (after (exec (.gotoxy 0x0F#8 0x01#8) (ready (oks 16) (request false (.req20 0x40F01#20) []))) State.reset).latched
        = [0x0C#6, 0x0F#6]
      ∧ (after (exec (.gotoxy 0x10#8 0x00#8) (ready [] (request false (.req20 0x41000#20) []))) State.reset).trace
        = [.acq 7, .rel 7, .ret 7 (.err (.rangeError 0x10#8 0x00#8))] := by decide
/-- The text "A" sends 0x41 as data and stops at its zero byte (43_public_operations.md R125). -/
theorem test_write_string :
    (after (exec .writeString (ready (oks 16) (request false (.req20 0x50000#20) [0x41#8, 0x00#8, 0x42#8])))
        State.reset).latched = [0x24#6, 0x21#6] := by decide
/-- The empty text makes no pin activity (43_public_operations.md R127 (a)). -/
theorem test_write_string_empty :
    (after (exec .writeString (ready [] (request false (.req20 0x50000#20) [0x00#8]))) State.reset).trace
      = [.acq 7, .rd 0 0x00#8, .rel 7, .ret 7 .ok] := by decide
set_option maxRecDepth 8000 in
/-- The ten images of a successful INIT (42_init_sequence.md R113), EN low before it. -/
theorem test_init_images :
    (after (exec (.init 0x00#8 0x00#8) { fresh (oks 94) with pins := PerPin.all .low }) State.reset).latched
      = [0x00#6, 0x02#6, 0x02#6, 0x08#6, 0x00#6, 0x06#6, 0x00#6, 0x0C#6, 0x00#6, 0x01#6] := by decide
/-- INIT in the 8-bit mode (42_init_sequence.md R114). -/
theorem test_init_mode :
    (after (exec (.init 0x00#8 0x01#8) (fresh [])) State.reset).trace = [.ret 7 (.null (.modeUnimplemented 0x01#8))]
    := by decide
/-- A caller's internal word is illegal (60_exceptions.md R152). -/
theorem test_internal_refused :
    (after (exec (.writeCmd 0x28#8) (ready (oks 16) (request false (.req20 0xA0028#20) []))) State.reset).trace
      = [.ret 7 (.err (.reqIllegal (.req20 0xA0028#20)))] := by decide
/-- Before INIT an operation is refused (43_public_operations.md R128). -/
theorem test_handle_invalid :
    (after (exec .clear (fresh [])) State.reset).result = some (.err .handleInvalid) := by decide
/-- The step runs the word placed at the port as the first instruction after reset. -/
theorem test_fetch_word_runs :
    (after (step (State.reset.withFetchWord 20 0x20000)) State.reset).trace = [.ret 0 (.err .handleInvalid)] := by
  decide

/-! ### The obligations' hypotheses are met -/

theorem witness_EncodeThenDecodeGivesTheInstruction : (Instr.gotoxy 0xFF#8 0xFF#8).WellFormed = true := rfl

theorem witness_DecodedWordsHaveOneEncoding :
    decode (.req20 0x4FFFF#20) = .ok (.gotoxy 0xFF#8 0xFF#8) ∧ decode (.bus6 0x2F#6) = .ok (.busDataNibble 0xF#4)
      ∧ decode (.bus12 0xBEF#12) = .ok (.busWriteData 0xF#4 0xF#4)
      ∧ decode (.cmd8 0xFF#8) = .ok (.cmdSetDdramAddr 0x7F#7) := by decide

/-- Each clause of the illegal words holds of some word, and the last legal word beside it meets none. -/
theorem witness_IllegalRequestWords :
    reqOp 0xC0000#20 = 0xC#4 ∧ (reqOp 0x50001#20 = 0x5#4 ∧ reqB 0x50001#20 ≠ 0#8)
      ∧ (reqOp 0x90200#20 = 0x9#4 ∧ (reqA 0x90200#20).extractLsb' 1 7 ≠ 0#7)
      ∧ (reqOp 0x90010#20 = 0x9#4 ∧ (reqB 0x90010#20).extractLsb' 4 4 ≠ 0#4)
      ∧ (reqOp 0xB0100#20 = 0xB#4 ∧ reqA 0xB0100#20 ≠ 0#8)
      ∧ decode (.req20 0x9010F#20) = .ok (.nibble true 0xF#4)
      ∧ decode (.req20 0xB00FF#20) = .ok (.writeData 0xFF#8) := by decide

/-- One pending request, before INIT. -/
def waiting (r : Request) : State := { State.reset with pending := [r] }

theorem witness_StepRunsTheDecodedInstruction :
    (waiting (request false (.req20 0x20000#20) [])).seq = .idle
      ∧ (waiting (request false (.req20 0x20000#20) [])).pending = [request false (.req20 0x20000#20) []]
      ∧ decode (request false (.req20 0x20000#20) []).word = .ok .clear
      ∧ Instr.clear.WellFormed = true := by decide

theorem witness_IllegalWordIsRefused :
    (waiting (request false (.req20 0x20001#20) [])).seq = .idle
      ∧ (waiting (request false (.req20 0x20001#20) [])).pending = [request false (.req20 0x20001#20) []]
      ∧ decode (request false (.req20 0x20001#20) []).word = .error (.operandNotZero 0x20001#20) := by decide

theorem witness_InternalWordsAreRefusedAtThePublicPort :
    Instr.configure.isPublic = false
      ∧ (ready [] (request false (.req20 0x80000#20) [])).cur.internal = false := by decide

/-- CLEAR of requester 7 waits, then HOME of requester `c`; the scheduler's choice is `k`. -/
def twoWaiting (c k : Nat) : State :=
  { State.reset with
    pending := [request false (.req20 0x20000#20) [], { request false (.req20 0x30000#20) [] with requester := c }]
    env := { Env.unfixed with pick := [k] } }

theorem witness_EitherWaiterMayBeServed :
    (twoWaiting 3 0).seq = .idle ∧ (twoWaiting 3 0).env.pick = 0 :: [] ∧ (twoWaiting 3 1).env.pick = 1 :: []
      ∧ (twoWaiting 3 1).pending
          = [request false (.req20 0x20000#20) [], { request false (.req20 0x30000#20) [] with requester := 3 }]
      ∧ (7 : Nat) ≠ 3 := by decide

/-- Of two requests of one requester the first is served, whatever the scheduler picks. -/
theorem witness_OneRequesterIsServedInOrder :
    nextTurn (twoWaiting 7 1) =
      (.serve (request false (.req20 0x20000#20) []),
        { twoWaiting 7 1 with
          pending := [request false (.req20 0x30000#20) []], cur := request false (.req20 0x20000#20) [] }) := rfl

/-- A requester whose INIT is in progress presents nothing else (60_exceptions.md R155). -/
theorem test_busy_requester_waits :
    (nextTurn { waiting (request false (.req20 0x20000#20) []) with
      seq := .busy 7 (.init 0x00#8 0x00#8 PinMap.sample) (Pos.plain .bind) }).1 = .resume := by decide

/-- CLEAR of requester 7 in progress at its settle wait, another request pending. -/
def clearing : State :=
  { ready [] (request false (.req20 0x20000#20) []) with
    seq := .busy 7 .clear (Pos.plain .settle)
    lock := .held 7
    trace := [.mkLock, .acq 7]
    pending := [request false (.req20 0x30000#20) []] }

theorem witness_NoRequestIsServedDuringALockedOperation :
    clearing.seq = .busy 7 .clear (Pos.plain .settle) ∧ Op.clear.isInit = false := by decide

/-- CLEAR of requester 7 at the last call of its byte. -/
def strobing (answer : Bool) : State :=
  { clearing with
    seq := .busy 7 .clear { phase := .cmd, half := .lo, nstep := 8 }
    env := { Env.unfixed with gpio := [answer] } }

theorem witness_OneMicroStepAdvancesTheSequencer :
    (strobing true).seq = .busy 7 .clear { phase := .cmd, half := .lo, nstep := 8 }
      ∧ waiters (strobing true).seq [7] (strobing true).pending = []
      ∧ ∃ code rest, opCode 7 .clear (strobing true) = some code
          ∧ codeFrom { phase := .cmd, half := .lo, nstep := 8 } code
              = ({ phase := .cmd, half := .lo, nstep := 8 }, .set .en false) :: rest :=
  ⟨rfl, rfl, _, _, rfl, rfl⟩

/-- It advances by one, and on a failure takes the abort path, from which it goes to IDLE (10_state.md R25). -/
theorem test_micro_step :
    (after (step (strobing true)) State.reset).seq = .busy 7 .clear { phase := .cmd, half := .lo, nstep := 9 }
      ∧ (after (step (strobing false)) State.reset).seq
          = .busy 7 .clear (Pos.plain (.abort (.gpio (.setFail .en))))
      ∧ (after (step (after (step (strobing false)) State.reset)) State.reset).seq = .idle := by decide

theorem witness_AStepMakesAtMostOneCall : ∃ t, step (strobing true) = .next t := ⟨_, rfl⟩

theorem witness_OneMicroStepAdvancesTheSequencer_abort :
    (after (step (strobing false)) State.reset).seq = .busy 7 .clear (Pos.plain (.abort (.gpio (.setFail .en))))
      ∧ waiters (after (step (strobing false)) State.reset).seq [7]
          (after (step (strobing false)) State.reset).pending = [] := by decide

/-- INIT of requester 7 in progress at its binding, `r` pending. -/
def binding (r : Request) : State :=
  { waiting r with seq := .busy 7 (.init 0x00#8 0x00#8 PinMap.sample) (Pos.plain .bind) }

/-- Pending requests that an INIT in progress lets wait: one of its own requester, one of the sequencer; and one that it
does not. -/
theorem witness_OneMicroStepAdvancesTheSequencer_init :
    waiters (binding (request false (.req20 0x20000#20) [])).seq [7] [request false (.req20 0x20000#20) []] = []
      ∧ waiters (binding Request.placeholder).seq [7] [{ request true (.req20 0x80000#20) [] with requester := 3 }] = []
      ∧ waiters (binding Request.placeholder).seq [7] [{ request false (.req20 0x20000#20) [] with requester := 3 }] = [3]
      ∧ ∃ code rest, opCode 7 (.init 0x00#8 0x00#8 PinMap.sample) (binding Request.placeholder) = some code
          ∧ codeFrom (Pos.plain .bind) code = (Pos.plain .bind, .bind) :: rest :=
  ⟨rfl, rfl, rfl, _, _, rfl, rfl⟩

theorem witness_DisplaysAreIndependent :
    ∃ Q, (Platform.mk [State.reset, State.reset] []).stepAt 0 = .next Q ∧ (1 : Nat) ≠ 0 := ⟨_, rfl, by decide⟩

/-- CLEAR of requester 7 in progress on display 0; HOME of requester 7 and GOTOXY of requester 3 wait for display 1. -/
def twoDisplays : Platform :=
  Platform.mk [{ clearing with pending := [] }, ready [] Request.placeholder]
    [(1, request false (.req20 0x30000#20) []), (1, { request false (.req20 0x40000#20) [] with requester := 3 })]

/-- Requester 7 sleeps in its CLEAR, so that display 1 is presented the GOTOXY of requester 3 alone, and requester 7's
HOME stays in the queue (60_exceptions.md R155). -/
theorem test_sleeping_requester_is_not_served :
    twoDisplays.presented 1 = [{ request false (.req20 0x40000#20) [] with requester := 3 }]
      ∧ (match twoDisplays.stepAt 1 with
          | .next Q => Q.queue
          | .fault _ => []
          | .refused _ => []) = [(1, request false (.req20 0x30000#20) [])] := by decide

theorem witness_APlatformServesEachRequesterInOrder : ∃ Q, twoDisplays.stepAt 1 = .next Q := ⟨_, rfl⟩

theorem witness_NoRequesterRunsOnTwoDisplays : twoDisplays.OneAgentEach ∧ ∃ Q, twoDisplays.stepAt 1 = .next Q := by
  refine ⟨?_, _, rfl⟩
  intro i j a b c hij ha hb hc
  match i, j with
  | 0, 0 => exact absurd rfl hij
  | 0, 1 => cases hb; exact fun h => by cases h
  | 1, _ => cases ha; cases hc
  | 0, j + 2 => cases hb
  | i + 2, _ => cases ha

theorem witness_GpioCfgIsOneCall :
    (unconfigured [true]).env.gpio = true :: [] ∧ (unconfigured [false]).env.gpio = false :: []
      ∧ (ready [true] Request.placeholder).env.gpio = true :: []
      ∧ (ready [true] Request.placeholder).pinMap = some PinMap.sample := by decide

theorem witness_CallsWithoutAPinMapUseTheRequests :
    (unconfigured [true]).pinMap = none ∧ (unconfigured [true]).env.gpio = true :: [] := by decide

/-- EN low, high and not yet driven. -/
theorem witness_GpioSetIsOneCall :
    (ready [true] Request.placeholder).pinMap = some PinMap.sample
      ∧ (ready [true] Request.placeholder).env.gpio = true :: [] ∧ (ready [false] Request.placeholder).env.gpio = false :: []
      ∧ (ready [true] Request.placeholder).pins.en = .low
      ∧ ({ ready [true] Request.placeholder with pins := PerPin.all .high } : State).pins.en = .high
      ∧ (unconfigured [true]).env.gpio = true :: [] ∧ (unconfigured [true]).pins.en = .unknown := by decide

theorem witness_LockAcquireAndRelease :
    (ready [] Request.placeholder).lock = .free ∧ clearing.lock = .held 7 ∧ clearing.lock ≠ .free
      ∧ State.reset.lock ≠ .free := by decide

theorem witness_NibbleDrivesStrobesAndLatches :
    Level1Ready (ready (oks 8) (request true (.req20 0x9010F#20) []))
      ∧ GpioOk 8 (ready (oks 8) (request true (.req20 0x9010F#20) [])) := by decide

theorem witness_NibbleDrivesStrobesAndLatches_abort :
    Level1Ready (ready (failAt 7) (request true (.req20 0x9010F#20) [])) ∧ 7 < 8 ∧ 0 < 8
      ∧ GpioFailsAt 7 (ready (failAt 7) (request true (.req20 0x9010F#20) []))
      ∧ GpioFailsAt 0 (ready (failAt 0) (request true (.req20 0x9010F#20) [])) := by decide

theorem witness_ByteTransferSendsHighNibbleFirst :
    byteTransfer (.writeCmd 0x28#8) = some (false, 0x28#8) ∧ byteTransfer (.writeData 0xFF#8) = some (true, 0xFF#8)
      ∧ Level1Ready (ready (oks 16) (request true (.req20 0xA0028#20) []))
      ∧ GpioOk 16 (ready (oks 16) (request true (.req20 0xA0028#20) [])) := by decide

/-- The last call of the high nibble and the first of the low one. -/
theorem witness_ByteTransferSendsHighNibbleFirst_abort :
    byteTransfer (.writeData 0x41#8) = some (true, 0x41#8)
      ∧ Level1Ready (ready (failAt 7) (request true (.req20 0xB0041#20) []))
      ∧ GpioFailsAt 7 (ready (failAt 7) (request true (.req20 0xB0041#20) []))
      ∧ GpioFailsAt 8 (ready (failAt 8) (request true (.req20 0xB0041#20) []))
      ∧ GpioFailsAt 15 (ready (failAt 15) (request true (.req20 0xB0041#20) [])) := by decide

theorem witness_BusNibbleRowsShowTheirImage :
    busNibble (.busCmdNibble 0x8#4) = some (false, 0x8#4) ∧ busNibble (.busDataNibble 0xF#4) = some (true, 0xF#4)
      ∧ Level1Ready (ready (oks 8) (request true (.bus6 0x08#6) []))
      ∧ GpioOk 8 (ready (oks 8) (request true (.bus6 0x08#6) []))
      ∧ GpioFailsAt 0 (ready (failAt 0) (request true (.bus6 0x08#6) []))
      ∧ GpioFailsAt 7 (ready (failAt 7) (request true (.bus6 0x08#6) [])) := by decide

theorem witness_WireAndCommandRowsSendTheirByte :
    wireByte (.busWriteData 0x4#4 0x1#4) = some (true, 0x41#8) ∧ wireByte (.busWriteCmd 0x2#4 0x8#4) = some (false, 0x28#8)
      ∧ wireByte (.cmdSetDdramAddr 0x7F#7) = some (false, 0xFF#8) ∧ wireByte .cmdDisplayOn = some (false, 0x0C#8)
      ∧ Level1Ready (ready (oks 16) (request true (.cmd8 0xFF#8) []))
      ∧ GpioOk 16 (ready (oks 16) (request true (.cmd8 0xFF#8) []))
      ∧ GpioFailsAt 7 (ready (failAt 7) (request true (.cmd8 0xFF#8) []))
      ∧ GpioFailsAt 8 (ready (failAt 8) (request true (.cmd8 0xFF#8) [])) := by decide

theorem witness_ConfigureProgramsAndLowersAllSevenPins :
    Level1Ready (unconfigured (oks 14)) ∧ GpioOk 14 (unconfigured (oks 14))
      ∧ (unconfigured (oks 14)).pins.en = .unknown
      ∧ ({ unconfigured (oks 14) with pins := PerPin.all .high } : State).pins.en = .high
      ∧ ({ unconfigured (oks 14) with pins := PerPin.all .low } : State).pins.en = .low := by decide

theorem witness_ConfigureProgramsAndLowersAllSevenPins_abort :
    Level1Ready (unconfigured (failAt 6)) ∧ GpioFailsAt 6 (unconfigured (failAt 6))
      ∧ GpioFailsAt 9 (unconfigured (failAt 9)) ∧ GpioFailsAt 10 (unconfigured (failAt 10))
      ∧ GpioFailsAt 13 (unconfigured (failAt 13)) := by decide

theorem witness_InitRunsTheWholeSequence :
    InitReady 0x00#8 0x00#8 (fresh (oks 94)) ∧ (fresh (oks 94)).cfg.lockCreateOk = true
      ∧ (fresh (oks 94)).env.alloc = true :: [] ∧ GpioOk 94 (fresh (oks 94)) := by decide

/-- The last call of CONFIGURE, the first of the first command, and the last of all. -/
theorem witness_InitFailsAtAnyGpioCall :
    InitReady 0x00#8 0x00#8 (fresh (failAt 13)) ∧ (fresh (failAt 13)).env.alloc = true :: []
      ∧ GpioFailsAt 13 (fresh (failAt 13)) ∧ GpioFailsAt 14 (fresh (failAt 14))
      ∧ GpioFailsAt 93 (fresh (failAt 93)) := by decide

theorem witness_InitWithAnotherModeFailsFirst :
    (geometryOf (fresh []).cfg 0x00#8).isSome = true ∧ (0x01#8 : Byte) ≠ 0x00#8 := by decide

theorem witness_InitWithUnknownGeometryIsRefused :
    (0x01#8 : Byte) ≠ 0x00#8 ∧ (fresh []).cfg.geometryTable.lookup 0x01#8 = none := by decide

theorem witness_InitWithoutStorageFails :
    InitReady 0x00#8 0x00#8 { fresh [] with env := { Env.unfixed with alloc := [false] } }
      ∧ ({ fresh [] with env := { Env.unfixed with alloc := [false] } } : State).env.alloc = false :: [] := by decide

theorem witness_InitWithoutLockIsTornDown :
    InitReady 0x00#8 0x00#8 { fresh (oks 94) with cfg := { Config.default with lockCreateOk := false } }
      ∧ (fresh (oks 94)).env.alloc = true :: []
      ∧ GpioOk 94 { fresh (oks 94) with cfg := { Config.default with lockCreateOk := false } } := by decide

theorem witness_InitOutsideItsPremisesIsRefused :
    (geometryOf (fresh []).cfg 0x00#8).isSome = true ∧ (ready [] Request.placeholder).handle ≠ .none
      ∧ (fresh []).handle = .none
      ∧ pinMapAccepted [PhysPin.mk 0 6] (fresh []).cur.pinMap = false := by decide

theorem witness_ClearSendsOneCommandAndWaits :
    Ready (ready (oks 16) (request false (.req20 0x20000#20) []))
      ∧ GpioOk 16 (ready (oks 16) (request false (.req20 0x20000#20) [])) := by decide

theorem witness_HomeSendsOneCommandAndWaits :
    Ready (ready (oks 16) (request false (.req20 0x30000#20) []))
      ∧ GpioOk 16 (ready (oks 16) (request false (.req20 0x30000#20) [])) := by decide

/-- GOTOXY 15, 1: the last position in range. -/
theorem witness_GotoxySendsTheAddressOrFails :
    Ready (ready (oks 16) (request false (.req20 0x40F01#20) []))
      ∧ InRange 0x0F#8 0x01#8 { geometry := 0x00#8, mode := .bit4 } 16 2 [0x00, 0x40] 0x40
          (ready (oks 16) (request false (.req20 0x40F01#20) []))
      ∧ GpioOk 16 (ready (oks 16) (request false (.req20 0x40F01#20) [])) := by decide

/-- A display of two rows whose second row begins at 0x78 and whose rows are wide. -/
def wide : State :=
  { ready [] (request false (.req20 0x40801#20) []) with
    cfg := { Config.default with geometryTable := [(0x01#8, 40, 2)], rowBase2 := [0x00, 0x78] }
    config := some { geometry := 0x01#8, mode := .bit4 } }

/-- A row, a column, and an address just past their ends. -/
theorem witness_GotoxySendsTheAddressOrFails_range :
    Ready wide ∧ wide.config = some { geometry := 0x01#8, mode := .bit4 }
      ∧ geometryOf wide.cfg 0x01#8 = some (40, 2) ∧ wide.cfg.lockReleaseOnError = true
      ∧ OutOfRange 0x00#8 0x02#8 40 2 wide ∧ OutOfRange 0x28#8 0x00#8 40 2 wide
      ∧ OutOfRange 0x08#8 0x01#8 40 2 wide :=
  ⟨by decide, by decide, by decide, by decide, .inl (by decide), .inr (.inl (by decide)),
    .inr (.inr ⟨[0x00, 0x78], 0x78, rfl, rfl, by decide⟩)⟩

/-- A display of four rows with the row bases given. -/
def fourRows (bases : List (Nat × List Nat)) : State :=
  { ready [] (request false (.req20 0x40000#20) []) with
    cfg := { Config.default with geometryTable := [(0x01#8, 20, 4)], rowBaseTable := bases }
    config := some { geometry := 0x01#8, mode := .bit4 } }

/-- No row bases, row bases of three rows only, and the positions at the ends of the range. -/
theorem witness_GotoxyWithoutRowBasesIsRefused :
    (fourRows []).handle = .valid ∧ (fourRows []).config = some { geometry := 0x01#8, mode := .bit4 }
      ∧ geometryOf (fourRows []).cfg 0x01#8 = some (20, 4)
      ∧ rowBasesOf (fourRows []).cfg 4 = none
      ∧ rowBasesOf (fourRows [(4, [0x00, 0x40, 0x14])]).cfg 4 = some [0x00, 0x40, 0x14]
      ∧ ([0x00, 0x40, 0x14] : List Nat)[(0x03#8 : Byte).toNat]? = none
      ∧ (0x03#8 : Byte).toNat < 4 ∧ (0x13#8 : Byte).toNat < 20
      ∧ 4 ≤ (0x04#8 : Byte).toNat ∧ 20 ≤ (0x14#8 : Byte).toNat := by decide

theorem witness_SixteenByTwoAddressTable :
    gotoxyTarget Config.default (some { geometry := 0x00#8, mode := .bit4 }) 0x0F#8 0x00#8 = .byte 0x8F#8
      ∧ gotoxyTarget Config.default (some { geometry := 0x00#8, mode := .bit4 }) 0x0F#8 0x01#8 = .byte 0xCF#8
      ∧ (0x0F#8 : Byte).toNat < 16 ∧ (0x01#8 : Byte).toNat < 2 := by decide

/-- A text of one byte and its terminator at the port. -/
def writing (answers : List Bool) : State :=
  ready answers (request false (.req20 0x50000#20) [0x41#8, 0x00#8])

theorem witness_WriteStringSendsUpToTheTerminator :
    Ready (writing (oks 16)) ∧ textTerminated (writing (oks 16)).cur.text = true
      ∧ textBody (writing (oks 16)).cur.text = [0x41#8] ∧ GpioOk (16 * 1) (writing (oks 16)) := by decide

theorem witness_ClearAndHome_abort :
    Ready (ready (failAt 15) (request false (.req20 0x20000#20) []))
      ∧ (ready (failAt 15) (request false (.req20 0x20000#20) [])).cfg.lockReleaseOnError = true
      ∧ GpioFailsAt 15 (ready (failAt 15) (request false (.req20 0x20000#20) []))
      ∧ GpioFailsAt 0 (ready (failAt 0) (request false (.req20 0x20000#20) [])) := by decide

theorem witness_GotoxySendsTheAddressOrFails_abort :
    Ready (ready (failAt 8) (request false (.req20 0x40000#20) []))
      ∧ InRange 0x00#8 0x00#8 { geometry := 0x00#8, mode := .bit4 } 16 2 [0x00, 0x40] 0x00
          (ready (failAt 8) (request false (.req20 0x40000#20) []))
      ∧ GpioFailsAt 8 (ready (failAt 8) (request false (.req20 0x40000#20) [])) := by decide

theorem witness_WriteStringSendsUpToTheTerminator_abort :
    Ready (writing (failAt 15)) ∧ textTerminated (writing (failAt 15)).cur.text = true
      ∧ 15 < 16 * (textBody (writing (failAt 15)).cur.text).length ∧ GpioFailsAt 15 (writing (failAt 15)) := by
  decide

theorem witness_OperationsNeedAValidHandle :
    isHandleOperation (.gotoxy 0x00#8 0x00#8) = true ∧ (fresh []).handle ≠ .valid := by decide

/-- Requester 3 holds the lock. -/
def heldByAnother : State := { writing [] with lock := .held 3 }

/-- CLEAR, whose request carries no text, WRITE_STRING, and GOTOXY in range and out of range. -/
theorem witness_ARequesterWaitsForTheLock :
    heldByAnother.handle = .valid ∧ heldByAnother.lock = .held 3
      ∧ HasMeaning { heldByAnother with cur := request false (.req20 0x20000#20) [] } .clear
      ∧ HasMeaning heldByAnother .writeString ∧ HasMeaning heldByAnother (.gotoxy 0x0F#8 0x01#8)
      ∧ HasMeaning heldByAnother (.gotoxy 0x10#8 0x00#8) :=
  ⟨rfl, rfl, trivial, rfl,
    ⟨_, _, _, rfl, rfl, .inl ⟨_, _, rfl, rfl, by decide, by decide, rfl, rfl, by decide⟩⟩,
    ⟨_, _, _, rfl, rfl, .inr (.inr (.inl (by decide)))⟩⟩

/-- GOTOXY waits for the lock, and stops where a row has no base. -/
theorem test_gotoxy_waits_or_stops :
    (after (exec (.gotoxy 0x0F#8 0x01#8) heldByAnother) State.reset).pending = [heldByAnother.cur]
      ∧ refusalOf (exec (.gotoxy 0x13#8 0x03#8) (fourRows [(4, [0x00, 0x40, 0x14])])) = some .rowBaseUnknown := by
  decide

theorem witness_UnterminatedTextIsRefused :
    (ready [] (request false (.req20 0x50000#20) [0x41#8])).handle = .valid
      ∧ 0x00#8 ∉ (ready [] (request false (.req20 0x50000#20) [0x41#8])).cur.text := by decide

/-- The invariant holds in the middle of an operation. -/
theorem clearing_inv : Inv clearing :=
  ⟨⟨⟨0x00#8, rfl, rfl⟩, rfl, rfl, by decide⟩,
    ⟨rfl, rfl, fun _ => rfl, .inr ⟨_, rfl, by decide⟩⟩, rfl, by decide⟩

theorem witness_EveryStepKeepsTheInvariant : Inv clearing ∧ ∃ t, step clearing = .next t :=
  ⟨clearing_inv, _, rfl⟩

theorem witness_InvariantStatesNeverFault : Inv clearing := clearing_inv

theorem witness_EveryCallIsOnThePinMap :
    Inv clearing ∧ clearing.pinMap = some PinMap.sample ∧ ∃ t, step clearing = .next t := ⟨clearing_inv, rfl, _, rfl⟩

theorem reset_inv : Inv State.reset :=
  ⟨⟨rfl, rfl, rfl, rfl⟩, ⟨rfl, by decide, fun _ => .inl rfl⟩, rfl, by decide⟩

/-- A display in use beside one at reset. -/
theorem witness_PlatformsStayApart :
    (Platform.mk [clearing, State.reset] []).Apart
      ∧ ∃ Q, (Platform.mk [clearing, State.reset] []).stepAt 1 = .next Q := by
  refine ⟨⟨?_, ?_⟩, _, rfl⟩
  · intro s hs
    simp only [List.mem_cons, List.not_mem_nil, or_false] at hs
    rcases hs with rfl | rfl
    · exact clearing_inv
    · exact reset_inv
  · intro i j a b hij ha hb
    match i, j with
    | 0, 0 => exact absurd rfl hij
    | 0, 1 => cases hb; exact fun _ _ h => by cases h
    | 1, _ => cases ha; exact fun _ h => by cases h
    | 0, j + 2 => cases hb
    | i + 2, _ => cases ha

/-- An INIT in progress counts with its pin map before its allocation (92_eei_decisions.md D22). -/
theorem test_init_in_progress_holds_its_pins :
    refusalOf
        (match (Platform.mk
            [{ State.reset with seq := .busy 3 (.init 0x00#8 0x00#8 PinMap.sample) (Pos.plain .alloc) }, State.reset]
            [(1, request false (.req20 0x10000#20) [])]).stepAt 1 with
          | .next _ => .next State.reset
          | .fault f => .fault f
          | .refused r => .refused r)
      = some .pinMapConflict := by decide

theorem witness_PinActivityIsSerialisedByTheLock :
    Inv clearing ∧ CallersOnly clearing ∧ clearing.cfg.lockReleaseOnError = true ∧ Serialised clearing
      ∧ ∃ t, step clearing = .next t :=
  ⟨clearing_inv, ⟨by simp [clearing, request], by simp [clearing]⟩, rfl, rfl, _, rfl⟩

theorem witness_PinsDirectionsAndTimeFollowTheTrace : ∃ t, step clearing = .next t := ⟨_, rfl⟩

theorem witness_LatchedFollowsTheFallingEdges :
    pinsKnown clearing.pins = true ∧ ∃ t, step clearing = .next t := ⟨rfl, _, rfl⟩

/-- CLEAR pending on a handle ready for use. -/
def clearWaiting : State :=
  { ready (oks 16) Request.placeholder with pending := [request false (.req20 0x20000#20) []] }

theorem clearWaiting_steps : goesOn (step clearWaiting) = true := by decide

/-- CLEAR at the port of a handle ready for use. -/
def clearReady : State := ready (oks 16) (request false (.req20 0x20000#20) [])

theorem clearReady_runs : goesOn (exec .clear clearReady) = true := by decide

theorem goesOn_next {o : Host.Outcome State Fault Refusal} (h : goesOn o = true) : ∃ t, o = .next t := by
  cases o with
  | next t => exact ⟨t, rfl⟩
  | fault f => cases h
  | refused r => cases h

theorem witness_NoImageHasReadSet :
    clearReady.pins.en ≠ .unknown ∧ ∃ t, exec .clear clearReady = .next t :=
  ⟨by decide, goesOn_next clearReady_runs⟩

theorem witness_NoStepFromALowRwLatchesARead :
    (strobing true).pins.rw = .low ∧ (strobing true).pins.en ≠ .unknown ∧ ∃ t, step (strobing true) = .next t :=
  ⟨rfl, by decide, goesOn_next (by decide)⟩

theorem witness_EnStaysLowBetweenOperations :
    RunsWhole clearReady ∧ clearReady.pins.en = .low
      ∧ ∃ t, exec .clear clearReady = .next t
          ∧ ∀ evs, t.trace = clearReady.trace ++ evs → evs.all (fun e => !isEnFallFailure e) = true := by
  refine ⟨rfl, rfl, after (exec .clear clearReady) State.reset, ?_, ?_⟩
  · obtain ⟨t, h⟩ := goesOn_next clearReady_runs
    rw [h]
    rfl
  · intro evs h
    have h0 : clearReady.trace = [] := rfl
    rw [h0, List.nil_append] at h
    rw [← h]
    decide

/-- CLEAR at the last call of its byte, EN high. -/
def strobed : State := { strobing true with pins := { PerPin.all .low with en := .high } }

theorem witness_EnIsHighOnlyInsideTheStrobe :
    Inv strobed ∧ EnFollows strobed
      ∧ ∃ t, step strobed = .next t
          ∧ ∀ evs, t.trace = strobed.trace ++ evs → evs.all (fun e => !isEnFallFailure e) = true := by
  refine ⟨⟨⟨⟨0x00#8, rfl, rfl⟩, rfl, rfl, by decide⟩, ⟨rfl, rfl, fun _ => rfl, .inr ⟨_, rfl, by decide⟩⟩, rfl, by decide⟩,
    rfl, after (step strobed) State.reset, ?_, ?_⟩
  · obtain ⟨t, h⟩ := goesOn_next (o := step strobed) (by decide)
    rw [h]
    rfl
  · intro evs h
    have ht : (after (step strobed) State.reset).trace = strobed.trace ++ [.set .en false true] := by decide
    rw [ht] at h
    rw [← List.append_cancel_left h]
    decide

/-- The step of that state lowers EN. -/
theorem test_strobe_ends : (after (step strobed) State.reset).pins.en = .low := by decide

theorem witness_StepsComeToTheWholeEffect :
    clearWaiting.seq = .idle ∧ clearWaiting.pending = [request false (.req20 0x20000#20) []]
      ∧ decode (request false (.req20 0x20000#20) []).word = .ok .clear
      ∧ ∃ u, exec .clear { clearWaiting with
          pending := [], cur := request false (.req20 0x20000#20) [], grain := .whole } = .next u :=
  ⟨rfl, rfl, rfl, goesOn_next (by decide)⟩

theorem witness_ParametersNeverChange : ∃ t, step clearWaiting = .next t := goesOn_next clearWaiting_steps

theorem witness_AValidHandleStaysValid :
    Inv clearing ∧ clearing.handle = .valid ∧ ∃ t, step clearing = .next t := ⟨clearing_inv, rfl, _, rfl⟩

end Sys2Proof.Tests
end

section
/-! What a step leaves: the pins, the ghosts and the parameters follow the events it appends, whatever it does. Said
once per way an operation is presented or goes on, then of `exec` and of `step`. -/

namespace Sys2Proof.Machine

/-! ### Presenting an operation, and going on with one -/

/-- Loading the request's text touches the TEXT space alone (20_memory.md R52). -/
theorem withText_follows (s : State) : Follows [] s (withText s) := by
  unfold withText
  split
  · exact .of_quiet rfl (by simp) rfl rfl (Nat.le_refl _) rfl rfl rfl rfl rfl
  · exact .refl s

theorem runOp_next_follows {c : Requester} {op : Op} {code : Code} {s t : State}
    (h : Host.Outcome.next (runOp c op code s) = (.next t : Host.Outcome State Fault Refusal)) :
    ∃ evs, Follows evs s t := by
  cases h
  obtain ⟨evs, hf, -⟩ := runOp_follows c op code s
  exact ⟨evs, hf⟩

theorem internalOp_follows {x : Level1} {s t : State} (h : internalOp x s = .next t) :
    ∃ evs, Follows evs s t := by
  unfold internalOp at h
  split at h
  · cases h
    exact ⟨_, refuseErr_follows _ s⟩
  · split at h
    · cases h
      exact ⟨_, waitTurn_follows s⟩
    · exact runOp_next_follows h

theorem publicOp_follows {op : Op} {s t : State} (h : publicOp op s = .next t) :
    ∃ evs, Follows evs s t := by
  unfold publicOp at h
  split at h
  · cases h
    exact ⟨_, refuseErr_follows _ s⟩
  · split at h
    · cases h
    · split at h
      · cases h
        exact ⟨_, waitTurn_follows s⟩
      · split at h
        · exact runOp_next_follows h
        · cases h

theorem resumeOp_follows {c : Requester} {op : Op} {pos : Pos} {s t : State}
    (h : resumeOp c op pos s = .next t) : ∃ evs, Follows evs s t := by
  unfold resumeOp at h
  split at h
  · cases h
    exact ⟨_, abortOp_follows c op _ s⟩
  · split at h
    · exact runOp_next_follows h
    · cases h

/-! ### Instructions -/

theorem execInit_follows {g m : Byte} {s t : State} (h : execInit g m s = .next t) :
    ∃ evs, Follows evs s t := by
  unfold execInit at h
  split at h
  · cases h
    exact ⟨_, refuseNull_follows _ s⟩
  · split at h
    · cases h
      exact ⟨_, refuseNull_follows _ s⟩
    · split at h
      · cases h
      · split at h
        · cases h
        · split at h
          · cases h
            exact ⟨_, waitTurn_follows s⟩
          · exact runOp_next_follows h

theorem execGotoxy_follows {x y : Byte} {s t : State} (h : execGotoxy x y s = .next t) :
    ∃ evs, Follows evs s t := by
  unfold execGotoxy at h
  split at h
  · split at h
    · cases h
    · cases h
    · exact publicOp_follows h
    · exact publicOp_follows h
  · exact publicOp_follows h

theorem execWriteString_follows {s t : State} (h : execWriteString s = .next t) :
    ∃ evs, Follows evs s t := by
  unfold execWriteString at h
  split at h
  · cases h
  · obtain ⟨evs, hf⟩ := publicOp_follows h
    exact ⟨[] ++ evs, (withText_follows s).trans hf⟩

/-- An instruction that goes on, taken whole or by its first micro-step, follows the events it appends. -/
theorem exec_follows {i : Instr} {s t : State} (h : exec i s = .next t) : ∃ evs, Follows evs s t := by
  cases i with
  | init g m => exact execInit_follows h
  | clear => exact publicOp_follows h
  | home => exact publicOp_follows h
  | gotoxy x y => exact execGotoxy_follows h
  | writeString => exact execWriteString_follows h
  | _ => exact internalOp_follows h

/-! ### Steps -/

theorem serveRequest_follows {r : Request} {s t : State} (h : serveRequest r s = .next t) :
    ∃ evs, Follows evs s t := by
  unfold serveRequest at h
  split at h
  · exact exec_follows h
  · cases h
    exact ⟨_, refuseErr_follows _ s⟩

/-- A step follows the events it appends, from the state in which the port has made its choice: only the grain, the
request port and the coming answers differ there. -/
theorem step_follows {s t : State} (h : step s = .next t) :
    ∃ evs left r env,
      Follows evs { s with grain := .micro, pending := left, cur := r, env := env } t := by
  obtain ⟨env, -, -, -, hcase⟩ := step_cases s
  rcases hcase with ⟨-, -, hidle⟩ | ⟨c, op, pos, -, hresume⟩ | ⟨r, left, -, -, -, hserve⟩
  · rw [hidle] at h
    cases h
    exact ⟨[], s.pending, s.cur, env, tick_follows _⟩
  · rw [hresume] at h
    obtain ⟨evs, hf⟩ := resumeOp_follows h
    exact ⟨evs, s.pending, s.cur, env, hf⟩
  · rw [hserve] at h
    obtain ⟨evs, hf⟩ := serveRequest_follows h
    exact ⟨evs, left, r, env, hf⟩

/-- Settles O58: the port's choice leaves the parameters and the other handles' pins alone, and what follows the
events of a step keeps them. -/
theorem parametersNeverChange : Obligations.ParametersNeverChange := by
  unfold Obligations.ParametersNeverChange
  intro s t h
  obtain ⟨_, _, _, _, hf⟩ := step_follows h
  exact ⟨hf.cfg, hf.otherPins⟩

end Sys2Proof.Machine
end

section
/-! One step as one move: which way the port's choice, the presented instruction or the operation in progress goes, said
once for every outcome and, where an instruction is presented, for either grain. -/

namespace Sys2Proof.Machine

/-! ### Presenting an instruction -/

/-- What the TEXT space holds when an operation begins (20_memory.md R52). -/
def opText (op : Op) (s : State) : Memory :=
  match op with
  | .writeString => Memory.load 0 s.cur.text
  | _ => s.text

/-- What an operation that begins was asked to meet (42_init_sequence.md R110; 43_public_operations.md R120). -/
def MayBegin (op : Op) (s : State) : Prop :=
  match op with
  | .init g m _ => s.handle = .none ∧ (geometryOf s.cfg g).isSome = true ∧ m = 0x00#8
  | .level1 _ => True
  | _ => s.handle = .valid ∧ s.lock = .free

/-- A VALID handle one of whose cells does not exist (93_implementation_defined.md U1, U4; log 19). -/
def BrokenHandle (s : State) : Prop :=
  s.handle = .valid ∧ (s.lock = .absent ∨ s.dispatch = none
    ∨ ∃ x y, gotoxyTarget s.cfg s.config x y = .noGeometry)

/-- The outcomes, one per grain, that presenting an instruction in a state can have. -/
inductive Presented (s : State) : (Grain → Host.Outcome State Fault Refusal) → Prop where
  | refusedErr (c : Cause) : Presented s fun g => .next (refuseErr c { s with grain := g })
  | refusedNull (c : Cause) : Presented s fun g => .next (refuseNull c { s with grain := g })
  | waits : Presented s fun g => .next (waitTurn { s with grain := g })
  | begins (op : Op) (code : Code) (hidle : s.seq = .idle) (hmay : MayBegin op s)
      (hcode : opCode s.cur.requester op { s with text := opText op s } = some code) :
      Presented s fun g => .next (runOp s.cur.requester op code { s with grain := g, text := opText op s })
  | faulty (h : BrokenHandle s) : Presented s fun _ => .fault .brokenHandle
  | refused (r : Refusal) : Presented s fun _ => .refused r

theorem Presented.of_eq {s : State} {o o' : Grain → Host.Outcome State Fault Refusal} (h : Presented s o)
    (he : ∀ g, o' g = o g) : Presented s o' := funext he ▸ h

theorem Mode.eq_zero_of_bit4 {m : Byte} (h : Mode.ofCode m = some .bit4) : m = 0x00#8 := by
  unfold Mode.ofCode at h
  split at h
  · simp_all
  · split at h
    · cases h
    · split at h <;> cases h

theorem internalOp_presented (x : Level1) (s : State) :
    Presented s fun g => internalOp x { s with grain := g } := by
  by_cases hi : s.cur.internal = false
  · exact .of_eq (.refusedErr (.reqIllegal s.cur.word)) fun g => if_pos hi
  · by_cases hs : s.seq = .idle
    · exact .of_eq (.begins (.level1 x) _ hs trivial rfl) fun g => (if_neg hi).trans (if_neg (not_not.2 hs))
    · exact .of_eq .waits fun g => (if_neg hi).trans (if_pos hs)

theorem mayBegin_of_onHandle {op : Op} (hop : op.onHandle = true) {s : State} (hv : s.handle = .valid)
    (hl : s.lock = .free) : MayBegin op s := by
  cases op with
  | init g m pm => cases hop
  | level1 x => cases hop
  | _ => exact ⟨hv, hl⟩

/-- The micro-steps of an operation on a handle exist where its DISPATCH does. -/
theorem dispatch_eq_none_of_opCode {c : Requester} {op : Op} {s : State} (h : opCode c op s = none) :
    s.dispatch = none := by
  cases op <;> simp_all [opCode]

/-- An operation on a handle whose text, if it takes one, `load` puts in the TEXT space where it can begin
(43_public_operations.md R120, R128). -/
theorem publicOp_presented {op : Op} (hop : op.onHandle = true) {load : State → State} {s : State}
    (hready : s.handle = .valid → s.lock = .free → s.seq = .idle →
      ∀ g, load { s with grain := g } = { s with grain := g, text := opText op s })
    (hkeep : ¬ (s.handle = .valid ∧ s.lock = .free ∧ s.seq = .idle) →
      ∀ g, load { s with grain := g } = { s with grain := g }) :
    Presented s fun g => publicOp op (load { s with grain := g }) := by
  by_cases hv : s.handle = .valid
  case neg =>
    refine .of_eq (.refusedErr .handleInvalid) fun g => ?_
    rw [hkeep (by simp [hv])]
    exact if_pos hv
  by_cases ha : s.lock = .absent
  · refine .of_eq (.faulty ⟨hv, .inl ha⟩) fun g => ?_
    rw [hkeep (by simp [ha])]
    exact (if_neg (not_not.2 hv)).trans (if_pos ha)
  by_cases hw : s.lock ≠ .free ∨ s.seq ≠ .idle
  · refine .of_eq .waits fun g => ?_
    rw [hkeep fun ⟨_, hl, hs⟩ => hw.elim (absurd hl) (absurd hs)]
    exact (if_neg (not_not.2 hv)).trans ((if_neg ha).trans (if_pos hw))
  obtain ⟨hl, hs⟩ : s.lock = .free ∧ s.seq = .idle := by simpa using hw
  have hrun : ∀ g, publicOp op (load { s with grain := g })
      = match opCode s.cur.requester op { s with text := opText op s } with
        | some code => .next (runOp s.cur.requester op code { s with grain := g, text := opText op s })
        | none => .fault .brokenHandle := fun g => by
    rw [hready hv hl hs]
    refine (if_neg (not_not.2 hv)).trans ((if_neg ha).trans ((if_neg hw).trans ?_))
    cases op <;> rfl
  cases hc : opCode s.cur.requester op { s with text := opText op s } with
  | none =>
    have hd := dispatch_eq_none_of_opCode hc
    exact .of_eq (.faulty ⟨hv, .inr (.inl hd)⟩) fun g => by rw [hrun, hc]
  | some code => exact .of_eq (.begins op code hs (mayBegin_of_onHandle hop hv hl) hc) fun g => by rw [hrun, hc]

/-- An operation that takes no text. -/
theorem publicOp_presented_of_ne {op : Op} (hop : op.onHandle = true) (hne : op ≠ .writeString) (s : State) :
    Presented s fun g => publicOp op { s with grain := g } := by
  refine publicOp_presented hop (load := id) (fun _ _ _ g => ?_) fun _ _ => rfl
  have ht : opText op s = s.text := by cases op <;> first | rfl | exact absurd rfl hne
  rw [ht, id]

theorem execInit_presented (g m : Byte) (s : State) :
    Presented s fun gr => execInit g m { s with grain := gr } := by
  by_cases hg : geometryOf s.cfg g = none
  · exact .of_eq (.refusedNull (.reqIllegal s.cur.word)) fun _ => if_pos hg
  by_cases hm : Mode.ofCode m = some .bit4
  case neg => exact .of_eq (.refusedNull (.modeUnimplemented m)) fun _ => (if_neg hg).trans (if_pos hm)
  by_cases hh : s.handle = .none
  case neg =>
    exact .of_eq (.refused .secondInit) fun _ => (if_neg hg).trans ((if_neg (not_not.2 hm)).trans (if_pos hh))
  by_cases hp : pinMapAccepted s.otherPins s.cur.pinMap = false
  · exact .of_eq (.refused .pinMapConflict) fun _ =>
      (if_neg hg).trans ((if_neg (not_not.2 hm)).trans ((if_neg (not_not.2 hh)).trans (if_pos hp)))
  by_cases hs : s.seq = .idle
  · exact .of_eq
      (.begins (.init g m s.cur.pinMap) _ hs ⟨hh, Option.isSome_iff_ne_none.2 hg, Mode.eq_zero_of_bit4 hm⟩ rfl) fun _ =>
      (if_neg hg).trans ((if_neg (not_not.2 hm)).trans ((if_neg (not_not.2 hh)).trans
        ((if_neg hp).trans (if_neg (not_not.2 hs)))))
  · exact .of_eq .waits fun _ =>
      (if_neg hg).trans ((if_neg (not_not.2 hm)).trans ((if_neg (not_not.2 hh)).trans
        ((if_neg hp).trans (if_pos hs))))

theorem execGotoxy_presented (x y : Byte) (s : State) :
    Presented s fun g => execGotoxy x y { s with grain := g } := by
  have hpublic := publicOp_presented_of_ne (op := .gotoxy x y) rfl (by simp) s
  by_cases hv : s.handle = .valid
  case neg => exact hpublic.of_eq fun _ => if_neg hv
  have htarget : ∀ g, execGotoxy x y { s with grain := g }
      = match gotoxyTarget s.cfg s.config x y with
        | .noGeometry => .fault .brokenHandle
        | .noRowBase => .refused .rowBaseUnknown
        | .byte _ => publicOp (.gotoxy x y) { s with grain := g }
        | .outOfRange => publicOp (.gotoxy x y) { s with grain := g } := fun _ => if_pos hv
  cases ht : gotoxyTarget s.cfg s.config x y with
  | noGeometry => exact .of_eq (.faulty ⟨hv, .inr (.inr ⟨x, y, ht⟩)⟩) fun g => by rw [htarget, ht]
  | noRowBase => exact .of_eq (.refused .rowBaseUnknown) fun g => by rw [htarget, ht]
  | byte v => exact hpublic.of_eq fun g => by rw [htarget, ht]
  | outOfRange => exact hpublic.of_eq fun g => by rw [htarget, ht]

theorem execWriteString_presented (s : State) :
    Presented s fun g => execWriteString { s with grain := g } := by
  by_cases ht : s.handle = .valid ∧ textTerminated s.cur.text = false
  · exact .of_eq (.refused .unterminatedText) fun _ => if_pos ht
  · have hpublic : Presented s fun g => publicOp .writeString (withText { s with grain := g }) :=
      publicOp_presented rfl (fun hv hl hs _ => if_pos ⟨hv, hl, hs⟩) fun h _ => if_neg h
    exact hpublic.of_eq fun _ => if_neg ht

/-- Everything presenting an instruction can come to, taken whole or by its first micro-step. -/
theorem exec_presented (i : Instr) (s : State) : Presented s fun g => exec i { s with grain := g } := by
  cases i with
  | init g m => exact execInit_presented g m s
  | clear => exact publicOp_presented_of_ne rfl (by simp) s
  | home => exact publicOp_presented_of_ne rfl (by simp) s
  | gotoxy x y => exact execGotoxy_presented x y s
  | writeString => exact execWriteString_presented s
  | _ => exact internalOp_presented _ s

theorem serveRequest_presented (r : Request) (s : State) :
    Presented s fun g => serveRequest r { s with grain := g } := by
  unfold serveRequest
  cases decode r.word with
  | ok i => exact exec_presented i s
  | error e => exact .refusedErr _

/-! ### A step -/

/-- Everything a step can do from a state in which the port has made its choice. -/
inductive Moves (s : State) : Host.Outcome State Fault Refusal → Prop where
  | idles (hseq : s.seq = .idle) : Moves s (.next s.tick)
  | aborts {c : Requester} {op : Op} {pos : Pos} {f : Cause} (hseq : s.seq = .busy c op pos)
      (hpos : pos.phase = .abort f) : Moves s (.next (abortOp c op f s))
  | goesOn {c : Requester} {op : Op} {pos : Pos} {code : Code} (hseq : s.seq = .busy c op pos)
      (hpos : ∀ f, pos.phase ≠ .abort f) (hcode : opCode c op s = some code) :
      Moves s (.next (runOp c op (codeFrom pos code) s))
  | isStuck {c : Requester} {op : Op} {pos : Pos} (hseq : s.seq = .busy c op pos)
      (hpos : ∀ f, pos.phase ≠ .abort f) (hcode : opCode c op s = none) : Moves s (.fault .brokenHandle)
  | presents {o : Grain → Host.Outcome State Fault Refusal} (h : Presented s o) : Moves s (o .micro)

theorem resumeOp_of_abort {c : Requester} {op : Op} {pos : Pos} {f : Cause} (h : pos.phase = .abort f) (s : State) :
    resumeOp c op pos s = .next (abortOp c op f s) := by
  unfold resumeOp
  rw [h]

theorem resumeOp_of_ne_abort {c : Requester} {op : Op} {pos : Pos} (h : ∀ f, pos.phase ≠ .abort f) (s : State) :
    resumeOp c op pos s =
      match opCode c op s with
      | some code => .next (runOp c op (codeFrom pos code) s)
      | none => .fault .brokenHandle := by
  unfold resumeOp
  split
  · next f hf => exact absurd hf (h f)
  · rfl

theorem resumeOp_moves {c : Requester} {op : Op} {pos : Pos} {s : State} (hseq : s.seq = .busy c op pos) :
    Moves s (resumeOp c op pos s) := by
  by_cases hpos : ∃ f, pos.phase = .abort f
  · obtain ⟨f, hf⟩ := hpos
    rw [resumeOp_of_abort hf]
    exact .aborts hseq hf
  · have hne : ∀ f, pos.phase ≠ .abort f := fun f hf => hpos ⟨f, hf⟩
    rw [resumeOp_of_ne_abort hne]
    cases hc : opCode c op s with
    | none => exact .isStuck hseq hne hc
    | some code => exact .goesOn hseq hne hc

/-- A step is one move of one micro-step, from a state that differs from the given one in the request port and the
coming answers alone (10_state.md R25; logs 1, 9). -/
theorem step_moves (s : State) :
    ∃ left r env, Moves { s with grain := .micro, pending := left, cur := r, env := env } (step s) := by
  obtain ⟨env, -, -, -, hcase⟩ := step_cases s
  rcases hcase with ⟨hseq, -, hidle⟩ | ⟨c, op, pos, hseq, hresume⟩ | ⟨r, left, -, -, -, hserve⟩
  · rw [hidle]
    exact ⟨s.pending, s.cur, env, .idles hseq⟩
  · rw [hresume]
    exact ⟨s.pending, s.cur, env, resumeOp_moves hseq⟩
  · rw [hserve]
    exact ⟨left, r, env,
      .presents (serveRequest_presented r { s with grain := .micro, pending := left, cur := r, env := env })⟩

end Sys2Proof.Machine
end

section
/-! The micro-step a step makes: one run of micro grain is the first micro-step of its code, what that one records in
the trace and among the calls, and the step that goes on with an operation. -/

namespace Sys2Proof.Machine

/-! ### A run of micro grain -/

/-- What is left of an operation when the micro-step at `pos`, with `rest` after it, has been made (10_state.md R25). -/
def afterMicro (c : Requester) (op : Op) (pos : Pos) (rest : Code) (r : State × Raised) : State :=
  match r, rest with
  | (t, none), [] => finishOp op t
  | (t, none), (q, _) :: _ => { t with seq := .busy c op q }
  | (t, some f), _ => { t with seq := .busy c op (Pos.plain (.abort (f.seenFrom pos.phase))) }

theorem runOp_micro_cons {s : State} (hg : s.grain = .micro) (c : Requester) (op : Op) (pos : Pos) (m : Micro)
    (rest : Code) : runOp c op ((pos, m) :: rest) s = afterMicro c op pos rest (m.act s) := by
  rw [runOp, hg, runCode_micro_cons]
  rcases m.act s with ⟨t, _ | f⟩
  · cases rest <;> rfl
  · rfl

theorem afterMicro_trace (c : Requester) (op : Op) (pos : Pos) (rest : Code) (r : State × Raised) :
    (afterMicro c op pos rest r).trace = r.1.trace ∧ (afterMicro c op pos rest r).calls = r.1.calls := by
  rcases r with ⟨t, _ | f⟩
  · cases rest with
    | nil => cases op <;> exact ⟨rfl, rfl⟩
    | cons x rest => exact ⟨rfl, rfl⟩
  · exact ⟨rfl, rfl⟩

/-! ### The events and the calls of one micro-step -/

/-- The events appended, and one call for each CFG or SET among them, on the pin map in use (10_state.md R29). -/
structure Recorded (evs : List Event) (s t : State) : Prop where
  trace : t.trace = s.trace ++ evs
  calls : t.calls = s.calls ++ callsOf s.pinMapInUse evs

theorem callsOf_quiet (pm : PinMap) {evs : List Event} (h : evs.all Event.isQuiet = true) : callsOf pm evs = [] := by
  rw [callsOf, List.filterMap_eq_nil_iff]
  intro e he
  have hq := List.all_eq_true.mp h e he
  cases e with
  | cfg p ok => cases hq
  | set p v ok => cases hq
  | _ => rfl

theorem Recorded.of_quiet {evs : List Event} {s t : State} (hq : evs.all Event.isQuiet = true)
    (trace : t.trace = s.trace ++ evs) (calls : t.calls = s.calls) : Recorded evs s t :=
  ⟨trace, by rw [callsOf_quiet _ hq, List.append_nil, calls]⟩

/-- A step's events, with the calls they record. -/
def RecordsStep (s t : State) : Prop := ∃ evs, StepEvents evs ∧ Recorded evs s t

theorem RecordsStep.of_nothing {s t : State} (trace : t.trace = s.trace) (calls : t.calls = s.calls) :
    RecordsStep s t :=
  ⟨[], .inl (Nat.zero_le _), .of_quiet rfl (by rw [trace, List.append_nil]) calls⟩

theorem RecordsStep.of_one {s t : State} {e : Event} (hq : e.isQuiet = true) (trace : t.trace = s.trace ++ [e])
    (calls : t.calls = s.calls) : RecordsStep s t :=
  ⟨[e], .inl (Nat.le_refl _), .of_quiet (by simp [hq]) trace calls⟩

theorem Micro.recordsStep_of_isPin {m : Micro} (hm : m.isPin = true) (s : State) : RecordsStep s (m.act s).1 := by
  obtain ⟨evs, he, hcase⟩ := Micro.act_pin hm s
  refine ⟨evs, .inl ?_, he.trace, he.calls⟩
  rcases hcase with ⟨-, rfl⟩ | ⟨f, -, rfl, -⟩
  · exact Nat.le_refl _
  · cases m <;> exact Nat.le_refl _

theorem releaseOk_recordsStep (c : Requester) (s : State) : RecordsStep s (releaseOk c s) := by
  unfold releaseOk lockRelease
  split
  · exact ⟨[.rel c, .ret c .ok], .inr ⟨c, .ok, .inl rfl⟩, .of_quiet rfl (by simp) rfl⟩
  · exact .of_one (e := .ret c .ok) rfl rfl rfl

/-- Every micro-step records its one call, or makes none; only the release shows two events. -/
theorem Micro.act_recordsStep (m : Micro) (s : State) : RecordsStep s (m.act s).1 := by
  cases m with
  | cfg p => exact Micro.recordsStep_of_isPin rfl s
  | set p v => exact Micro.recordsStep_of_isPin rfl s
  | sleep t => exact Micro.recordsStep_of_isPin rfl s
  | modeCheck code => exact .of_nothing rfl rfl
  | rangeCheck x y => exact .of_nothing rfl rfl
  | bind => exact .of_nothing rfl rfl
  | done c => exact .of_one rfl (publishHandle_trace c s) rfl
  | alloc g md pm =>
    obtain ⟨b, env, hd, -⟩ := drawAlloc_spec s
    have ht : (allocHandle g md pm s).1.trace = s.trace ++ [.alloc b] ∧ (allocHandle g md pm s).1.calls = s.calls := by
      unfold allocHandle
      rw [hd]
      cases b <;> exact ⟨rfl, rfl⟩
    exact .of_one rfl ht.1 ht.2
  | mkLock =>
    simp only [Micro.act, makeLock]
    split
    · exact .of_one (e := .mkLock) rfl rfl rfl
    · exact .of_nothing rfl rfl
  | acq c =>
    simp only [Micro.act, lockAcquire]
    split
    · exact .of_one (e := .acq c) rfl rfl rfl
    · exact .of_nothing rfl rfl
  | fetch i =>
    simp only [Micro.act, textRead]
    split
    · next b _ => exact .of_one (e := .rd i b) rfl rfl rfl
    · exact .of_nothing rfl rfl
  | release c =>
    obtain ⟨evs, hev, hr⟩ := releaseOk_recordsStep c s
    exact ⟨evs, hev, hr.trace, hr.calls⟩

theorem runOp_recordsStep {s : State} (hg : s.grain = .micro) (c : Requester) (op : Op) (code : Code) :
    RecordsStep s (runOp c op code s) := by
  cases code with
  | nil =>
    rw [runOp, hg]
    cases op <;> exact .of_nothing rfl rfl
  | cons x rest =>
    obtain ⟨pos, m⟩ := x
    rw [runOp_micro_cons hg]
    obtain ⟨ht, hc⟩ := afterMicro_trace c op pos rest (m.act s)
    obtain ⟨evs, hev, hr⟩ := m.act_recordsStep s
    exact ⟨evs, hev, ht.trans hr.trace, hc.trans hr.calls⟩

/-! ### The events and the calls of one step -/

theorem abortOp_calls (c : Requester) (op : Op) (f : Cause) (s : State) : (abortOp c op f s).calls = s.calls := by
  cases op <;> simp only [abortOp, unwind, retFailure, lockRelease] <;> repeat' split
  all_goals rfl

/-- An abort shows nothing, the RET alone, or the RET after a REL or FREE (60_exceptions.md R146). -/
theorem abortEvents_cases (c : Requester) (op : Op) (f : Cause) (s : State) :
    abortEvents c op f s = [] ∨ ∃ r, abortEvents c op f s = [.ret c r] ∨ abortEvents c op f s = [.rel c, .ret c r]
      ∨ abortEvents c op f s = [.free, .ret c r] := by
  cases op with
  | level1 x => exact .inl rfl
  | init g m pm =>
    refine .inr ⟨.null f, ?_⟩
    by_cases hb : s.handle = .building
    · exact .inr (.inr (by simp [abortEvents, hb, Op.failure]))
    · exact .inl (by simp [abortEvents, hb, Op.failure])
  | _ =>
    refine .inr ⟨.err f, ?_⟩
    by_cases hr : s.cfg.lockReleaseOnError = true ∧ s.lock = .held c
    · exact .inr (.inl (by simp [abortEvents, releaseEvents, hr, Op.failure]))
    · exact .inl (by simpa [abortEvents, releaseEvents, Op.failure] using hr)

theorem abortOp_recordsStep (c : Requester) (op : Op) (f : Cause) (s : State) :
    RecordsStep s (abortOp c op f s) := by
  have htrace := (abortOp_follows c op f s).trace
  have hcalls := abortOp_calls c op f s
  rcases abortEvents_cases c op f s with h | ⟨r, h | h | h⟩ <;> rw [h] at htrace
  · exact .of_nothing (by rw [htrace, List.append_nil]) hcalls
  · exact .of_one rfl htrace hcalls
  · exact ⟨_, .inr ⟨c, r, .inl rfl⟩, .of_quiet rfl htrace hcalls⟩
  · exact ⟨_, .inr ⟨c, r, .inr rfl⟩, .of_quiet rfl htrace hcalls⟩

theorem Presented.recordsStep {s t : State} {o : Grain → Host.Outcome State Fault Refusal} (h : Presented s o)
    (ho : o .micro = .next t) : RecordsStep s t := by
  cases h with
  | refusedErr c => cases ho; exact .of_one (e := .ret s.cur.requester (.err c)) rfl rfl rfl
  | refusedNull c => cases ho; exact .of_one (e := .ret s.cur.requester (.null c)) rfl rfl rfl
  | waits => cases ho; exact .of_nothing rfl rfl
  | begins op code _ _ _ =>
    cases ho
    obtain ⟨evs, hev, hr⟩ :=
      runOp_recordsStep (s := { s with grain := .micro, text := opText op s }) rfl s.cur.requester op code
    exact ⟨evs, hev, hr.trace, hr.calls⟩
  | faulty _ => cases ho
  | refused _ => cases ho

/-- What a step records: its events, and the calls of those on the pin map in use once the port has made its choice. -/
theorem step_recordsStep {s t : State} (h : step s = .next t) : ∃ r, RecordsStep { s with cur := r } t := by
  obtain ⟨left, r, env, hm⟩ := step_moves s
  refine ⟨r, ?_⟩
  suffices hs : RecordsStep { s with grain := .micro, pending := left, cur := r, env := env } t from
    let ⟨evs, hev, hr⟩ := hs
    ⟨evs, hev, hr.trace, hr.calls⟩
  rw [h] at hm
  generalize ho : Host.Outcome.next t = o at hm
  cases hm with
  | idles hseq => cases ho; exact .of_nothing rfl rfl
  | aborts hseq hpos => cases ho; exact abortOp_recordsStep ..
  | goesOn hseq hpos hcode => cases ho; exact runOp_recordsStep rfl ..
  | isStuck hseq hpos hcode => cases ho
  | presents hp => exact hp.recordsStep ho.symm

theorem callsOf_stepEvents (pm : PinMap) {evs : List Event} (h : StepEvents evs) :
    (callsOf pm evs).length ≤ 1 ∧ (callsOf pm evs ≠ [] → evs.length = 1) := by
  rcases h with hlen | ⟨c, r, rfl | rfl⟩
  · match evs, hlen with
    | [], _ => exact ⟨Nat.zero_le _, absurd rfl⟩
    | [e], _ => exact ⟨List.length_filterMap_le _ _, fun _ => rfl⟩
  · exact ⟨Nat.zero_le _, absurd rfl⟩
  · exact ⟨Nat.zero_le _, absurd rfl⟩

/-- Settles O13: the calls of a step are those its events record, and two events record none. -/
theorem aStepMakesAtMostOneCall : Obligations.AStepMakesAtMostOneCall := by
  unfold Obligations.AStepMakesAtMostOneCall
  intro s t h
  obtain ⟨r, evs, hev, hr⟩ := step_recordsStep h
  exact ⟨evs, hr.trace, hev, _, hr.calls, callsOf_stepEvents _ hev⟩

/-- Settles O49: where PINMAP exists it is the pin map in use, whichever request is at the port. -/
theorem everyCallIsOnThePinMap : Obligations.EveryCallIsOnThePinMap := by
  unfold Obligations.EveryCallIsOnThePinMap
  intro s t pm _ hpm h
  obtain ⟨r, evs, -, hr⟩ := step_recordsStep h
  have huse : ({ s with cur := r } : State).pinMapInUse = pm := by simp only [State.pinMapInUse, hpm]
  exact ⟨evs, hr.trace, huse ▸ hr.calls⟩

/-- Settles O21: with no PINMAP the pin map in use is the request's (log 11). -/
theorem callsWithoutAPinMapUseTheRequests : Obligations.CallsWithoutAPinMapUseTheRequests := by
  unfold Obligations.CallsWithoutAPinMapUseTheRequests
  intro s p v r rest hpm hgpio
  have huse : s.pinMapInUse = s.cur.pinMap := by simp only [State.pinMapInUse, hpm]
  obtain ⟨b, hc, -, hb⟩ := gpioCfg_spec p s
  obtain ⟨b', hs, -, hb'⟩ := gpioSet_spec p v s
  obtain ⟨rfl, -⟩ := hb r rest hgpio
  obtain ⟨rfl, -⟩ := hb' _ rest hgpio
  exact ⟨huse ▸ hc.calls, huse ▸ hs.calls⟩

/-! ### Latches, directions, time and images -/

/-- Settles O52: what follows the events of a step changes latches and directions by their calls alone, and lasts at
least their waits. -/
theorem pinsDirectionsAndTimeFollowTheTrace : Obligations.PinsDirectionsAndTimeFollowTheTrace := by
  unfold Obligations.PinsDirectionsAndTimeFollowTheTrace
  intro s t h
  obtain ⟨evs, _, _, _, hf⟩ := step_follows h
  exact ⟨evs, hf.trace, hf.pins, hf.dirs, hf.now⟩

/-- Settles O53: from known latches the images that follow the events are determined by them. -/
theorem latchedFollowsTheFallingEdges : Obligations.LatchedFollowsTheFallingEdges := by
  unfold Obligations.LatchedFollowsTheFallingEdges
  intro s t hk h
  obtain ⟨evs, _, _, _, hf⟩ := step_follows h
  obtain ⟨imgs, hl, he⟩ := hf.latched
  exact ⟨evs, hf.trace, he.eq_edgeImages hk ▸ hl⟩

/-! ### Several displays -/

/-- Settles O15: a step puts back the one engine it stepped. -/
theorem displaysAreIndependent : Obligations.DisplaysAreIndependent := by
  unfold Obligations.DisplaysAreIndependent
  intro P Q k j h hjk
  unfold Platform.stepAt at h
  split at h
  · cases h
    rfl
  · split at h
    · cases h
      exact List.getElem?_set_ne hjk.symm
    · cases h
    · cases h

/-! ### The operation in progress goes on -/

/-- With no request that could be served the operation in progress is the one agent, and nothing is drawn. -/
theorem nextTurn_of_no_waiter {s : State} {c : Requester} {op : Op} {pos : Pos} (hseq : s.seq = .busy c op pos)
    (hw : waiters s.seq [c] s.pending = []) : nextTurn s = (.resume, s) := by
  have hagents : agents s = [c] := by
    rw [hseq] at hw
    simp only [agents, hseq, hw]
  simp [nextTurn, chooseAgent, hagents, hseq, Seq.isOf]

theorem step_of_no_waiter {s : State} {c : Requester} {op : Op} {pos : Pos} (hseq : s.seq = .busy c op pos)
    (hw : waiters s.seq [c] s.pending = []) : step s = resumeOp c op pos { s with grain := .micro } := by
  rw [step, nextTurn_of_no_waiter (s := { s with grain := .micro }) hseq hw]
  simp only [resumeSeq, hseq]

/-- From a position that is not on the abort path the step makes the micro-step there. -/
theorem step_goesOn {s : State} {c : Requester} {op : Op} {pos : Pos} {m : Micro} {code rest : Code}
    (hseq : s.seq = .busy c op pos) (hw : waiters s.seq [c] s.pending = []) (hpos : ∀ f, pos.phase ≠ .abort f)
    (hcode : opCode c op s = some code) (hfrom : codeFrom pos code = (pos, m) :: rest) :
    step s = .next (afterMicro c op pos rest (m.act { s with grain := .micro })) := by
  have hcode' : opCode c op { s with grain := .micro } = some code := by cases op <;> exact hcode
  rw [step_of_no_waiter hseq hw, resumeOp_of_ne_abort hpos, hcode']
  simp only [hfrom, runOp_micro_cons]

/-- On the abort path the step is the abort. -/
theorem step_aborts {s : State} {c : Requester} {op : Op} {pos : Pos} {f : Cause} (hseq : s.seq = .busy c op pos)
    (hw : waiters s.seq [c] s.pending = []) (hpos : pos.phase = .abort f) :
    step s = .next (abortOp c op f { s with grain := .micro }) := by
  rw [step_of_no_waiter hseq hw, resumeOp_of_abort hpos]

/-- Settles O12: with no request that could be served the port goes on with the operation, by the micro-step at its
position or by its abort. -/
theorem oneMicroStepAdvancesTheSequencer : Obligations.OneMicroStepAdvancesTheSequencer := by
  unfold Obligations.OneMicroStepAdvancesTheSequencer
  refine ⟨fun s c op pos m code rest hseq hw hpos hcode hfrom => ?_, fun s c op pos f hseq hw hpos =>
    ⟨step_aborts hseq hw hpos, (abortOp_port c op f _).1⟩⟩
  rw [step_goesOn hseq hw hpos hcode hfrom]
  rcases m.act { s with grain := .micro } with ⟨t, _ | f⟩
  · cases rest <;> rfl
  · rfl

end Sys2Proof.Machine
end

section
/-! The micro-steps of the operations by kind: those of a body leave every cell of the engine as it was, and each
operation is a body between the few micro-steps that write one. -/

namespace Sys2Proof.Machine

/-! ### Micro-steps that leave the cells alone -/

/-- A micro-step that writes no cell of the handle, the lock or the TEXT space, and does not drive RW high. -/
def Micro.isBody : Micro → Bool
  | .cfg _ => true
  | .set .rw v => !v
  | .set _ _ => true
  | .sleep _ => true
  | .modeCheck _ => true
  | .rangeCheck _ _ => true
  | .fetch _ => true
  | _ => false

/-- The handle with its cells, the lock, the TEXT space and the parameters as they were, and RW not driven high. -/
structure KeepsCells (s t : State) : Prop where
  handle : t.handle = s.handle
  config : t.config = s.config
  pinMap : t.pinMap = s.pinMap
  dispatch : t.dispatch = s.dispatch
  lock : t.lock = s.lock
  text : t.text = s.text
  cfg : t.cfg = s.cfg
  rw : s.pins.rw ≠ .high → t.pins.rw ≠ .high

theorem driveEvent_rw {e : Event} (he : e ≠ .set .rw true true) {pins : PerPin Level} (h : pins.rw ≠ .high) :
    (driveEvent pins e).rw ≠ .high := by
  cases e with
  | set p v ok =>
    cases ok with
    | false => exact h
    | true =>
      cases p with
      | rw =>
        cases v with
        | false => simp [driveEvent, PerPin.set, Level.ofBool]
        | true => exact absurd rfl he
      | _ => exact h
  | _ => exact h

theorem Micro.act_keepsCells_of_isPin {m : Micro} (hp : m.isPin = true) (hm : m.isBody = true) (s : State) :
    KeepsCells s (m.act s).1 := by
  obtain ⟨evs, he, hcase⟩ := Micro.act_pin hp s
  refine ⟨he.handle, he.config, he.pinMap, he.dispatch, he.lock, he.text, he.cfg, fun h => ?_⟩
  have hev : ∃ e, evs = [e] ∧ e ≠ .set .rw true true := by
    rcases hcase with ⟨-, rfl⟩ | ⟨f, -, rfl, -⟩
    · refine ⟨_, rfl, ?_⟩
      rintro hset
      cases m with
      | set p v => cases hset; cases hm
      | cfg p => cases hset
      | sleep t => cases hset
      | _ => cases hp
    · cases m with
      | cfg p => exact ⟨.cfg p false, rfl, by simp⟩
      | set p v => exact ⟨.set p v false, rfl, by simp⟩
      | sleep t => exact ⟨.wait t, rfl, by simp⟩
      | _ => cases hp
  obtain ⟨e, rfl, hne⟩ := hev
  rw [he.pins]
  exact driveEvent_rw hne h

theorem Micro.act_keepsCells {m : Micro} (hm : m.isBody = true) (s : State) : KeepsCells s (m.act s).1 := by
  cases m with
  | cfg p => exact Micro.act_keepsCells_of_isPin rfl hm s
  | set p v => exact Micro.act_keepsCells_of_isPin rfl hm s
  | sleep t => exact Micro.act_keepsCells_of_isPin rfl hm s
  | modeCheck code => exact ⟨rfl, rfl, rfl, rfl, rfl, rfl, rfl, id⟩
  | rangeCheck x y => exact ⟨rfl, rfl, rfl, rfl, rfl, rfl, rfl, id⟩
  | fetch i =>
    simp only [Micro.act, textRead]
    split <;> exact ⟨rfl, rfl, rfl, rfl, rfl, rfl, rfl, id⟩
  | _ => cases hm

/-- The micro-steps of an operation depend on the parameters, CONFIG, DISPATCH and the TEXT space alone. -/
theorem opCode_congr {s t : State} (c : Requester) (op : Op) (cfg : t.cfg = s.cfg) (config : t.config = s.config)
    (dispatch : t.dispatch = s.dispatch) (text : t.text = s.text) : opCode c op t = opCode c op s := by
  cases op <;> simp only [opCode, cfg, config, dispatch, text]

theorem KeepsCells.opCode {s t : State} (h : KeepsCells s t) (c : Requester) (op : Op) :
    opCode c op t = opCode c op s :=
  opCode_congr c op h.cfg h.config h.dispatch h.text

/-! ### Bodies -/

/-- Every micro-step leaves the cells alone and stands in a phase of the given kind. -/
def IsBody (ok : Phase → Bool) (code : Code) : Prop := ∀ pm ∈ code, ok pm.1.phase = true ∧ pm.2.isBody = true

/-- The phases of an operation on a handle in which its lock is held (10_state.md R24). -/
def Phase.inLock : Phase → Bool
  | .check => true
  | .cmd => true
  | .settle => true
  | .fetch _ => true
  | .data _ => true
  | _ => false

/-- The phases of INIT between its binding and its lock (10_state.md R24). -/
def Phase.inInit : Phase → Bool
  | .cfg _ => true
  | .low _ => true
  | .initCmd _ => true
  | .initSettle _ => true
  | _ => false

theorem IsBody.nil (ok : Phase → Bool) : IsBody ok [] := by simp [IsBody]

theorem IsBody.cons {ok : Phase → Bool} {pm : Pos × Micro} {code : Code} (hp : ok pm.1.phase = true)
    (hm : pm.2.isBody = true) (h : IsBody ok code) : IsBody ok (pm :: code) :=
  List.forall_mem_cons.2 ⟨⟨hp, hm⟩, h⟩

theorem IsBody.append {ok : Phase → Bool} {a b : Code} (ha : IsBody ok a) (hb : IsBody ok b) : IsBody ok (a ++ b) :=
  List.forall_mem_append.2 ⟨ha, hb⟩

theorem mem_numberFrom {ph : Phase} {h : Half} {k : Nat} {ms : List Micro} {pm : Pos × Micro}
    (hpm : pm ∈ numberFrom ph h k ms) : pm.1.phase = ph ∧ pm.1.half = h ∧ k ≤ pm.1.nstep ∧ pm.2 ∈ ms := by
  induction ms generalizing k with
  | nil => cases hpm
  | cons m ms ih =>
    rcases List.mem_cons.mp hpm with rfl | hpm
    · exact ⟨rfl, rfl, Nat.le_refl _, List.mem_cons_self ..⟩
    · obtain ⟨h1, h2, h3, h4⟩ := ih hpm
      exact ⟨h1, h2, by omega, List.mem_cons_of_mem _ h4⟩

theorem nibbleCode_isBody (t : Nat) (rs : Bool) (n : Nibble) : (nibbleCode t rs n).all Micro.isBody = true := rfl

theorem IsBody.nibble {ok : Phase → Bool} {ph : Phase} (hp : ok ph = true) (h : Half) (t : Nat) (rs : Bool)
    (n : Nibble) : IsBody ok (numberFrom ph h 0 (nibbleCode t rs n)) := by
  intro pm hpm
  obtain ⟨hph, -, -, hm⟩ := mem_numberFrom hpm
  exact ⟨hph ▸ hp, List.all_eq_true.mp (nibbleCode_isBody t rs n) _ hm⟩

theorem IsBody.sendByte {ok : Phase → Bool} {ph : Phase} (hp : ok ph = true) (t : Nat) (rs : Bool) (v : Byte) :
    IsBody ok (sendByte t ph rs v) :=
  (IsBody.nibble hp .hi t rs _).append (.nibble hp .lo t rs _)

theorem IsBody.configure : IsBody Phase.inInit configureCode := by
  simp [IsBody, configureCode, configurePhases, Role.order, plain, Pos.plain, Phase.inInit, Micro.isBody]

theorem IsBody.initCommands (cfg : Config) (st : Strategy) (j : Nat) (bs : List Byte) :
    IsBody Phase.inInit (initCommands cfg st j bs) := by
  induction bs generalizing j with
  | nil => exact .nil _
  | cons b bs ih => exact (IsBody.sendByte rfl _ _ _).append (.cons rfl rfl (ih (j + 1)))

theorem IsBody.string (cfg : Config) (d : DispatchTable) (m : Memory) :
    IsBody Phase.inLock (stringCode cfg d m) := by
  induction m with
  | nil => exact .nil _
  | cons x m ih =>
    obtain ⟨i, b⟩ := x
    refine .cons rfl rfl ?_
    split
    · exact .nil _
    · exact (IsBody.sendByte rfl _ _ _).append ih

/-! ### The shapes of the operations -/

/-- An operation on a handle is a body between its lock's two micro-steps; GOTOXY out of range ends at its check, which
fails (43_public_operations.md R120, R123). -/
theorem opCode_onHandle {c : Requester} {op : Op} (hop : op.onHandle = true) {s : State} {code : Code}
    (h : opCode c op s = some code) :
    (∃ body, IsBody Phase.inLock body ∧ code = plain .acq (.acq c) :: (body ++ [plain .rel (.release c)]))
      ∨ ∃ x y, op = .gotoxy x y ∧ (∀ v, gotoxyTarget s.cfg s.config x y ≠ .byte v)
          ∧ code = [plain .acq (.acq c), plain .check (.rangeCheck x y)] := by
  have command : ∀ d v, ∃ body, IsBody Phase.inLock body
      ∧ commandCode s.cfg c d v = plain .acq (.acq c) :: (body ++ [plain .rel (.release c)]) := fun d v =>
    ⟨_, (IsBody.sendByte (ph := .cmd) rfl s.cfg.strobeMs d.writeCmd.rs v).append
      (.cons (pm := plain .settle (.sleep s.cfg.execMs)) rfl rfl (.nil _)), by simp [commandCode]⟩
  cases op with
  | init g m pm => cases hop
  | level1 x => cases hop
  | clear =>
    obtain ⟨d, -, rfl⟩ := Option.map_eq_some_iff.mp h
    exact .inl (command d cmdClear)
  | home =>
    obtain ⟨d, -, rfl⟩ := Option.map_eq_some_iff.mp h
    exact .inl (command d cmdHome)
  | writeString =>
    obtain ⟨d, -, rfl⟩ := Option.map_eq_some_iff.mp h
    exact .inl ⟨_, .string s.cfg d s.text, rfl⟩
  | gotoxy x y =>
    obtain ⟨d, -, rfl⟩ := Option.map_eq_some_iff.mp h
    unfold gotoxyCode
    cases ht : gotoxyTarget s.cfg s.config x y with
    | byte v =>
      exact .inl ⟨_, .cons (pm := plain .check (.rangeCheck x y)) rfl rfl
        (IsBody.sendByte (ph := .cmd) rfl s.cfg.strobeMs d.writeCmd.rs v), rfl⟩
    | _ => exact .inr ⟨x, y, rfl, by simp [ht], rfl⟩

/-- The micro-steps of INIT between its binding and its lock (42_init_sequence.md R110). -/
def initBody (cfg : Config) : Code := configureCode ++ initCommands cfg .writeCmd 0 initCmds

theorem initBody_isBody (cfg : Config) : IsBody Phase.inInit (initBody cfg) :=
  IsBody.configure.append (.initCommands cfg .writeCmd 0 initCmds)

theorem initCode_bit4 (cfg : Config) (c : Requester) (g : Byte) (pm : PinMap) :
    initCode cfg c g 0x00#8 pm = plain .check (.modeCheck 0x00#8) :: plain .alloc (.alloc g 0x00#8 pm)
      :: plain .bind .bind :: (initBody cfg ++ [plain .mkLock .mkLock, plain .done (.done c)]) := rfl

/-- The phases in which pins are acted on (10_state.md R24). -/
def Phase.isWork (ph : Phase) : Bool := ph.inInit || ph.inLock

theorem level1Code_isBody (cfg : Config) (x : Level1) : IsBody Phase.isWork (level1Code cfg x) := by
  cases x with
  | configure =>
    intro pm h
    obtain ⟨hp, hm⟩ := IsBody.configure pm h
    exact ⟨by simp [Phase.isWork, hp], hm⟩
  | nibble rs n => exact .nibble rfl .hi cfg.strobeMs rs n
  | byte rs v => exact .sendByte rfl cfg.strobeMs rs v

end Sys2Proof.Machine
end

section
/-! The invariant is kept by every step: one rule per kind of operation for what its micro-steps carry along, one per
kind for its abort, and the moves that touch none of the cells the invariant speaks of. -/

namespace Sys2Proof.Machine

/-! ### States with the same cells -/

theorem ConfigOk.of_keepsCells {s t : State} (h : ConfigOk s) (hk : KeepsCells s t) : ConfigOk t := by
  unfold ConfigOk
  rw [hk.config, hk.cfg]
  exact h

theorem HandleInv.of_keepsCells {s t : State} (h : HandleInv s) (hk : KeepsCells s t) : HandleInv t := by
  unfold HandleInv
  rw [hk.handle, hk.config, hk.pinMap, hk.dispatch, hk.lock]
  unfold HandleInv at h
  split at h
  · exact h
  · exact ⟨h.1.of_keepsCells hk, h.2⟩
  · exact ⟨h.1.of_keepsCells hk, h.2⟩

theorem InitAt.of_keepsCells {s t : State} {pos : Pos} (h : InitAt s pos) (hk : KeepsCells s t) : InitAt t pos := by
  unfold InitAt
  rw [hk.handle, hk.dispatch, hk.lock]
  exact h

theorem PosOk.of_keepsCells {c : Requester} {op : Op} {s t : State} {pos : Pos} (h : PosOk c op s pos)
    (hk : KeepsCells s t) : PosOk c op t pos := by
  unfold PosOk
  rw [hk.opCode]
  exact h

/-- The invariant reads the cells, the sequencer and the level of RW alone. -/
theorem Inv.of_keepsCells {s t : State} (h : Inv s) (hk : KeepsCells s t) (hseq : t.seq = s.seq) : Inv t := by
  obtain ⟨hh, hs, ht, hrw⟩ := h
  refine ⟨hh.of_keepsCells hk, ?_, hk.text ▸ ht, hk.rw hrw⟩
  unfold SeqInv at hs ⊢
  rw [hseq, hk.handle, hk.lock, hk.text, hk.cfg]
  split at hs
  · exact hs
  · obtain ⟨h1, h2, h3, h4, h5⟩ := hs
    exact ⟨h1, h2, h3, h4.of_keepsCells hk, h5.of_keepsCells hk⟩
  · obtain ⟨h1, h2, h3, h4⟩ := hs
    exact ⟨h1, h2, h3, h4.of_keepsCells hk⟩
  · obtain ⟨h1, h2, h3, h4⟩ := hs
    exact ⟨h1, h2, h3, h4.of_keepsCells hk⟩

/-- The engine after an operation meets the invariant. -/
abbrev IdleInv (s : State) : Prop := Inv { s with seq := .idle }

theorem finishOp_inv (op : Op) {s : State} (h : IdleInv s) : Inv (finishOp op s) := by
  cases op with
  | level1 x => exact h.of_keepsCells ⟨rfl, rfl, rfl, rfl, rfl, rfl, rfl, id⟩ rfl
  | _ => exact h

/-! ### Running an operation by one micro-step -/

/-- A run by one micro-step of what is left of an operation leaves the invariant, where the code carries along what the
invariant asks at each position. -/
theorem runOp_inv {P : Pos → State → Prop} {D F : State → Prop} {c : Requester} {op : Op} {code full : Code}
    {s : State} (hc : Carries P D F code) (hg : s.grain = .micro) (hs : Start P D code s) (hsub : code ⊆ full)
    (hdone : ∀ t, D t → IdleInv t)
    (hpaused : ∀ q t, q ∈ full.map Prod.fst → P q t → Inv { t with seq := .busy c op q })
    (hfailed : ∀ f t, F t → Inv { t with seq := .busy c op (Pos.plain (.abort f)) }) :
    Inv (runOp c op code s) := by
  have h := runCode_carries hc .micro hs
  rw [runOp, hg]
  generalize runCode .micro code s = r at h
  rcases r with ⟨t, _ | q | ⟨pos, f⟩⟩
  · exact finishOp_inv op (hdone t h)
  · obtain ⟨hp, hq⟩ := h
    obtain ⟨pm, hpm, rfl⟩ := List.mem_map.mp hq
    exact hpaused _ t (List.mem_map_of_mem (hsub (List.mem_of_mem_tail hpm))) hp
  · exact hfailed _ t h.1

theorem codeFrom_subset (pos : Pos) (code : Code) : codeFrom pos code ⊆ code :=
  (List.dropWhile_sublist _).subset

/-- From a position of the code a run starts with what that position asks. -/
theorem start_codeFrom {P : Pos → State → Prop} {D : State → Prop} {pos : Pos} {code : Code} {s : State}
    (hpos : pos ∈ code.map Prod.fst) (h : P pos s) : Start P D (codeFrom pos code) s := by
  obtain ⟨m, rest, he, -⟩ := codeFrom_mem hpos
  rw [he]
  exact h

theorem PosOk.mem {c : Requester} {op : Op} {s : State} {pos : Pos} {code : Code} (h : PosOk c op s pos)
    (hpos : ∀ f, pos.phase ≠ .abort f) (hcode : opCode c op s = some code) : pos ∈ code.map Prod.fst := by
  rcases h with ⟨f, rfl⟩ | ⟨code', hcode', hmem⟩
  · exact absurd rfl (hpos f)
  · obtain rfl := Option.some.inj (hcode.symm.trans hcode')
    exact hmem

/-! ### The operations on a handle -/

/-- An operation on a handle between its lock's two micro-steps (43_public_operations.md R120). -/
structure InLock (c : Requester) (op : Op) (code : Code) (s : State) : Prop where
  valid : s.handle = .valid
  handle : HandleInv s
  lock : s.lock = .held c
  wf : Memory.wf s.text = true
  text : op ≠ .writeString → s.text = []
  rw : s.pins.rw ≠ .high
  code : opCode c op s = some code

theorem InLock.of_keepsCells {c : Requester} {op : Op} {code : Code} {s t : State} (h : InLock c op code s)
    (hk : KeepsCells s t) : InLock c op code t :=
  ⟨hk.handle.trans h.valid, h.handle.of_keepsCells hk, hk.lock.trans h.lock, hk.text ▸ h.wf,
    fun hop => hk.text.trans (h.text hop), hk.rw h.rw, (hk.opCode c op).trans h.code⟩

theorem seqInv_onHandle {c : Requester} {op : Op} {pos : Pos} {s : State} (hop : op.onHandle = true)
    (hseq : s.seq = .busy c op pos) :
    SeqInv s ↔ s.handle = .valid ∧ s.lock = .held c ∧ (op ≠ .writeString → s.text = []) ∧ PosOk c op s pos := by
  unfold SeqInv
  rw [hseq]
  cases op with
  | init g m pm => cases hop
  | level1 x => cases hop
  | _ => exact Iff.rfl

theorem Inv.inLock {c : Requester} {op : Op} {pos : Pos} {s : State} {code : Code} (h : Inv s)
    (hop : op.onHandle = true) (hseq : s.seq = .busy c op pos) (hcode : opCode c op s = some code) :
    InLock c op code s ∧ PosOk c op s pos := by
  obtain ⟨hh, hs, hwf, hrw⟩ := h
  obtain ⟨hv, hl, ht, hp⟩ := (seqInv_onHandle hop hseq).mp hs
  exact ⟨⟨hv, hh, hl, hwf, ht, hrw, hcode⟩, hp⟩

theorem InLock.inv {c : Requester} {op : Op} {code : Code} {s : State} {q : Pos} (h : InLock c op code s)
    (hop : op.onHandle = true) (hq : (∃ f, q = Pos.plain (.abort f)) ∨ q ∈ code.map Prod.fst) :
    Inv { s with seq := .busy c op q } := by
  have hcode : opCode c op { s with seq := .busy c op q } = some code :=
    (opCode_congr (s := s) c op rfl rfl rfl rfl).trans h.code
  exact ⟨h.handle, (seqInv_onHandle hop rfl).mpr ⟨h.valid, h.lock, h.text, hq.imp_right fun hq => ⟨code, hcode, hq⟩⟩,
    h.wf, h.rw⟩

/-- A VALID handle's cells but for the lock, which it has whatever its value. -/
theorem HandleInv.with_lock {s t : State} (h : HandleInv s) (hv : s.handle = .valid) (hl : t.lock ≠ .absent)
    (handle : t.handle = s.handle) (config : t.config = s.config) (pinMap : t.pinMap = s.pinMap)
    (dispatch : t.dispatch = s.dispatch) (cfg : t.cfg = s.cfg) : HandleInv t := by
  unfold HandleInv ConfigOk at *
  rw [handle, config, pinMap, dispatch, cfg]
  rw [hv] at h ⊢
  obtain ⟨hconfig, hpinMap, hdispatch, -⟩ := h
  exact ⟨hconfig, hpinMap, hdispatch, hl⟩

/-- The release ends the operation: the lock is free and the TEXT space empty (43_public_operations.md R120). -/
theorem InLock.idleInv_release {c : Requester} {op : Op} {code : Code} {s : State} (h : InLock c op code s) :
    IdleInv ((Micro.release c).act s).1 := by
  have hrel : ((Micro.release c).act s).1
      = ({ (State.log (.rel c) { s with lock := .free }).ret c .ok with text := [] } : State).tick := by
    simp only [Micro.act, releaseOk, lockRelease, h.lock, if_true]
  rw [hrel]
  exact ⟨h.handle.with_lock h.valid (by simp) rfl rfl rfl rfl rfl,
    ⟨rfl, by simp [h.valid], fun _ => .inr rfl⟩, rfl, h.rw⟩

theorem IsBody.carries {ok : Phase → Bool} {B D F : State → Prop} {body : Code} (hb : IsBody ok body)
    (hkeep : ∀ s t, B s → KeepsCells s t → B t) (hD : ∀ s, B s → D s) (hF : ∀ s, B s → F s) :
    Carries (fun _ => B) D F body :=
  .uniform (fun _ _ _ => Iff.rfl) (fun pm hpm s hs => hkeep _ _ hs (Micro.act_keepsCells (hb pm hpm).2 s)) hD hF

theorem tick_keepsCells (s : State) : KeepsCells s s.tick := ⟨rfl, rfl, rfl, rfl, rfl, rfl, rfl, id⟩

/-- The holder's lock is not acquired again. -/
theorem InLock.act_acq {c : Requester} {op : Op} {code : Code} {s : State} (h : InLock c op code s) :
    (Micro.acq c).act s = (s.tick, none) := by
  simp [Micro.act, lockAcquire, h.lock]

theorem act_rangeCheck_of_out {x y : Byte} {s : State} (h : ∀ v, gotoxyTarget s.cfg s.config x y ≠ .byte v) :
    (Micro.rangeCheck x y).act s = (s.tick, some (.rangeError x y)) := by
  cases ht : gotoxyTarget s.cfg s.config x y with
  | byte v => exact absurd ht (h v)
  | _ => simp [Micro.act, ht]

/-- Each micro-step of an operation on a handle keeps what holds in its lock, and the last ends the operation. -/
theorem onHandle_carries {c : Requester} {op : Op} (hop : op.onHandle = true) {s₀ : State} {code : Code}
    (hcode : opCode c op s₀ = some code) :
    Carries (fun _ => InLock c op code) IdleInv (InLock c op code) code := by
  rcases opCode_onHandle hop hcode with ⟨body, hbody, hshape⟩ | ⟨x, y, rfl, -, hshape⟩
  · have hrel : Carries (fun _ => InLock c op code) IdleInv (InLock c op code) [plain .rel (.release c)] :=
      ⟨fun s hs => ⟨fun _ => hs.idleInv_release, absurd rfl⟩, trivial⟩
    have htail := (hbody.carries (fun _ _ => InLock.of_keepsCells) (fun _ => id) fun _ => id).append hrel
    have hacq : ∀ s, InLock c op code s →
        Start (fun _ => InLock c op code) IdleInv (body ++ [plain .rel (.release c)]) ((Micro.acq c).act s).1
          ∧ ((Micro.acq c).act s).2 = none := fun s hs => by
      rw [hs.act_acq]
      cases body <;> exact ⟨hs.of_keepsCells (tick_keepsCells s), rfl⟩
    rw [hshape] at hacq htail ⊢
    exact ⟨fun s hs => ⟨fun _ => (hacq s hs).1, absurd (hacq s hs).2⟩, htail⟩
  · have hcheck : ∀ s, InLock c (.gotoxy x y) code s → ((Micro.rangeCheck x y).act s).2 ≠ none := fun s hs => by
      rcases opCode_onHandle hop hs.code with ⟨body, -, h⟩ | ⟨x', y', hop', hout, -⟩
      · rw [hshape] at h
        cases body <;> simp [plain] at h
      · cases hop'
        simp [act_rangeCheck_of_out hout]
    rw [hshape] at hcheck ⊢
    refine ⟨fun s hs => ?_, fun s hs => ⟨fun h => absurd h (hcheck s hs), fun _ =>
      hs.of_keepsCells (tick_keepsCells s)⟩, trivial⟩
    rw [plain, hs.act_acq]
    exact ⟨fun _ => hs.of_keepsCells (tick_keepsCells s), absurd rfl⟩

/-- The first micro-step of an operation on a handle takes its lock (20_memory.md R61). -/
theorem onHandle_begins {c : Requester} {op : Op} (hop : op.onHandle = true) {s : State} {code : Code}
    (hg : s.grain = .micro) (hv : s.handle = .valid) (hl : s.lock = .free) (hh : HandleInv s)
    (hwf : Memory.wf s.text = true) (ht : op ≠ .writeString → s.text = []) (hrw : s.pins.rw ≠ .high)
    (hcode : opCode c op s = some code) : Inv (runOp c op code s) := by
  have hlock : InLock c op code (acquired c s) :=
    ⟨hv, hh.with_lock hv (by simp [acquired]) rfl rfl rfl rfl rfl, rfl, hwf, ht, hrw,
      (opCode_congr (s := s) c op rfl rfl rfl rfl).trans hcode⟩
  have hact : (Micro.acq c).act s = (acquired c s, none) := by simp [Micro.act, lockAcquire, hl, acquired]
  obtain ⟨q, m, rest, rfl⟩ : ∃ q m rest, code = plain .acq (.acq c) :: (q, m) :: rest := by
    rcases opCode_onHandle hop hcode with ⟨body, -, rfl⟩ | ⟨x, y, -, -, rfl⟩
    · cases body <;> exact ⟨_, _, _, rfl⟩
    · exact ⟨_, _, _, rfl⟩
  rw [plain, runOp_micro_cons hg, hact]
  exact hlock.inv hop (.inr (by simp))

/-! ### Level 1 operations on their own -/

/-- A level 1 operation on its own leaves the cells as they were at rest (41_nibble_transfer.md R100; log 11). -/
structure AtRest (cfg : Config) (s : State) : Prop where
  handle : HandleInv s
  text : s.text = []
  notBuilding : s.handle ≠ .building
  lock : s.cfg.lockReleaseOnError = true → s.lock = .absent ∨ s.lock = .free
  rw : s.pins.rw ≠ .high
  cfg : s.cfg = cfg

theorem AtRest.of_keepsCells {cfg : Config} {s t : State} (h : AtRest cfg s) (hk : KeepsCells s t) : AtRest cfg t :=
  ⟨h.handle.of_keepsCells hk, hk.text.trans h.text, hk.handle ▸ h.notBuilding, by
    rw [hk.cfg, hk.lock]
    exact h.lock, hk.rw h.rw, hk.cfg.trans h.cfg⟩

theorem atRest_iff_idleInv {s : State} : AtRest s.cfg s ↔ IdleInv s :=
  ⟨fun h => ⟨h.handle, ⟨h.text, h.notBuilding, h.lock⟩, by rw [h.text]; rfl, h.rw⟩,
    fun ⟨hh, ⟨ht, hb, hl⟩, _, hrw⟩ => ⟨hh, ht, hb, hl, hrw, rfl⟩⟩

theorem AtRest.inv_level1 {c : Requester} {x : Level1} {cfg : Config} {s : State} {q : Pos} (h : AtRest cfg s)
    (hq : (∃ f, q = Pos.plain (.abort f)) ∨ q ∈ (level1Code cfg x).map Prod.fst) :
    Inv { s with seq := .busy c (.level1 x) q } := by
  refine ⟨h.handle, ⟨h.text, h.notBuilding, h.lock, hq.imp_right fun hq => ⟨_, rfl, ?_⟩⟩, by rw [h.text]; rfl, h.rw⟩
  rw [h.cfg]
  exact hq

/-- A level 1 operation from any of its positions on. -/
theorem AtRest.runOp_inv {c : Requester} {x : Level1} {s : State} {code : Code} (h : AtRest s.cfg s)
    (hg : s.grain = .micro) (hsub : code ⊆ level1Code s.cfg x) : Inv (runOp c (.level1 x) code s) := by
  have hrest : ∀ t, AtRest s.cfg t → IdleInv t := fun t ht => atRest_iff_idleInv.mp (ht.cfg ▸ ht)
  have hc : Carries (fun _ => AtRest s.cfg) (AtRest s.cfg) (AtRest s.cfg) code :=
    .uniform (fun _ _ _ => Iff.rfl)
      (fun pm hpm t ht => ht.of_keepsCells (Micro.act_keepsCells (level1Code_isBody s.cfg x pm (hsub hpm)).2 t))
      (fun _ => id) fun _ => id
  exact Machine.runOp_inv hc hg (by cases code <;> exact h) hsub hrest (fun q t hq ht => ht.inv_level1 (.inr hq))
    fun f t ht => ht.inv_level1 (.inl ⟨f, rfl⟩)

/-! ### INIT -/

/-- INIT at a position (42_init_sequence.md R110). -/
structure InInit (cfg : Config) (pos : Pos) (s : State) : Prop where
  handle : HandleInv s
  built : InitAt s pos
  text : s.text = []
  rw : s.pins.rw ≠ .high
  cfg : s.cfg = cfg

theorem InInit.of_keepsCells {cfg : Config} {pos : Pos} {s t : State} (h : InInit cfg pos s) (hk : KeepsCells s t) :
    InInit cfg pos t :=
  ⟨h.handle.of_keepsCells hk, h.built.of_keepsCells hk, hk.text.trans h.text, hk.rw h.rw, hk.cfg.trans h.cfg⟩

/-- Positions of INIT at which the same has been built stand for the same property. -/
theorem InInit.move {cfg : Config} {pos q : Pos} {s : State} (h : InInit cfg pos s) (hq : InitAt s q) :
    InInit cfg q s :=
  ⟨h.handle, hq, h.text, h.rw, h.cfg⟩

theorem InInit.inv {c : Requester} {g : Byte} {pm : PinMap} {cfg : Config} {s : State} {q : Pos}
    (h : InInit cfg q s) (hg : (geometryOf cfg g).isSome = true)
    (hq : (∃ f, q = Pos.plain (.abort f)) ∨ q ∈ (initCode cfg c g 0x00#8 pm).map Prod.fst) :
    Inv { s with seq := .busy c (.init g 0x00#8 pm) q } := by
  obtain ⟨hh, hat, ht, hrw, rfl⟩ := h
  exact ⟨hh, ⟨ht, rfl, hg, hat, hq.imp_right fun hq => ⟨_, rfl, hq⟩⟩, by rw [ht]; rfl, hrw⟩

/-- In the phases of INIT's body the handle is BUILDING, its strategies are bound and its lock does not exist. -/
theorem initAt_of_inInit {pos : Pos} (hpos : pos.phase.inInit = true) (s : State) :
    InitAt s pos ↔ s.handle = .building ∧ s.dispatch = some fourBit ∧ s.lock = .absent := by
  unfold InitAt
  cases h : pos.phase <;> simp_all [Phase.inInit]

/-- A failure inside INIT leaves nothing built, or a handle without a lock, which its abort tears down
(42_init_sequence.md R112). -/
def InitFailed (cfg : Config) (s : State) : Prop := ∀ f, InInit cfg (Pos.plain (.abort f)) s

theorem InInit.failed {cfg : Config} {pos : Pos} {s : State} (h : InInit cfg pos s)
    (hb : s.handle = .none ∨ s.handle = .building ∧ s.lock = .absent) : InitFailed cfg s :=
  fun _ => h.move hb

theorem initBody_carries {cfg : Config} {D : State → Prop} (hD : ∀ s, InInit cfg (Pos.plain .mkLock) s → D s) :
    Carries (InInit cfg) D (InitFailed cfg) (initBody cfg) := by
  have hsame : ∀ pm ∈ initBody cfg, ∀ s, InInit cfg pm.1 s ↔ InInit cfg (Pos.plain .mkLock) s := fun pm hpm s =>
    have hat := initAt_of_inInit (initBody_isBody cfg pm hpm).1 s
    ⟨fun h => h.move (hat.mp h.built), fun h => h.move (hat.mpr h.built)⟩
  exact .uniform hsame (fun pm hpm s hs => hs.of_keepsCells (Micro.act_keepsCells (initBody_isBody cfg pm hpm).2 s)) hD
    fun s hs => let ⟨hbuilding, _, hlock⟩ := hs.built; hs.failed (.inr ⟨hbuilding, hlock⟩)

/-- Nothing is built before the allocation, and a failed one leaves it so (42_init_sequence.md R110, R115). -/
theorem alloc_inInit {cfg : Config} {g : Byte} {pm : PinMap} {s : State} (hg : (geometryOf cfg g).isSome = true)
    (h : InInit cfg (Pos.plain .alloc) s) :
    (((Micro.alloc g 0x00#8 pm).act s).2 = none → InInit cfg (Pos.plain .bind) ((Micro.alloc g 0x00#8 pm).act s).1)
      ∧ (((Micro.alloc g 0x00#8 pm).act s).2 ≠ none → InitFailed cfg ((Micro.alloc g 0x00#8 pm).act s).1) := by
  obtain ⟨hh, hnone, htext, hrw, rfl⟩ := h
  replace hnone : s.handle = .none := hnone
  have hcells : s.config = none ∧ s.pinMap = none ∧ s.dispatch = none ∧ s.lock = .absent := by
    simpa only [HandleInv, hnone] using hh
  obtain ⟨hconfig, hpinMap, hdispatch, hlock⟩ := hcells
  obtain ⟨b, t, he, hf, hok, hbad, hd, hl, htx, -⟩ := allocHandle_spec g 0x00#8 pm s
  have hrw' : t.pins.rw ≠ .high := by rw [hf.pins]; exact hrw
  rw [Micro.act, he]
  cases b with
  | true =>
    obtain ⟨hbuilding, hpm, hcfg⟩ := hok rfl
    refine ⟨fun _ => ⟨?_, ⟨hbuilding, hl.trans hlock⟩, htx.trans htext, hrw', hf.cfg⟩, absurd rfl⟩
    simp only [HandleInv, hbuilding]
    exact ⟨⟨g, hcfg, by rw [hf.cfg]; exact hg⟩, by rw [hpm]; rfl⟩
  | false =>
    obtain ⟨hhandle, hpm, hcfg⟩ := hbad rfl
    refine ⟨nofun, fun _ f => ⟨?_, .inl (hhandle.trans hnone), htx.trans htext, hrw', hf.cfg⟩⟩
    simp only [HandleInv, hhandle, hnone]
    exact ⟨hcfg.trans hconfig, hpm.trans hpinMap, hd.trans hdispatch, hl.trans hlock⟩

/-- The binding follows the mode, which is 4-bit (42_init_sequence.md R110, R114). -/
theorem bind_inInit {cfg : Config} {s : State} (h : InInit cfg (Pos.plain .bind) s) :
    InInit cfg (Pos.plain (.cfg 0)) (bindDispatch s) := by
  obtain ⟨hh, ⟨hbuilding, hlock⟩, htext, hrw, rfl⟩ := h
  have hcells : ConfigOk s ∧ s.pinMap.isSome = true := by simpa only [HandleInv, hbuilding] using hh
  obtain ⟨⟨g, hconfig, hgeometry⟩, hpinMap⟩ := hcells
  refine ⟨?_, ⟨hbuilding, by simp [hconfig, DispatchTable.forMode, fourBit], hlock⟩, htext, hrw, rfl⟩
  simp only [HandleInv, bindDispatch_handle, hbuilding]
  exact ⟨⟨g, hconfig, hgeometry⟩, hpinMap⟩

/-- The lock exists from here on; where it cannot be created the handle is torn down (92_eei_decisions.md D11). -/
theorem mkLock_inInit {cfg : Config} {s : State} (h : InInit cfg (Pos.plain .mkLock) s) :
    ((makeLock s).2 = none → InInit cfg (Pos.plain .done) (makeLock s).1)
      ∧ ((makeLock s).2 ≠ none → InitFailed cfg (makeLock s).1) := by
  have htick := h.of_keepsCells (tick_keepsCells s)
  obtain ⟨hh, ⟨hbuilding, hdispatch, hlock⟩, htext, hrw, hcfg⟩ := h
  have hcells : ConfigOk s ∧ s.pinMap.isSome = true := by simpa only [HandleInv, hbuilding] using hh
  unfold makeLock
  split
  · refine ⟨fun _ => ⟨?_, ⟨hbuilding, hdispatch, rfl⟩, htext, hrw, hcfg⟩, absurd rfl⟩
    simp only [HandleInv, State.tick_handle, State.log_handle, hbuilding]
    exact hcells
  · exact ⟨nofun, fun _ => htick.failed (.inr ⟨hbuilding, hlock⟩)⟩

/-- INIT's last step publishes what it has built (42_init_sequence.md R110). -/
theorem done_inInit {cfg : Config} {c : Requester} {s : State} (h : InInit cfg (Pos.plain .done) s) :
    IdleInv (publishHandle c s) := by
  obtain ⟨hh, ⟨hbuilding, hdispatch, hlock⟩, htext, hrw, -⟩ := h
  obtain ⟨hconfig, hpinMap⟩ : ConfigOk s ∧ s.pinMap.isSome = true := by simpa only [HandleInv, hbuilding] using hh
  exact ⟨⟨hconfig, hpinMap, hdispatch, by simp [hlock]⟩, ⟨htext, by simp, fun _ => .inr hlock⟩,
    (congrArg Memory.wf htext).trans rfl, hrw⟩

theorem init_carries {cfg : Config} {g : Byte} (c : Requester) (pm : PinMap) (hg : (geometryOf cfg g).isSome = true) :
    Carries (InInit cfg) IdleInv (InitFailed cfg) (initCode cfg c g 0x00#8 pm) := by
  have hlast : Carries (InInit cfg) IdleInv (InitFailed cfg) [plain .mkLock .mkLock, plain .done (.done c)] :=
    ⟨fun s hs => mkLock_inInit hs, fun s hs => ⟨fun _ => done_inInit hs, absurd rfl⟩, trivial⟩
  have hbody := (initBody_carries (cfg := cfg) fun _ => id).append hlast
  rw [initCode_bit4]
  refine ⟨fun s hs => ⟨fun _ => ?_, absurd rfl⟩, fun s hs => alloc_inInit hg hs,
    fun s hs => ⟨fun _ => bind_inInit hs, absurd rfl⟩, hbody⟩
  exact (hs.of_keepsCells (tick_keepsCells s)).move hs.built

/-- INIT from any of its positions on. -/
theorem init_runOp_inv {c : Requester} {g : Byte} {pm : PinMap} {pos : Pos} {s : State}
    (hg : s.grain = .micro) (hgeo : (geometryOf s.cfg g).isSome = true) (h : InInit s.cfg pos s)
    (hpos : pos ∈ (initCode s.cfg c g 0x00#8 pm).map Prod.fst) :
    Inv (runOp c (.init g 0x00#8 pm) (codeFrom pos (initCode s.cfg c g 0x00#8 pm)) s) :=
  runOp_inv ((init_carries c pm hgeo).from pos) hg (start_codeFrom hpos h) (codeFrom_subset _ _) (fun _ => id)
    (fun _ _ hq ht => ht.inv hgeo (.inr hq)) fun f _ ht => (ht f).inv hgeo (.inl ⟨f, rfl⟩)

/-! ### Aborts -/

/-- INIT's abort tears down what it has built (42_init_sequence.md R112). -/
theorem abortInit_inv {c : Requester} {g m : Byte} {pm : PinMap} {f : Cause} {s : State} (hh : HandleInv s)
    (hbuilt : s.handle = .none ∨ s.handle = .building ∧ s.lock = .absent) (hrw : s.pins.rw ≠ .high) :
    Inv (abortOp c (.init g m pm) f s) := by
  simp only [abortOp, unwind, retFailure]
  split
  · exact ⟨⟨rfl, rfl, rfl, rfl⟩, ⟨rfl, by simp, fun _ => .inl rfl⟩, rfl, hrw⟩
  · next hne =>
    have hnone : s.handle = .none := hbuilt.resolve_right fun h => hne h.1
    obtain ⟨hconfig, hpinMap, hdispatch, hlock⟩ :
        s.config = none ∧ s.pinMap = none ∧ s.dispatch = none ∧ s.lock = .absent := by
      simpa only [HandleInv, hnone] using hh
    refine ⟨?_, ⟨rfl, by simp [hnone], fun _ => .inl hlock⟩, rfl, hrw⟩
    simp only [HandleInv, State.tick_handle, State.ret_handle, hnone]
    exact ⟨hconfig, hpinMap, hdispatch, hlock⟩

/-- The abort of an operation on a handle gives its lock back where the parameters say so (92_eei_decisions.md D8). -/
theorem abortOnHandle_inv {c : Requester} {op : Op} {code : Code} {f : Cause} {s : State} (hop : op.onHandle = true)
    (h : InLock c op code s) : Inv (abortOp c op f s) := by
  have habort : abortOp c op f s
      = State.tick { (if s.cfg.lockReleaseOnError then lockRelease c s else s).ret c (op.failure f) with
          text := [], seq := .idle } := by
    cases op with
    | init g m pm => cases hop
    | level1 x => cases hop
    | _ => rfl
  rw [habort]
  split
  · rw [lockRelease, if_pos h.lock]
    exact ⟨h.handle.with_lock h.valid (by simp) rfl rfl rfl rfl rfl, ⟨rfl, by simp [h.valid], fun _ => .inr rfl⟩, rfl,
      h.rw⟩
  · next hkeep =>
    exact ⟨h.handle.with_lock h.valid (by simp [h.lock]) rfl rfl rfl rfl rfl,
      ⟨rfl, by simp [h.valid], fun hr => absurd hr hkeep⟩, rfl, h.rw⟩

/-! ### The operation in progress goes on -/

/-- The three kinds of operation. -/
theorem Op.kinds (op : Op) :
    op.onHandle = true ∨ (∃ g m pm, op = .init g m pm) ∨ ∃ x, op = .level1 x := by
  cases op <;> simp [Op.onHandle]

theorem Inv.inInit {c : Requester} {g m : Byte} {pm : PinMap} {pos : Pos} {s : State} (h : Inv s)
    (hseq : s.seq = .busy c (.init g m pm) pos) :
    InInit s.cfg pos s ∧ m = 0x00#8 ∧ (geometryOf s.cfg g).isSome = true ∧ PosOk c (.init g m pm) s pos := by
  obtain ⟨hh, hs, -, hrw⟩ := h
  simp only [SeqInv, hseq] at hs
  obtain ⟨ht, hm, hg, hat, hp⟩ := hs
  exact ⟨⟨hh, hat, ht, hrw, rfl⟩, hm, hg, hp⟩

theorem Inv.atRest {c : Requester} {x : Level1} {pos : Pos} {s : State} (h : Inv s)
    (hseq : s.seq = .busy c (.level1 x) pos) : AtRest s.cfg s ∧ PosOk c (.level1 x) s pos := by
  obtain ⟨hh, hs, -, hrw⟩ := h
  simp only [SeqInv, hseq] at hs
  obtain ⟨ht, hb, hl, hp⟩ := hs
  exact ⟨⟨hh, ht, hb, hl, hrw, rfl⟩, hp⟩

/-- A position of an operation that is not on its abort path is one of its micro-steps, which exist. -/
theorem Inv.posOk {c : Requester} {op : Op} {pos : Pos} {s : State} (h : Inv s) (hseq : s.seq = .busy c op pos) :
    PosOk c op s pos := by
  rcases op.kinds with hop | ⟨g, m, pm, rfl⟩ | ⟨x, rfl⟩
  · obtain ⟨-, hs, -⟩ := h
    obtain ⟨-, -, -, hp⟩ := (seqInv_onHandle hop hseq).mp hs
    exact hp
  · obtain ⟨-, -, -, hp⟩ := h.inInit hseq
    exact hp
  · exact (h.atRest hseq).2

theorem cells_of_valid {s : State} (h : HandleInv s) (hv : s.handle = .valid) :
    ConfigOk s ∧ s.dispatch = some fourBit ∧ s.lock ≠ .absent := by
  simp only [HandleInv, hv] at h
  obtain ⟨hconfig, -, hdispatch, hlock⟩ := h
  exact ⟨hconfig, hdispatch, hlock⟩

/-- The micro-steps of an operation on a VALID handle exist. -/
theorem exists_opCode {c : Requester} {op : Op} {s : State} (h : s.dispatch ≠ none) :
    ∃ code, opCode c op s = some code :=
  Option.ne_none_iff_exists'.mp fun hc => h (dispatch_eq_none_of_opCode hc)

/-- An abort ends every operation with the invariant (60_exceptions.md R146). -/
theorem abortOp_inv {c : Requester} {op : Op} {pos : Pos} {f : Cause} {s : State} (h : Inv s)
    (hseq : s.seq = .busy c op pos) (hpos : pos.phase = .abort f) : Inv (abortOp c op f s) := by
  rcases op.kinds with hop | ⟨g, m, pm, rfl⟩ | ⟨x, rfl⟩
  · have hv : s.handle = .valid := ((seqInv_onHandle hop hseq).mp h.2.1).1
    obtain ⟨-, hd, -⟩ := cells_of_valid h.1 hv
    obtain ⟨code, hcode⟩ := exists_opCode (c := c) (op := op) (s := s) (by simp [hd])
    exact abortOnHandle_inv hop (h.inLock hop hseq hcode).1
  · obtain ⟨hi, -⟩ := h.inInit hseq
    have hbuilt := hi.built
    simp only [InitAt, hpos] at hbuilt
    exact abortInit_inv hi.handle hbuilt hi.rw
  · obtain ⟨hr, -⟩ := h.atRest hseq
    exact (atRest_iff_idleInv.mp hr).of_keepsCells ⟨rfl, rfl, rfl, rfl, rfl, rfl, rfl, id⟩ rfl

/-- The operation in progress goes on from its position. -/
theorem goesOn_inv {c : Requester} {op : Op} {pos : Pos} {s : State} {code : Code} (h : Inv s)
    (hg : s.grain = .micro) (hseq : s.seq = .busy c op pos) (hpos : ∀ f, pos.phase ≠ .abort f)
    (hcode : opCode c op s = some code) : Inv (runOp c op (codeFrom pos code) s) := by
  have hmem := (h.posOk hseq).mem hpos hcode
  rcases op.kinds with hop | ⟨g, m, pm, rfl⟩ | ⟨x, rfl⟩
  · obtain ⟨hi, -⟩ := h.inLock hop hseq hcode
    exact runOp_inv ((onHandle_carries hop hcode).from pos) hg (start_codeFrom hmem hi) (codeFrom_subset _ _)
      (fun _ => id) (fun _ _ hq ht => ht.inv hop (.inr hq)) fun f _ ht => ht.inv hop (.inl ⟨f, rfl⟩)
  · obtain ⟨hi, rfl, hgeo, -⟩ := h.inInit hseq
    obtain rfl := Option.some.inj hcode
    exact init_runOp_inv hg hgeo hi hmem
  · obtain rfl := Option.some.inj hcode
    exact (h.atRest hseq).1.runOp_inv hg (codeFrom_subset _ _)

/-! ### Presenting an instruction, and steps -/

/-- The text an operation on a handle begins with: loaded, or none (20_memory.md R52). -/
theorem opText_spec (op : Op) {s : State} (h : s.text = []) :
    Memory.wf (opText op s) = true ∧ (op ≠ .writeString → opText op s = []) := by
  cases op with
  | writeString => exact ⟨Memory.wf_load 0 _, absurd rfl⟩
  | _ => exact ⟨by simp only [opText, h]; rfl, fun _ => h⟩

theorem begins_inv {op : Op} {code : Code} {s : State} (h : Inv s) (hidle : s.seq = .idle) (hmay : MayBegin op s)
    (hcode : opCode s.cur.requester op { s with text := opText op s } = some code) :
    Inv (runOp s.cur.requester op code { s with grain := .micro, text := opText op s }) := by
  have hrest : AtRest s.cfg s :=
    atRest_iff_idleInv.mpr (h.of_keepsCells ⟨rfl, rfl, rfl, rfl, rfl, rfl, rfl, id⟩ hidle.symm)
  rcases op.kinds with hop | ⟨g, m, pm, rfl⟩ | ⟨x, rfl⟩
  · obtain ⟨hv, hl⟩ : s.handle = .valid ∧ s.lock = .free := by
      cases op with
      | init g m pm => cases hop
      | level1 x => cases hop
      | _ => exact hmay
    obtain ⟨hwf, ht⟩ := opText_spec op hrest.text
    exact onHandle_begins hop rfl hv hl h.1 hwf ht hrest.rw ((opCode_congr _ op rfl rfl rfl rfl).trans hcode)
  · obtain ⟨hnone, hgeo, rfl⟩ := hmay
    obtain rfl := Option.some.inj hcode
    exact init_runOp_inv (pos := Pos.plain .check) rfl hgeo ⟨hrest.handle, hnone, hrest.text, hrest.rw, rfl⟩
      (List.mem_cons_self ..)
  · obtain rfl := Option.some.inj hcode
    exact AtRest.runOp_inv (s := { s with grain := .micro }) ⟨hrest.handle, hrest.text, hrest.notBuilding, hrest.lock,
      hrest.rw, rfl⟩ rfl (List.Subset.refl _)

theorem Presented.inv {s t : State} {o : Grain → Host.Outcome State Fault Refusal} (hp : Presented s o) (h : Inv s)
    (ho : o .micro = .next t) : Inv t := by
  have hsame : ∀ t : State, KeepsCells s t → t.seq = s.seq → Inv t := fun t => h.of_keepsCells
  cases hp with
  | refusedErr c => cases ho; exact hsame _ ⟨rfl, rfl, rfl, rfl, rfl, rfl, rfl, id⟩ rfl
  | refusedNull c => cases ho; exact hsame _ ⟨rfl, rfl, rfl, rfl, rfl, rfl, rfl, id⟩ rfl
  | waits => cases ho; exact hsame _ ⟨rfl, rfl, rfl, rfl, rfl, rfl, rfl, id⟩ rfl
  | begins op code hidle hmay hcode => cases ho; exact begins_inv h hidle hmay hcode
  | faulty _ => cases ho
  | refused _ => cases ho

/-- From a state that meets the invariant a step is one move from another that does. -/
theorem Inv.moves {s : State} (h : Inv s) : ∃ s', Inv s' ∧ s'.grain = .micro ∧ Moves s' (step s) := by
  obtain ⟨left, r, env, hm⟩ := step_moves s
  refine ⟨_, ?_, rfl, hm⟩
  exact h.of_keepsCells ⟨rfl, rfl, rfl, rfl, rfl, rfl, rfl, id⟩ rfl

/-- Settles O47: each of the moves a step can be keeps the invariant. -/
theorem everyStepKeepsTheInvariant : Obligations.EveryStepKeepsTheInvariant := by
  unfold Obligations.EveryStepKeepsTheInvariant
  intro s t h hstep
  obtain ⟨s', h', hg, hm⟩ := h.moves
  generalize hstep' : step s = o at hm
  have ho := hstep'.symm.trans hstep
  cases hm with
  | idles hseq => cases ho; exact h'.of_keepsCells (tick_keepsCells _) rfl
  | aborts hseq hpos => cases ho; exact abortOp_inv h' hseq hpos
  | goesOn hseq hpos hcode => cases ho; exact goesOn_inv h' hg hseq hpos hcode
  | isStuck hseq hpos hcode => cases ho
  | presents hp => exact hp.inv h' ho

/-! ### No fault -/

theorem gotoxyTarget_ne_noGeometry {s : State} (h : ConfigOk s) (x y : Byte) :
    gotoxyTarget s.cfg s.config x y ≠ .noGeometry := by
  obtain ⟨g, hconfig, hg⟩ := h
  obtain ⟨⟨cols, rows⟩, hgeo⟩ := Option.isSome_iff_exists.mp hg
  simp only [gotoxyTarget, hconfig, hgeo]
  repeat' split
  all_goals simp

theorem Inv.not_brokenHandle {s : State} (h : Inv s) : ¬ BrokenHandle s := by
  rintro ⟨hv, hbroken⟩
  obtain ⟨hconfig, hdispatch, hlock⟩ := cells_of_valid h.1 hv
  rcases hbroken with ha | hd | ⟨x, y, ht⟩
  · exact hlock ha
  · simp [hdispatch] at hd
  · exact gotoxyTarget_ne_noGeometry hconfig x y ht

/-- Settles O48: a fault would need a handle without a cell, or a position of no micro-step. -/
theorem invariantStatesNeverFault : Obligations.InvariantStatesNeverFault := by
  unfold Obligations.InvariantStatesNeverFault
  intro s h f hstep
  obtain ⟨s', h', -, hm⟩ := h.moves
  generalize hstep' : step s = o at hm
  have ho := hstep'.symm.trans hstep
  cases hm with
  | isStuck hseq hpos hcode =>
    rcases h'.posOk hseq with ⟨f, rfl⟩ | ⟨code, hsome, -⟩
    · exact hpos f rfl
    · cases hcode.symm.trans hsome
  | presents hp =>
    cases hp with
    | faulty hb => exact h'.not_brokenHandle hb
    | _ => cases ho
  | _ => cases ho

end Sys2Proof.Machine
end

section
/-! The positions of an operation: no two of its micro-steps share one and none is on the abort path, so that from a
position the operation goes on with exactly what is left (10_state.md R24, R25). -/

namespace Sys2Proof.Machine

/-- No two micro-steps have the same position. -/
def Distinct (code : Code) : Prop := (code.map Prod.fst).Nodup

theorem Distinct.nil : Distinct [] := List.nodup_nil

theorem Distinct.cons {pm : Pos × Micro} {code : Code} (h : Distinct code) (hne : ∀ y ∈ code, pm.1 ≠ y.1) :
    Distinct (pm :: code) :=
  List.nodup_cons.2 ⟨fun hm => let ⟨y, hy, he⟩ := List.mem_map.mp hm; hne y hy he.symm, h⟩

/-- From a position of a code on, the code is what is left there. -/
theorem Distinct.codeFrom {pre rest : Code} {pos : Pos} {m : Micro} (h : Distinct (pre ++ (pos, m) :: rest)) :
    codeFrom pos (pre ++ (pos, m) :: rest) = (pos, m) :: rest := by
  induction pre with
  | nil => simp [Machine.codeFrom]
  | cons x pre ih =>
    obtain ⟨hx, h⟩ := List.nodup_cons.1 h
    have hne : x.1 ≠ pos := fun he => hx (by simp [he])
    refine Eq.trans ?_ (ih h)
    simp [Machine.codeFrom, hne]

/-- A body in phases of its own, in the midst of others. -/
theorem Distinct.between {pre body post : Code} (hb : Distinct body) (ho : Distinct (pre ++ post))
    (hne : ∀ x ∈ body, ∀ y ∈ pre ++ post, x.1.phase ≠ y.1.phase) : Distinct (pre ++ (body ++ post)) := by
  have hperm : ((pre ++ (body ++ post)).map Prod.fst).Perm (body.map Prod.fst ++ (pre ++ post).map Prod.fst) := by
    rw [← List.map_append]
    exact (List.perm_append_comm_assoc pre body post).map _
  refine hperm.nodup_iff.mpr (hb.append ho fun q hq hq' => ?_)
  obtain ⟨x, hx, rfl⟩ := List.mem_map.mp hq
  obtain ⟨y, hy, he⟩ := List.mem_map.mp hq'
  exact hne x hx y hy (congrArg Pos.phase he.symm)

/-- A body in phases of a kind that is found nowhere around it. -/
theorem Distinct.around {ok : Phase → Bool} {pre body post : Code} (hd : Distinct body) (hb : IsBody ok body)
    (ho : Distinct (pre ++ post)) (hout : (pre ++ post).all (fun y => !ok y.1.phase) = true) :
    Distinct (pre ++ (body ++ post)) := by
  refine hd.between ho fun x hx y hy he => ?_
  have hy := List.all_eq_true.mp hout y hy
  rw [← he, (hb x hx).1] at hy
  cases hy

/-! ### Transfers and CONFIGURE -/

theorem distinct_numberFrom (ph : Phase) (h : Half) (k : Nat) (ms : List Micro) :
    Distinct (numberFrom ph h k ms) := by
  induction ms generalizing k with
  | nil => exact .nil
  | cons m ms ih =>
    refine (ih (k + 1)).cons fun y hy he => ?_
    obtain ⟨-, -, hk, -⟩ := mem_numberFrom hy
    rw [← he] at hk
    exact absurd hk (Nat.not_succ_le_self k)

theorem phase_of_mem_sendByte {t : Nat} {ph : Phase} {rs : Bool} {v : Byte} {pm : Pos × Micro}
    (h : pm ∈ sendByte t ph rs v) : pm.1.phase = ph :=
  (List.mem_append.mp h).elim (fun h => (mem_numberFrom h).1) fun h => (mem_numberFrom h).1

theorem distinct_sendByte (t : Nat) (ph : Phase) (rs : Bool) (v : Byte) : Distinct (sendByte t ph rs v) := by
  unfold Distinct sendByte
  rw [List.map_append]
  refine List.Nodup.append (distinct_numberFrom ..) (distinct_numberFrom ..) fun q hq hq' => ?_
  obtain ⟨x, hx, rfl⟩ := List.mem_map.mp hq
  obtain ⟨y, hy, he⟩ := List.mem_map.mp hq'
  have hhi := (mem_numberFrom hx).2.1
  rw [← he, (mem_numberFrom hy).2.1] at hhi
  cases hhi

theorem distinct_configureCode : Distinct configureCode := by
  unfold Distinct
  decide

theorem distinct_level1Code (cfg : Config) (x : Level1) : Distinct (level1Code cfg x) := by
  cases x with
  | configure => exact distinct_configureCode
  | nibble rs n => exact distinct_numberFrom ..
  | byte rs v => exact distinct_sendByte ..

/-! ### INIT -/

theorem phase_of_mem_initCommands {cfg : Config} {st : Strategy} {j : Nat} {bs : List Byte} {pm : Pos × Micro}
    (h : pm ∈ initCommands cfg st j bs) : ∃ i, j ≤ i ∧ (pm.1.phase = .initCmd i ∨ pm.1.phase = .initSettle i) := by
  induction bs generalizing j with
  | nil => cases h
  | cons b bs ih =>
    rcases List.mem_append.mp h with h | h
    · exact ⟨j, Nat.le_refl _, .inl (phase_of_mem_sendByte h)⟩
    · rcases List.mem_cons.mp h with rfl | h
      · exact ⟨j, Nat.le_refl _, .inr rfl⟩
      · obtain ⟨i, hi, hp⟩ := ih h
        exact ⟨i, Nat.le_of_succ_le hi, hp⟩

theorem distinct_initCommands (cfg : Config) (st : Strategy) (j : Nat) (bs : List Byte) :
    Distinct (initCommands cfg st j bs) := by
  induction bs generalizing j with
  | nil => exact .nil
  | cons b bs ih =>
    have later : ∀ y ∈ initCommands cfg st (j + 1) bs, y.1.phase ≠ .initCmd j ∧ y.1.phase ≠ .initSettle j := by
      intro y hy
      obtain ⟨i, hi, hp⟩ := phase_of_mem_initCommands hy
      rcases hp with hp | hp <;> rw [hp] <;> simp <;> omega
    have hrest := (ih (j + 1)).cons (pm := plain (.initSettle j) (.sleep cfg.initMs)) fun y hy he =>
      (later y hy).2 (congrArg Pos.phase he.symm)
    refine (distinct_sendByte _ (.initCmd j) _ b).between (pre := []) hrest fun x hx y hy => ?_
    rw [phase_of_mem_sendByte hx]
    rcases List.mem_cons.mp hy with rfl | hy
    · simp [plain, Pos.plain]
    · exact (later y hy).1.symm

theorem phase_of_mem_configureCode {pm : Pos × Micro} (h : pm ∈ configureCode) (i : Nat) :
    pm.1.phase ≠ .initCmd i ∧ pm.1.phase ≠ .initSettle i := by
  have hall : configureCode.all (fun pm => match pm.1.phase with
      | .initCmd _ => false
      | .initSettle _ => false
      | _ => true) = true := rfl
  have hpm := List.all_eq_true.mp hall pm h
  constructor <;> intro he <;> rw [he] at hpm <;> cases hpm

theorem distinct_initBody (cfg : Config) : Distinct (initBody cfg) := by
  refine distinct_configureCode.between (pre := []) (distinct_initCommands ..) fun x hx y hy => ?_
  obtain ⟨i, -, hp⟩ := phase_of_mem_initCommands hy
  obtain ⟨hcmd, hsettle⟩ := phase_of_mem_configureCode hx i
  rcases hp with hp | hp <;> rw [hp]
  · exact hcmd
  · exact hsettle

theorem distinct_initCode (cfg : Config) (c : Requester) (g : Byte) (pm : PinMap) :
    Distinct (initCode cfg c g 0x00#8 pm) := by
  have houter : Distinct ([plain .check (.modeCheck 0x00#8), plain .alloc (.alloc g 0x00#8 pm), plain .bind .bind]
      ++ [plain .mkLock .mkLock, plain .done (.done c)]) := by
    simp [Distinct, plain, Pos.plain]
  exact (distinct_initBody cfg).around (initBody_isBody cfg) houter rfl

/-! ### The operations on a handle -/

theorem phase_of_mem_stringCode {cfg : Config} {d : DispatchTable} {i : Nat} {bs : List Byte} {pm : Pos × Micro}
    (h : pm ∈ stringCode cfg d (Memory.load i bs)) :
    ∃ k, i ≤ k ∧ (pm.1.phase = .fetch k ∨ pm.1.phase = .data k) := by
  induction bs generalizing i with
  | nil => cases h
  | cons b bs ih =>
    rcases List.mem_cons.mp h with rfl | h
    · exact ⟨i, Nat.le_refl _, .inl rfl⟩
    · split at h
      · cases h
      · rcases List.mem_append.mp h with h | h
        · exact ⟨i, Nat.le_refl _, .inr (phase_of_mem_sendByte h)⟩
        · obtain ⟨k, hk, hp⟩ := ih h
          exact ⟨k, Nat.le_of_succ_le hk, hp⟩

theorem distinct_stringCode (cfg : Config) (d : DispatchTable) (i : Nat) (bs : List Byte) :
    Distinct (stringCode cfg d (Memory.load i bs)) := by
  induction bs generalizing i with
  | nil => exact .nil
  | cons b bs ih =>
    have later : ∀ y ∈ stringCode cfg d (Memory.load (i + 1) bs), y.1.phase ≠ .fetch i ∧ y.1.phase ≠ .data i := by
      intro y hy
      obtain ⟨k, hk, hp⟩ := phase_of_mem_stringCode hy
      rcases hp with hp | hp <;> rw [hp] <;> simp <;> omega
    have hfetch := (ih (i + 1)).cons (pm := plain (.fetch i) (.fetch i)) fun y hy he =>
      (later y hy).1 (congrArg Pos.phase he.symm)
    unfold Memory.load stringCode
    split
    · exact Distinct.nil.cons (by simp)
    · refine (distinct_sendByte _ (.data i) _ b).between (pre := [plain (.fetch i) (.fetch i)]) hfetch
        fun x hx y hy => ?_
      rw [phase_of_mem_sendByte hx]
      rcases List.mem_cons.mp hy with rfl | hy
      · simp [plain, Pos.plain]
      · exact (later y hy).2.symm

theorem Distinct.frame {body : Code} (h : Distinct body) (hb : IsBody Phase.inLock body) (c : Requester) :
    Distinct (plain .acq (.acq c) :: (body ++ [plain .rel (.release c)])) :=
  h.around (pre := [plain .acq (.acq c)]) hb (by simp [Distinct, plain, Pos.plain]) rfl

theorem distinct_commandCode (cfg : Config) (c : Requester) (d : DispatchTable) (v : Byte) :
    Distinct (commandCode cfg c d v) := by
  have hsend := distinct_sendByte cfg.strobeMs .cmd d.writeCmd.rs v
  have hbody := hsend.between (pre := []) (post := [plain .settle (.sleep cfg.execMs)]) (by simp [Distinct])
    fun x hx y hy => by
      rw [phase_of_mem_sendByte hx, List.mem_singleton.mp hy]
      simp [plain, Pos.plain]
  have hframe := hbody.frame ((IsBody.sendByte rfl _ _ _).append (.cons rfl rfl (.nil _))) c
  simpa [commandCode] using hframe

theorem distinct_gotoxyCode (cfg : Config) (c : Requester) (d : DispatchTable) (config : Option DisplayConfig)
    (x y : Byte) : Distinct (gotoxyCode cfg c d config x y) := by
  unfold gotoxyCode
  split
  · next v _ =>
    have hbody := (distinct_sendByte cfg.strobeMs .cmd d.writeCmd.rs v).cons (pm := plain .check (.rangeCheck x y))
      fun z hz he => by
        have hp := phase_of_mem_sendByte hz
        rw [← he] at hp
        cases hp
    exact hbody.frame (.cons rfl rfl (IsBody.sendByte rfl _ _ _)) c
  · simp [Distinct, plain, Pos.plain]

/-! ### Operations that begin -/

/-- An operation that begins has no position twice. -/
theorem MayBegin.distinct {c : Requester} {op : Op} {s : State} {code : Code} (hmay : MayBegin op s)
    (hcode : opCode c op { s with text := opText op s } = some code) : Distinct code := by
  cases op with
  | init g m pm =>
    obtain ⟨-, -, rfl⟩ := hmay
    obtain rfl := Option.some.inj hcode
    exact distinct_initCode ..
  | level1 x =>
    obtain rfl := Option.some.inj hcode
    exact distinct_level1Code ..
  | clear =>
    obtain ⟨d, -, rfl⟩ := Option.map_eq_some_iff.mp hcode
    exact distinct_commandCode ..
  | home =>
    obtain ⟨d, -, rfl⟩ := Option.map_eq_some_iff.mp hcode
    exact distinct_commandCode ..
  | gotoxy x y =>
    obtain ⟨d, -, rfl⟩ := Option.map_eq_some_iff.mp hcode
    exact distinct_gotoxyCode ..
  | writeString =>
    obtain ⟨d, -, rfl⟩ := Option.map_eq_some_iff.mp hcode
    exact (distinct_stringCode s.cfg d 0 s.cur.text).frame (.string _ _ _) c

theorem IsBody.ne_abort {ok : Phase → Bool} {code : Code} (hb : IsBody ok code) (hok : ∀ f, ok (.abort f) = false) :
    ∀ pm ∈ code, ∀ f, pm.1.phase ≠ .abort f := fun pm hpm f he => by
  have h := (hb pm hpm).1
  rw [he, hok] at h
  cases h

/-- An operation that begins has no micro-step on the abort path. -/
theorem MayBegin.ne_abort {c : Requester} {op : Op} {s : State} {code : Code} (hmay : MayBegin op s)
    (hcode : opCode c op { s with text := opText op s } = some code) :
    ∀ pm ∈ code, ∀ f, pm.1.phase ≠ .abort f := by
  rcases op.kinds with hop | ⟨g, m, pm, rfl⟩ | ⟨x, rfl⟩
  · rcases opCode_onHandle hop hcode with ⟨body, hbody, rfl⟩ | ⟨x, y, -, -, rfl⟩
    · have := hbody.ne_abort fun _ => rfl
      simp only [List.forall_mem_cons, List.forall_mem_append]
      exact ⟨nofun, this, nofun, List.forall_mem_nil _⟩
    · simp [plain, Pos.plain]
  · obtain ⟨-, -, rfl⟩ := hmay
    obtain rfl := Option.some.inj hcode
    have hbody := fun cfg => (initBody_isBody cfg).ne_abort fun _ => rfl
    rw [initCode_bit4]
    simp only [List.forall_mem_cons, List.forall_mem_append]
    exact ⟨nofun, nofun, nofun, hbody _, nofun, nofun, List.forall_mem_nil _⟩
  · obtain rfl := Option.some.inj hcode
    exact (level1Code_isBody _ x).ne_abort fun _ => rfl

end Sys2Proof.Machine
end

section
/-! The two grains agree: an operation taken whole comes to the state to which the steps of the machine, one micro-step
each, bring it (10_state.md R25; log 1). -/

namespace Sys2Proof.Machine

/-! ### The sequencer and the grain play no part in a micro-step -/

/-- The same engine with the sequencer and the grain given. -/
def State.placed (s : State) (q : Seq) (g : Grain) : State := { s with seq := q, grain := g }

theorem drawGpio_placed (s : State) (q : Seq) (g : Grain) :
    (s.placed q g).drawGpio = (s.drawGpio.1, s.drawGpio.2.placed q g) := by
  unfold State.drawGpio
  cases hd : s.env.gpio <;> simp [State.placed, hd]

theorem latchEdge_placed (s : State) (q : Seq) (g : Grain) :
    latchEdge (s.placed q g) = (latchEdge s).placed q g := by
  unfold latchEdge State.drawEdge
  cases hp : s.pins.en with
  | unknown => cases he : s.env.edge with
    | nil => cases hc : Config.edge s.env.draws <;> simp [State.placed, hp, he, hc]
    | cons e rest => cases hc : e.1 <;> simp [State.placed, hp, he, hc]
  | _ => simp [State.placed, hp]

theorem driveLine_placed (p : Role) (v : Bool) (s : State) (q : Seq) (g : Grain) :
    driveLine p v (s.placed q g) = (driveLine p v s).placed q g := by
  unfold driveLine
  split
  · rw [latchEdge_placed]
    rfl
  · rfl

theorem gpioCfg_placed (p : Role) (s : State) (q : Seq) (g : Grain) :
    gpioCfg p (s.placed q g) = ((gpioCfg p s).1.placed q g, (gpioCfg p s).2) := by
  unfold gpioCfg
  rw [drawGpio_placed]
  rcases s.drawGpio with ⟨_ | _, t⟩ <;> rfl

theorem gpioSet_placed (p : Role) (v : Bool) (s : State) (q : Seq) (g : Grain) :
    gpioSet p v (s.placed q g) = ((gpioSet p v s).1.placed q g, (gpioSet p v s).2) := by
  unfold gpioSet
  rw [drawGpio_placed]
  rcases s.drawGpio with ⟨_ | _, t⟩
  · rfl
  · exact congrArg (fun u => (u, none))
      (driveLine_placed p v ((State.log (.set p v true) (t.call p (.setLevel v) true)).tick) q g)

theorem allocHandle_placed (gc m : Byte) (pm : PinMap) (s : State) (q : Seq) (g : Grain) :
    allocHandle gc m pm (s.placed q g) = ((allocHandle gc m pm s).1.placed q g, (allocHandle gc m pm s).2) := by
  have hd : (s.placed q g).drawAlloc = (s.drawAlloc.1, s.drawAlloc.2.placed q g) := by
    unfold State.drawAlloc
    cases ha : s.env.alloc <;> simp [State.placed, ha]
  unfold allocHandle
  rw [hd]
  rcases s.drawAlloc with ⟨_ | _, t⟩ <;> rfl

theorem lockRelease_placed (c : Requester) (s : State) (q : Seq) (g : Grain) :
    lockRelease c (s.placed q g) = (lockRelease c s).placed q g := by
  by_cases hl : s.lock = .held c <;> simp [lockRelease, State.placed, State.log, hl]

/-- No micro-step reads or writes the sequencer or the grain. -/
theorem Micro.act_placed (m : Micro) (s : State) (q : Seq) (g : Grain) :
    m.act (s.placed q g) = ((m.act s).1.placed q g, (m.act s).2) := by
  cases m with
  | cfg p => exact gpioCfg_placed p s q g
  | set p v => exact gpioSet_placed p v s q g
  | alloc gc md pm => exact allocHandle_placed gc md pm s q g
  | mkLock =>
    cases hl : s.cfg.lockCreateOk <;> simp [Micro.act, makeLock, State.placed, State.tick, State.log, hl]
  | acq c =>
    by_cases hl : s.lock = .free <;> simp [Micro.act, lockAcquire, State.placed, State.tick, State.log, hl]
  | fetch i =>
    cases hb : Memory.read s.text i <;> simp [Micro.act, textRead, State.placed, State.tick, State.log, hb]
  | release c =>
    simp only [Micro.act, releaseOk, lockRelease_placed]
    rfl
  | _ => rfl

/-- After its last micro-step an operation has left the sequencer idle. -/
theorem finishOp_placed (op : Op) (s : State) (q : Seq) (g : Grain) :
    finishOp op (s.placed q g) = (finishOp op s).placed .idle g := by
  cases op <;> rfl

theorem unwind_placed (c : Requester) (op : Op) (s : State) (q : Seq) (g : Grain) :
    unwind c op (s.placed q g) = (unwind c op s).placed q g := by
  have hrelease : (if s.cfg.lockReleaseOnError then lockRelease c (s.placed q g) else s.placed q g)
      = (if s.cfg.lockReleaseOnError then lockRelease c s else s).placed q g := by
    rw [lockRelease_placed]
    split <;> rfl
  cases op with
  | init gc m pm =>
    by_cases hb : s.handle = .building <;> simp [unwind, teardown, State.placed, State.log, hb]
  | level1 x => rfl
  | _ => exact hrelease

/-- After its abort an operation has left the sequencer idle. -/
theorem abortOp_placed (c : Requester) (op : Op) (f : Cause) (s : State) (q : Seq) (g : Grain) :
    abortOp c op f (s.placed q g) = (abortOp c op f s).placed .idle g := by
  unfold abortOp
  rw [unwind_placed]
  cases op <;> rfl

/-! ### Micro-steps that leave what is left of the operation -/

/-- The code of the operation, whatever the position: what its micro-steps carry along but the last. -/
abbrev CodeStays (c : Requester) (op : Op) (full code : Code) : Prop :=
  Carries (fun _ s => opCode c op s = some full) (fun _ => True) (fun _ => True) code

theorem CodeStays.of_keeps {c : Requester} {op : Op} {full code : Code}
    (h : ∀ pm ∈ code, ∀ s, opCode c op (pm.2.act s).1 = opCode c op s) : CodeStays c op full code :=
  .uniform (fun _ _ _ => Iff.rfl) (fun pm hpm s hs => (h pm hpm s).trans hs) (fun _ _ => trivial) fun _ _ => trivial

/-- The last micro-step has nothing to leave. -/
theorem CodeStays.append_last {c : Requester} {op : Op} {full code : Code}
    (h : ∀ pm ∈ code, ∀ s, opCode c op (pm.2.act s).1 = opCode c op s) (last : Pos × Micro) :
    CodeStays c op full (code ++ [last]) :=
  .append (.uniform (fun _ _ _ => Iff.rfl) (fun pm hpm s hs => (h pm hpm s).trans hs) (fun _ => id) fun _ _ => trivial)
    ⟨fun _ _ => ⟨fun _ => trivial, fun _ => trivial⟩, trivial⟩

theorem opCode_act_of_isBody {m : Micro} (hm : m.isBody = true) (c : Requester) (op : Op) (s : State) :
    opCode c op (m.act s).1 = opCode c op s :=
  (Micro.act_keepsCells hm s).opCode c op

theorem opCode_act_acq (c c' : Requester) (op : Op) (s : State) :
    opCode c op ((Micro.acq c').act s).1 = opCode c op s := by
  simp only [Micro.act, lockAcquire]
  split <;> exact opCode_congr c op rfl rfl rfl rfl

/-- Each micro-step of an operation but the last leaves its micro-steps what they are (20_memory.md R68 (a)). -/
theorem codeStays {c : Requester} {op : Op} {s₀ : State} {code : Code} (hcode : opCode c op s₀ = some code) :
    CodeStays c op code code := by
  have hcfg : (∀ s t : State, t.cfg = s.cfg → opCode c op t = opCode c op s) → CodeStays c op code code := fun h =>
    .of_keeps fun pm _ s => let ⟨_, hf, _⟩ := pm.2.act_follows s; h s _ hf.cfg
  rcases op.kinds with hop | ⟨g, m, pm, rfl⟩ | ⟨x, rfl⟩
  · rcases opCode_onHandle hop hcode with ⟨body, hbody, hshape⟩ | ⟨x, y, -, -, hshape⟩
    · have hbegin : ∀ pm ∈ plain .acq (.acq c) :: body, ∀ s, opCode c op (pm.2.act s).1 = opCode c op s :=
        List.forall_mem_cons.mpr ⟨opCode_act_acq c c op, fun pm hpm => opCode_act_of_isBody (hbody pm hpm).2 c op⟩
      have h := CodeStays.append_last (full := code) hbegin (plain .rel (.release c))
      rwa [List.cons_append, ← hshape] at h
    · have hbegin : ∀ pm ∈ [plain .acq (.acq c)], ∀ s, opCode c op (pm.2.act s).1 = opCode c op s :=
        List.forall_mem_singleton.mpr (opCode_act_acq c c op)
      have h := CodeStays.append_last (full := code) hbegin (plain .check (.rangeCheck x y))
      rwa [List.singleton_append, ← hshape] at h
  · exact hcfg fun s t h => by simp only [opCode, h]
  · exact hcfg fun s t h => by simp only [opCode, h]

/-! ### The steps of an operation -/

theorem run_succ {s t : State} (h : step s = .next t) (k : Nat) :
    Sys2Proof.core.run (k + 1) s = Sys2Proof.core.run k t := by
  have hstep : Sys2Proof.core.step s = .next t := h
  simp only [Host.Core.run, hstep]

/-- With nothing pending, the operation at a position goes on with exactly what is left of it there. -/
theorem step_placed {c : Requester} {op : Op} {pos : Pos} {m : Micro} {pre rest : Code} {s : State}
    (hd : Distinct (pre ++ (pos, m) :: rest)) (hcode : opCode c op s = some (pre ++ (pos, m) :: rest))
    (hpos : ∀ f, pos.phase ≠ .abort f) (hp : s.pending = []) :
    step (s.placed (.busy c op pos) .micro)
      = .next (runOp c op ((pos, m) :: rest) (s.placed (.busy c op pos) .micro)) := by
  have hw : waiters (s.placed (.busy c op pos) .micro).seq [c] (s.placed (.busy c op pos) .micro).pending = [] := by
    simp [State.placed, hp, waiters]
  have hcode' : opCode c op (s.placed (.busy c op pos) .micro) = some (pre ++ (pos, m) :: rest) :=
    (opCode_congr (s := s) c op rfl rfl rfl rfl).trans hcode
  rw [step_goesOn (s := s.placed (.busy c op pos) .micro) rfl hw hpos hcode' hd.codeFrom, runOp_micro_cons rfl]
  rfl

theorem step_abort_placed {c : Requester} {op : Op} {f : Cause} {s : State} (hp : s.pending = []) :
    step (s.placed (.busy c op (Pos.plain (.abort f))) .micro) = .next ((abortOp c op f s).placed .idle .micro) := by
  rw [step_aborts (s := s.placed (.busy c op (Pos.plain (.abort f))) .micro) rfl (by simp [State.placed, hp, waiters])
    rfl]
  exact congrArg _ (abortOp_placed c op f s _ .micro)

theorem runOp_whole_cons (c : Requester) (op : Op) (pos : Pos) (m : Micro) (rest : Code) (s : State) (q : Seq) :
    runOp c op ((pos, m) :: rest) (s.placed q .whole)
      = match m.act s with
        | (t, some f) => (abortOp c op (f.seenFrom pos.phase) t).placed .idle .whole
        | (t, none) => runOp c op rest (t.placed q .whole) := by
  show settleRun .whole c op (runCode .whole ((pos, m) :: rest) (s.placed q .whole)) = _
  rw [runCode_whole_cons, Micro.act_placed]
  rcases m.act s with ⟨t, _ | f⟩
  · rfl
  · exact abortOp_placed ..

theorem runOp_micro_cons_placed (c : Requester) (op : Op) (pos : Pos) (m : Micro) (rest : Code) (s : State) (q : Seq) :
    runOp c op ((pos, m) :: rest) (s.placed q .micro)
      = afterMicro c op pos rest ((m.act s).1.placed q .micro, (m.act s).2) := by
  rw [runOp_micro_cons rfl, Micro.act_placed]

/-- From any of its micro-steps on, an operation taken whole comes to the state to which its steps lead, whatever the
sequencer held when it was presented. -/
theorem run_of_whole {c : Requester} {op : Op} {full : Code} (hd : Distinct full)
    (habort : ∀ pm ∈ full, ∀ f, pm.1.phase ≠ .abort f) {pre code : Code} {s : State} (hfull : full = pre ++ code)
    (hne : code ≠ []) (hp : s.pending = []) (hs : opCode c op s = some full) (hc : CodeStays c op full code)
    (q q' : Seq) :
    ∃ k, Sys2Proof.core.run k (runOp c op code (s.placed q .micro))
      = .next { runOp c op code (s.placed q' .whole) with grain := .micro } := by
  induction code generalizing pre s q with
  | nil => exact absurd rfl hne
  | cons x rest ih =>
    obtain ⟨pos, m⟩ := x
    obtain ⟨hstays, hrest⟩ := hc
    have hpending : (m.act s).1.pending = [] := let ⟨_, _, h, _⟩ := m.act_follows s; h.trans hp
    have hcode := (hstays s hs).1
    rw [runOp_micro_cons_placed, runOp_whole_cons]
    rcases hact : m.act s with ⟨t, _ | f⟩ <;> rw [hact] at hpending hcode
    · cases rest with
      | nil =>
        refine ⟨0, congrArg Host.Outcome.next ?_⟩
        show finishOp op (t.placed q .micro) = { finishOp op (t.placed q' .whole) with grain := .micro }
        rw [finishOp_placed, finishOp_placed]
        rfl
      | cons y rest =>
        obtain ⟨p, m'⟩ := y
        have hmem : (p, m') ∈ full := by simp [hfull]
        have hsplit : full = (pre ++ [(pos, m)]) ++ (p, m') :: rest := by simp [hfull]
        obtain ⟨k, hk⟩ := ih hsplit (by simp) hpending (hcode rfl) hrest (.busy c op p)
        refine ⟨k + 1, ?_⟩
        have hstep := step_placed (hsplit ▸ hd) (hsplit ▸ hcode rfl) (habort _ hmem) hpending
        exact (run_succ hstep k).trans hk
    · exact ⟨1, run_succ (step_abort_placed hpending) 0⟩

/-! ### The steps of an instruction -/

/-- With no operation in progress and one request pending, its requester is the one agent, and nothing is drawn. -/
theorem nextTurn_of_one_request {s : State} {r : Request} (hseq : s.seq = .idle) (hp : s.pending = [r]) :
    nextTurn s = (.serve r, { s with pending := [], cur := r }) := by
  have hagents : agents s = [r.requester] := by simp [agents, hseq, hp, waiters, mayServe]
  simp [nextTurn, chooseAgent, hagents, hseq, hp, Seq.isOf, takeRequest]

theorem step_of_one_request {s : State} {r : Request} (hseq : s.seq = .idle) (hp : s.pending = [r]) :
    step s = serveRequest r { s with grain := .micro, pending := [], cur := r } := by
  rw [step, nextTurn_of_one_request (s := { s with grain := .micro }) hseq hp]

theorem opCode_ne_nil {c : Requester} {op : Op} {s : State} {code : Code} (h : opCode c op s = some code) :
    code ≠ [] := by
  rcases op.kinds with hop | ⟨g, m, pm, rfl⟩ | ⟨x, rfl⟩
  · rcases opCode_onHandle hop h with ⟨body, -, rfl⟩ | ⟨x, y, -, -, rfl⟩ <;> exact List.cons_ne_nil _ _
  · obtain rfl := Option.some.inj h
    exact List.cons_ne_nil _ _
  · obtain rfl := Option.some.inj h
    cases x <;> exact List.cons_ne_nil _ _

/-- What is presented comes, by steps, to what it comes to when it is taken whole. -/
theorem Presented.run_of_whole {s u v : State} {o : Grain → Host.Outcome State Fault Refusal} (h : Presented s o)
    (hp : s.pending = []) (hu : o .whole = .next u) (hv : step v = o .micro) :
    ∃ k, Sys2Proof.core.run (k + 1) v = .next { u with grain := .micro } := by
  cases h with
  | refusedErr c => cases hu; exact ⟨0, run_succ hv 0⟩
  | refusedNull c => cases hu; exact ⟨0, run_succ hv 0⟩
  | waits => cases hu; exact ⟨0, run_succ hv 0⟩
  | faulty _ => cases hu
  | refused _ => cases hu
  | begins op code hidle hmay hcode =>
    cases hu
    obtain ⟨k, hk⟩ := Machine.run_of_whole (s := { s with text := opText op s }) (hmay.distinct hcode)
      (hmay.ne_abort hcode) (List.nil_append code).symm (opCode_ne_nil hcode) hp hcode (codeStays hcode) s.seq s.seq
    exact ⟨k, (run_succ hv k).trans hk⟩

/-- Settles O14: presented whole or by its first micro-step, an instruction comes to the same; and an operation that
begins is brought by its steps to where it is taken whole. -/
theorem stepsComeToTheWholeEffect : Obligations.StepsComeToTheWholeEffect := by
  unfold Obligations.StepsComeToTheWholeEffect
  intro s u r i hseq hp hdecode hexec
  have hstep : step s = exec i { s with pending := [], cur := r, grain := .micro } := by
    rw [step_of_one_request hseq hp, serveRequest, hdecode]
  exact (exec_presented i { s with pending := [], cur := r }).run_of_whole rfl hexec hstep

end Sys2Proof.Machine
end

section
/-! Which operation an instruction begins: one that its request was admitted for, and what that leaves of the request
port. -/

namespace Sys2Proof.Machine

/-- What an operation that begins was admitted by: INIT by its pin map (92_eei_decisions.md D22), a level 1 operation on
its own by the sequencer's flag (30_encoding.md R79; log 11). -/
def Admits (s : State) : Op → Prop
  | .init _ _ pm => pinMapAccepted s.otherPins pm = true
  | .level1 _ => s.cur.internal = true
  | _ => True

/-- The sequencer is as it was, idle, or busy with an operation that was admitted. -/
def BeginsAdmitted (s t : State) : Prop :=
  t.seq = s.seq ∨ t.seq = .idle ∨ ∃ c op q, t.seq = .busy c op q ∧ Admits s op

/-- A run leaves the engine idle or in the operation it ran. -/
theorem runOp_seq (c : Requester) (op : Op) (code : Code) (s : State) :
    (runOp c op code s).seq = .idle ∨ ∃ q, (runOp c op code s).seq = .busy c op q := by
  rw [runOp]
  rcases runCode s.grain code s with ⟨t, _ | q | ⟨pos, f⟩⟩
  · obtain ⟨-, -, hidle⟩ := finishOp_follows op t
    exact .inl hidle
  · exact .inr ⟨q, rfl⟩
  · cases s.grain with
    | micro => exact .inr ⟨_, rfl⟩
    | whole => exact .inl (abortOp_port c op _ t).1

theorem runOp_beginsAdmitted {c : Requester} {op : Op} {code : Code} {s s' t : State} (hop : Admits s op)
    (h : Host.Outcome.next (runOp c op code s') = (.next t : Host.Outcome State Fault Refusal)) :
    BeginsAdmitted s t := by
  cases h
  exact .inr ((runOp_seq c op code s').imp_right fun ⟨q, hq⟩ => ⟨c, op, q, hq, hop⟩)

theorem internalOp_beginsAdmitted {x : Level1} {s t : State} (h : internalOp x s = .next t) : BeginsAdmitted s t := by
  unfold internalOp at h
  split at h
  · cases h
    exact .inl rfl
  · next hi =>
    split at h
    · cases h
      exact .inl rfl
    · exact runOp_beginsAdmitted (op := .level1 x) (Bool.eq_true_of_not_eq_false hi) h

theorem publicOp_beginsAdmitted {op : Op} (hop : op.onHandle = true) {s t : State} (h : publicOp op s = .next t) :
    BeginsAdmitted s t := by
  have hadmits : Admits s op := by
    cases op with
    | init g m pm => cases hop
    | level1 x => cases hop
    | _ => trivial
  unfold publicOp at h
  split at h
  · cases h
    exact .inl rfl
  · split at h
    · cases h
    · split at h
      · cases h
        exact .inl rfl
      · split at h
        · exact runOp_beginsAdmitted hadmits h
        · cases h

theorem execInit_beginsAdmitted {g m : Byte} {s t : State} (h : execInit g m s = .next t) : BeginsAdmitted s t := by
  unfold execInit at h
  split at h
  · cases h
    exact .inl rfl
  · split at h
    · cases h
      exact .inl rfl
    · split at h
      · cases h
      · split at h
        · cases h
        · next hpins =>
          split at h
          · cases h
            exact .inl rfl
          · exact runOp_beginsAdmitted (op := .init g m s.cur.pinMap) (Bool.eq_true_of_not_eq_false hpins) h

theorem execGotoxy_beginsAdmitted {x y : Byte} {s t : State} (h : execGotoxy x y s = .next t) :
    BeginsAdmitted s t := by
  unfold execGotoxy at h
  split at h
  · split at h
    · cases h
    · cases h
    · exact publicOp_beginsAdmitted rfl h
    · exact publicOp_beginsAdmitted rfl h
  · exact publicOp_beginsAdmitted rfl h

theorem execWriteString_beginsAdmitted {s t : State} (h : execWriteString s = .next t) : BeginsAdmitted s t := by
  have hseq : (withText s).seq = s.seq := by
    unfold withText
    split <;> rfl
  unfold execWriteString at h
  split at h
  · cases h
  · rcases publicOp_beginsAdmitted rfl h with hkept | hidle | ⟨c, op, q, hbusy, hop⟩
    · exact .inl (hkept.trans hseq)
    · exact .inr (.inl hidle)
    · refine .inr (.inr ⟨c, op, q, hbusy, ?_⟩)
      unfold withText at hop
      split at hop <;> cases op <;> exact hop

/-- An instruction begins no operation but one that was admitted. -/
theorem exec_beginsAdmitted {i : Instr} {s t : State} (h : exec i s = .next t) : BeginsAdmitted s t := by
  cases i with
  | init g m => exact execInit_beginsAdmitted h
  | clear => exact publicOp_beginsAdmitted rfl h
  | home => exact publicOp_beginsAdmitted rfl h
  | gotoxy x y => exact execGotoxy_beginsAdmitted h
  | writeString => exact execWriteString_beginsAdmitted h
  | _ => exact internalOp_beginsAdmitted h

theorem serveRequest_beginsAdmitted {r : Request} {s t : State} (h : serveRequest r s = .next t) :
    BeginsAdmitted s t := by
  unfold serveRequest at h
  split at h
  · exact exec_beginsAdmitted h
  · cases h
    exact .inl rfl

/-! ### What goes on, and what begins -/

/-- An operation that goes on makes its abort, or the micro-steps left from its position. -/
theorem resumeOp_next {c : Requester} {op : Op} {pos : Pos} {s t : State} (h : resumeOp c op pos s = .next t) :
    (∃ f, pos.phase = .abort f ∧ t = abortOp c op f s)
      ∨ (∀ f, pos.phase ≠ .abort f) ∧ ∃ code, opCode c op s = some code ∧ t = runOp c op (codeFrom pos code) s := by
  by_cases hpos : ∃ f, pos.phase = .abort f
  · obtain ⟨f, hf⟩ := hpos
    rw [resumeOp_of_abort hf] at h
    cases h
    exact .inl ⟨f, hf, rfl⟩
  · have hne : ∀ f, pos.phase ≠ .abort f := fun f hf => hpos ⟨f, hf⟩
    rw [resumeOp_of_ne_abort hne] at h
    split at h
    · next code hcode =>
      cases h
      exact .inr ⟨hne, code, hcode, rfl⟩
    · cases h

/-- The micro-step at the position of an operation in progress is the first of what is left of it. -/
theorem Inv.codeFrom_eq_cons {c : Requester} {op : Op} {pos : Pos} {s : State} {code : Code} (h : Inv s)
    (hseq : s.seq = .busy c op pos) (hpos : ∀ f, pos.phase ≠ .abort f) (hcode : opCode c op s = some code) :
    ∃ m rest, codeFrom pos code = (pos, m) :: rest ∧ (pos, m) ∈ code := by
  obtain ⟨m, rest, hfrom, -⟩ := codeFrom_mem ((h.posOk hseq).mem hpos hcode)
  exact ⟨m, rest, hfrom, codeFrom_subset pos code (hfrom ▸ List.mem_cons_self ..)⟩

/-- An operation that begins has more than one micro-step, and its first is no allocation. -/
theorem MayBegin.two_micros {c : Requester} {op : Op} {s : State} {code : Code} (hmay : MayBegin op s)
    (hcode : opCode c op { s with text := opText op s } = some code) :
    ∃ p m q m' rest, code = (p, m) :: (q, m') :: rest ∧ ∀ g md pm, m ≠ .alloc g md pm := by
  rcases op.kinds with hop | ⟨g, m, pm, rfl⟩ | ⟨x, rfl⟩
  · rcases opCode_onHandle hop hcode with ⟨body, -, rfl⟩ | ⟨x, y, -, -, rfl⟩
    · cases body <;> exact ⟨_, _, _, _, _, rfl, nofun⟩
    · exact ⟨_, _, _, _, _, rfl, nofun⟩
  · obtain ⟨-, -, rfl⟩ := hmay
    obtain rfl := Option.some.inj hcode
    exact ⟨_, _, _, _, _, rfl, nofun⟩
  · obtain rfl := Option.some.inj hcode
    cases x <;> exact ⟨_, _, _, _, _, rfl, nofun⟩

/-- After its first micro-step an operation that begins is in progress. -/
theorem MayBegin.busy {c : Requester} {op : Op} {s s' : State} {code : Code} (hmay : MayBegin op s)
    (hcode : opCode c op { s with text := opText op s } = some code) (hg : s'.grain = .micro) :
    ∃ q, (runOp c op code s').seq = .busy c op q := by
  obtain ⟨p, m, q, m', rest, rfl, -⟩ := hmay.two_micros hcode
  rw [runOp_micro_cons hg]
  rcases m.act s' with ⟨t, _ | f⟩ <;> exact ⟨_, rfl⟩

/-- What begins at an idle engine, by one micro-step, was admitted. -/
theorem MayBegin.admits {op : Op} {code : Code} {s : State} (hmay : MayBegin op s) (hidle : s.seq = .idle)
    (hcode : opCode s.cur.requester op { s with text := opText op s } = some code)
    (hb : BeginsAdmitted s (runOp s.cur.requester op code { s with grain := .micro, text := opText op s })) :
    Admits s op := by
  obtain ⟨q, hq⟩ := hmay.busy (s' := { s with grain := .micro, text := opText op s }) hcode rfl
  rw [BeginsAdmitted, hq, hidle] at hb
  rcases hb with h | h | ⟨c, op', q', h, hop⟩
  · cases h
  · cases h
  · cases h
    exact hop

end Sys2Proof.Machine
end

section
/-! The lock's order (20_memory.md R65): which events a micro-step, an abort and a presented request append, and that
the order goes on through them. -/

namespace Sys2Proof.Machine

/-! ### Events in the lock's order -/

theorem guardAll_append {g g' : Guard} {a : List Event} (b : List Event) (h : guardAll g a = some g') :
    guardAll g (a ++ b) = guardAll g' b := by
  induction a generalizing g with
  | nil =>
    cases h
    rfl
  | cons e a ih =>
    rw [guardAll] at h
    rw [List.cons_append, guardAll]
    split at h
    · next g₁ he =>
      simpa only [he] using ih h
    · cases h

/-- The events appended go on with the order from the lock as it was to the lock as it is. -/
def Ordered (s t : State) : Prop :=
  ∃ evs, t.trace = s.trace ++ evs ∧ guardAll (.lock s.lock) evs = some (.lock t.lock)

theorem Ordered.serialised {s t : State} (h : Ordered s t) (hs : Serialised s) : Serialised t := by
  obtain ⟨evs, ht, hg⟩ := h
  rw [Serialised, ht, guardAll_append evs hs, hg]

theorem Ordered.of_nothing {s t : State} (trace : t.trace = s.trace) (lock : t.lock = s.lock) : Ordered s t :=
  ⟨[], by rw [trace, List.append_nil], by rw [guardAll, lock]⟩

theorem Ordered.of_one {s t : State} {e : Event} (trace : t.trace = s.trace ++ [e])
    (hg : guardStep (.lock s.lock) e = some (.lock t.lock)) : Ordered s t :=
  ⟨[e], trace, by simp only [guardAll, hg]⟩

/-- The holder's release with its result (43_public_operations.md R120). -/
theorem Ordered.of_release {s t : State} {c : Requester} {r : Result} (hs : s.lock = .held c)
    (trace : t.trace = s.trace ++ [.rel c, .ret c r]) (ht : t.lock = .free) : Ordered s t :=
  ⟨_, trace, by simp [guardAll, guardStep, hs, ht]⟩

/-! ### Micro-steps -/

/-- The micro-steps that keep the order with the lock as given (20_memory.md R63). -/
def Micro.InOrder (l : Lock) : Micro → Prop
  | .modeCheck _ => True
  | .bind => True
  | .rangeCheck _ _ => True
  | .alloc _ _ _ => l = .absent
  | .cfg _ => l = .absent
  | .mkLock => l = .absent
  | .set _ _ => l ≠ .free
  | .sleep _ => l ≠ .free
  | .acq _ => l ≠ .absent
  | .fetch _ => ∃ c, l = .held c
  | .release c => l = .held c
  | .done _ => l = .free

theorem Micro.InOrder.of_isPin {m : Micro} (h : m.isPin = true) : m.InOrder .absent := by
  cases m with
  | cfg p => rfl
  | set p v => exact Lock.noConfusion
  | sleep t => exact Lock.noConfusion
  | _ => cases h

/-- What acts on the pins or waits is in order wherever the lock is not free. -/
theorem guardStep_of_ne_free {l : Lock} {e : Event} (h : l ≠ .free)
    (he : (∃ p v ok, e = .set p v ok) ∨ ∃ t, e = .wait t) : guardStep (.lock l) e = some (.lock l) := by
  cases l with
  | free => exact absurd rfl h
  | _ => rcases he with ⟨p, v, ok, rfl⟩ | ⟨t, rfl⟩ <;> rfl

/-- A micro-step in the lock's order goes on with it. -/
theorem Micro.act_ordered {m : Micro} {s : State} (hm : m.InOrder s.lock) : Ordered s (m.act s).1 := by
  cases m with
  | modeCheck code => exact .of_nothing rfl rfl
  | bind => exact .of_nothing rfl rfl
  | rangeCheck x y => exact .of_nothing rfl rfl
  | cfg p =>
    replace hm : s.lock = .absent := hm
    obtain ⟨b, he, -⟩ := gpioCfg_spec p s
    exact .of_one he.trace (by rw [Micro.act, he.lock, hm]; rfl)
  | set p v =>
    obtain ⟨b, he, -⟩ := gpioSet_spec p v s
    exact .of_one he.trace (by rw [Micro.act, he.lock]; exact guardStep_of_ne_free hm (.inl ⟨p, v, b, rfl⟩))
  | sleep t => exact .of_one (sleepFor_spec t s).trace (guardStep_of_ne_free hm (.inr ⟨t, rfl⟩))
  | alloc g md pm =>
    replace hm : s.lock = .absent := hm
    obtain ⟨b, t, he, hf, -, -, -, hlock, -⟩ := allocHandle_spec g md pm s
    rw [Micro.act, he]
    exact .of_one hf.trace (by rw [hlock, hm]; rfl)
  | mkLock =>
    replace hm : s.lock = .absent := hm
    simp only [Micro.act, makeLock]
    split
    · exact .of_one (e := .mkLock) rfl (by rw [hm]; rfl)
    · exact .of_nothing rfl rfl
  | done c =>
    replace hm : s.lock = .free := hm
    exact .of_one (publishHandle_trace c s) (by rw [Micro.act, publishHandle_lock, hm]; rfl)
  | acq c =>
    simp only [Micro.act, lockAcquire]
    split
    · next hl => exact .of_one (e := .acq c) rfl (by rw [hl]; rfl)
    · exact .of_nothing rfl rfl
  | fetch i =>
    obtain ⟨c, hm⟩ := hm
    simp only [Micro.act, textRead]
    split
    · next b _ => exact .of_one (e := .rd i b) rfl (by rw [State.tick_lock, State.log_lock, hm]; rfl)
    · exact .of_nothing rfl rfl
  | release c =>
    replace hm : s.lock = .held c := hm
    have hrel := (releaseOk_follows c s).trace
    rw [releaseEvents, if_pos hm] at hrel
    exact .of_release hm hrel (by simp [Micro.act, releaseOk, lockRelease, hm])

/-- What is left of an operation when a micro-step has been made shows what that one showed. -/
theorem Ordered.afterMicro {s : State} {r : State × Raised} (h : Ordered s r.1) (c : Requester) (op : Op) (pos : Pos)
    (rest : Code) : Ordered s (afterMicro c op pos rest r) := by
  obtain ⟨evs, ht, hg⟩ := h
  refine ⟨evs, (afterMicro_trace c op pos rest r).1.trans ht, hg.trans ?_⟩
  rcases r with ⟨t, _ | f⟩
  · cases rest with
    | nil => cases op <;> rfl
    | cons x rest => rfl
  · rfl

theorem runOp_ordered {s : State} (hg : s.grain = .micro) (c : Requester) (op : Op) {pos : Pos} {m : Micro}
    (rest : Code) (hm : m.InOrder s.lock) : Ordered s (runOp c op ((pos, m) :: rest) s) := by
  rw [runOp_micro_cons hg]
  exact (Micro.act_ordered hm).afterMicro c op pos rest

/-! ### The micro-steps of the operations -/

/-- Every micro-step of a piece of code keeps the order with the lock as given. -/
def InOrder (l : Lock) (code : Code) : Prop := ∀ pm ∈ code, pm.2.InOrder l

theorem InOrder.nil (l : Lock) : InOrder l [] := List.forall_mem_nil _

theorem InOrder.cons {l : Lock} {pm : Pos × Micro} {code : Code} (hm : pm.2.InOrder l)
    (h : InOrder l code) : InOrder l (pm :: code) :=
  List.forall_mem_cons.2 ⟨hm, h⟩

theorem InOrder.append {l : Lock} {a b : Code} (ha : InOrder l a) (hb : InOrder l b) : InOrder l (a ++ b) :=
  List.forall_mem_append.2 ⟨ha, hb⟩

theorem sendByte_inOrder (c : Requester) (t : Nat) (ph : Phase) (rs : Bool) (v : Byte) :
    InOrder (.held c) (sendByte t ph rs v) := by
  simp [InOrder, sendByte, numberFrom, nibbleCode, Micro.InOrder]

theorem stringCode_inOrder (c : Requester) (cfg : Config) (d : DispatchTable) (m : Memory) :
    InOrder (.held c) (stringCode cfg d m) := by
  induction m with
  | nil => exact .nil _
  | cons x m ih =>
    obtain ⟨i, b⟩ := x
    refine .cons ⟨c, rfl⟩ ?_
    split
    · exact .nil _
    · exact (sendByte_inOrder c _ _ _ _).append ih

theorem commandCode_inOrder (cfg : Config) (c : Requester) (d : DispatchTable) (v : Byte) :
    InOrder (.held c) (commandCode cfg c d v) :=
  (InOrder.cons (pm := plain .acq (.acq c)) Lock.noConfusion (sendByte_inOrder c _ _ _ _)).append
    (.cons Lock.noConfusion (.cons rfl (.nil _)))

theorem gotoxyCode_inOrder (cfg : Config) (c : Requester) (d : DispatchTable) (config : Option DisplayConfig)
    (x y : Byte) : InOrder (.held c) (gotoxyCode cfg c d config x y) := by
  refine .cons Lock.noConfusion (.cons trivial ?_)
  split
  · exact (sendByte_inOrder c _ _ _ _).append (.cons rfl (.nil _))
  · exact .nil _

theorem writeStringCode_inOrder (cfg : Config) (c : Requester) (d : DispatchTable) (text : Memory) :
    InOrder (.held c) (writeStringCode cfg c d text) :=
  (InOrder.cons (pm := plain .acq (.acq c)) Lock.noConfusion (stringCode_inOrder c cfg d text)).append
    (.cons rfl (.nil _))

/-- An operation on a handle acts on the pins, waits and reads its text, all with its lock held
(43_public_operations.md R120). -/
theorem opCode_inOrder {c : Requester} {op : Op} (hop : op.onHandle = true) {s : State} {code : Code}
    (h : opCode c op s = some code) : InOrder (.held c) code := by
  cases op with
  | init g m pm => cases hop
  | level1 x => cases hop
  | clear =>
    obtain ⟨d, -, rfl⟩ := Option.map_eq_some_iff.mp h
    exact commandCode_inOrder _ _ _ _
  | home =>
    obtain ⟨d, -, rfl⟩ := Option.map_eq_some_iff.mp h
    exact commandCode_inOrder _ _ _ _
  | gotoxy x y =>
    obtain ⟨d, -, rfl⟩ := Option.map_eq_some_iff.mp h
    exact gotoxyCode_inOrder _ _ _ _ _ _
  | writeString =>
    obtain ⟨d, -, rfl⟩ := Option.map_eq_some_iff.mp h
    exact writeStringCode_inOrder _ _ _ _

theorem initBody_inOrder (cfg : Config) : InOrder .absent (initBody cfg) :=
  fun pm hpm => .of_isPin (List.all_eq_true.mp (rfl : allPin (initBody cfg) = true) pm hpm)

theorem lock_of_none {s : State} (h : HandleInv s) (hn : s.handle = .none) : s.lock = .absent := by
  simp only [HandleInv, hn] at h
  obtain ⟨-, -, -, hlock⟩ := h
  exact hlock

/-- INIT makes each of its micro-steps with the lock not there yet, and the last with it free
(42_init_sequence.md R110). -/
theorem InInit.inOrder {cfg : Config} {c : Requester} {g : Byte} {pm : PinMap} {pos : Pos} {m : Micro} {s : State}
    (h : InInit cfg pos s) (hm : (pos, m) ∈ initCode cfg c g 0x00#8 pm) : m.InOrder s.lock := by
  have hat := h.built
  rw [initCode_bit4] at hm
  simp only [List.mem_cons, List.mem_append, List.not_mem_nil, or_false, plain, Prod.mk.injEq] at hm
  rcases hm with ⟨-, rfl⟩ | ⟨rfl, rfl⟩ | ⟨-, rfl⟩ | hbody | ⟨rfl, rfl⟩ | ⟨rfl, rfl⟩
  · trivial
  · exact lock_of_none h.handle hat
  · trivial
  · obtain ⟨-, -, hlock⟩ := (initAt_of_inInit (initBody_isBody cfg _ hbody).1 s).mp hat
    rw [hlock]
    exact initBody_inOrder cfg _ hbody
  · obtain ⟨-, -, hlock⟩ := hat
    exact hlock
  · obtain ⟨-, -, hlock⟩ := hat
    exact hlock

/-! ### The operation in progress goes on -/

theorem goesOn_ordered {c : Requester} {op : Op} {pos : Pos} {s : State} {code : Code} (h : Inv s)
    (hg : s.grain = .micro) (hseq : s.seq = .busy c op pos) (hno : ∀ x, op ≠ .level1 x)
    (hpos : ∀ f, pos.phase ≠ .abort f) (hcode : opCode c op s = some code) :
    Ordered s (runOp c op (codeFrom pos code) s) := by
  obtain ⟨m, rest, hfrom, hm⟩ := h.codeFrom_eq_cons hseq hpos hcode
  rw [hfrom]
  refine runOp_ordered hg c op rest ?_
  rcases op.kinds with hop | ⟨g, m', pm, rfl⟩ | ⟨x, rfl⟩
  · rw [(h.inLock hop hseq hcode).1.lock]
    exact opCode_inOrder hop hcode _ hm
  · obtain ⟨hi, rfl, -⟩ := h.inInit hseq
    obtain rfl := Option.some.inj hcode
    exact hi.inOrder hm
  · exact absurd rfl (hno x)

/-- An abort gives the lock back with its result, or ends INIT with none (60_exceptions.md R146). -/
theorem abortOp_ordered {c : Requester} {op : Op} {pos : Pos} {f : Cause} {s : State} (h : Inv s)
    (hr : s.cfg.lockReleaseOnError = true) (hseq : s.seq = .busy c op pos) (hno : ∀ x, op ≠ .level1 x)
    (hpos : pos.phase = .abort f) : Ordered s (abortOp c op f s) := by
  have htrace := (abortOp_follows c op f s).trace
  rcases op.kinds with hop | ⟨g, m, pm, rfl⟩ | ⟨x, rfl⟩
  · obtain ⟨-, hl, -⟩ := (seqInv_onHandle hop hseq).mp h.2.1
    cases op with
    | init g m pm => cases hop
    | level1 x => cases hop
    | _ =>
      simp only [abortEvents, releaseEvents, hr, hl, if_true] at htrace
      exact .of_release hl htrace (by simp [abortOp, unwind, retFailure, hr, hl, lockRelease])
  · obtain ⟨hi, -⟩ := h.inInit hseq
    have hbuilt := hi.built
    simp only [InitAt, hpos] at hbuilt
    have hl : s.lock = .absent := hbuilt.elim (lock_of_none h.1) And.right
    refine ⟨_, htrace, ?_⟩
    by_cases hb : s.handle = .building <;>
      simp [abortEvents, guardAll, guardStep, hl, hb, abortOp, unwind, retFailure, teardown]
  · exact absurd rfl (hno x)

theorem resumeOp_ordered {c : Requester} {op : Op} {pos : Pos} {s t : State} (h : Inv s) (hg : s.grain = .micro)
    (hr : s.cfg.lockReleaseOnError = true) (hseq : s.seq = .busy c op pos) (hno : ∀ x, op ≠ .level1 x)
    (hstep : resumeOp c op pos s = .next t) : Ordered s t := by
  rcases resumeOp_next hstep with ⟨f, hpos, rfl⟩ | ⟨hpos, code, hcode, rfl⟩
  · exact abortOp_ordered h hr hseq hno hpos
  · exact goesOn_ordered h hg hseq hno hpos hcode

/-! ### A request is served -/

/-- While INIT is in progress no one holds the lock (42_init_sequence.md R110). -/
theorem InInit.lock {cfg : Config} {pos : Pos} {s : State} (h : InInit cfg pos s) :
    s.lock = .absent ∨ s.lock = .free := by
  have hat := h.built
  by_cases hin : pos.phase.inInit = true
  · obtain ⟨-, -, hlock⟩ := (initAt_of_inInit hin s).mp hat
    exact .inl hlock
  unfold InitAt at hat
  cases hp : pos.phase <;> simp only [hp] at hat hin
  case check => exact .inl (lock_of_none h.handle hat)
  case alloc => exact .inl (lock_of_none h.handle hat)
  case bind =>
    obtain ⟨-, hlock⟩ := hat
    exact .inl hlock
  case mkLock =>
    obtain ⟨-, -, hlock⟩ := hat
    exact .inl hlock
  case done =>
    obtain ⟨-, -, hlock⟩ := hat
    exact .inr hlock
  case abort => exact .inl (hat.elim (lock_of_none h.handle) And.right)
  all_goals exact absurd rfl hin

/-- A request is served only while no one holds the lock: with the engine idle, or beside INIT (20_memory.md R65). -/
theorem Inv.lock_of_mayServe {s : State} {r : Request} (h : Inv s) (hr : s.cfg.lockReleaseOnError = true)
    (hmay : mayServe s.seq r = true) : s.lock = .absent ∨ s.lock = .free := by
  cases hseq : s.seq with
  | idle => exact (atRest_iff_idleInv.mpr (h.of_keepsCells ⟨rfl, rfl, rfl, rfl, rfl, rfl, rfl, id⟩ hseq.symm)).lock hr
  | busy c op pos =>
    rw [hseq] at hmay
    cases op with
    | init g m pm => exact (h.inInit hseq).1.lock
    | _ => cases hmay

/-- A refusal shows its RET alone, and keeps the order where no one holds the lock. -/
theorem Ordered.of_ret {s t : State} {c : Requester} {r : Result} (hl : s.lock = .absent ∨ s.lock = .free)
    (trace : t.trace = s.trace ++ [.ret c r]) (lock : t.lock = s.lock) : Ordered s t :=
  .of_one trace (by rcases hl with h | h <;> rw [lock, h] <;> rfl)

theorem begins_ordered {op : Op} {code : Code} {s : State} (hmay : MayBegin op s)
    (hno : ∀ x, op ≠ .level1 x)
    (hcode : opCode s.cur.requester op { s with text := opText op s } = some code) :
    Ordered s (runOp s.cur.requester op code { s with grain := .micro, text := opText op s }) := by
  have hfirst : ∃ pos m rest, code = (pos, m) :: rest ∧ m.InOrder s.lock := by
    rcases op.kinds with hop | ⟨g, m, pm, rfl⟩ | ⟨x, rfl⟩
    · have hl : s.lock = .free := by
        cases op with
        | init g m pm => cases hop
        | level1 x => cases hop
        | _ =>
          obtain ⟨-, hfree⟩ := hmay
          exact hfree
      have hacq : ∀ c, (Micro.acq c).InOrder s.lock := fun c => by simp [Micro.InOrder, hl]
      rcases opCode_onHandle hop hcode with ⟨body, -, rfl⟩ | ⟨x, y, -, -, rfl⟩ <;> exact ⟨_, _, _, rfl, hacq _⟩
    · obtain rfl := Option.some.inj hcode
      exact ⟨_, _, _, rfl, trivial⟩
    · exact absurd rfl (hno x)
  obtain ⟨pos, m, rest, rfl, hm⟩ := hfirst
  exact runOp_ordered (s := { s with grain := .micro, text := opText op s }) rfl _ op rest hm

theorem Presented.ordered {s t : State} {o : Grain → Host.Outcome State Fault Refusal} (hp : Presented s o)
    (hl : s.lock = .absent ∨ s.lock = .free) (hcaller : s.cur.internal = false) (ho : o .micro = .next t)
    (hb : BeginsAdmitted s t) : Ordered s t := by
  cases hp with
  | refusedErr c => cases ho; exact .of_ret (c := s.cur.requester) (r := .err c) hl rfl rfl
  | refusedNull c => cases ho; exact .of_ret (c := s.cur.requester) (r := .null c) hl rfl rfl
  | waits => cases ho; exact .of_nothing rfl rfl
  | begins op code hidle hmay hcode =>
    cases ho
    refine begins_ordered hmay (fun x hx => ?_) hcode
    subst hx
    have hinternal : s.cur.internal = true := hmay.admits hidle hcode hb
    rw [hcaller] at hinternal
    cases hinternal
  | faulty _ => cases ho
  | refused _ => cases ho

/-! ### Callers only -/

/-- What is presented waits, or has been taken from the queue. -/
theorem Presented.pending {s t : State} {o : Grain → Host.Outcome State Fault Refusal} (hp : Presented s o)
    (ho : o .micro = .next t) : t.pending = s.pending ∨ t.pending = s.cur :: s.pending := by
  cases hp with
  | refusedErr c => cases ho; exact .inl rfl
  | refusedNull c => cases ho; exact .inl rfl
  | waits => cases ho; exact .inr rfl
  | begins op code _ _ _ =>
    cases ho
    obtain ⟨-, -, hpending⟩ :=
      runOp_follows s.cur.requester op code { s with grain := .micro, text := opText op s }
    exact .inl hpending
  | faulty _ => cases ho
  | refused _ => cases ho

theorem resumeOp_port {c : Requester} {op : Op} {pos : Pos} {s t : State} (h : resumeOp c op pos s = .next t) :
    t.pending = s.pending ∧ (t.seq = .idle ∨ ∃ q, t.seq = .busy c op q) := by
  rcases resumeOp_next h with ⟨f, -, rfl⟩ | ⟨-, code, -, rfl⟩
  · obtain ⟨hseq, hpending⟩ := abortOp_port c op f s
    exact ⟨hpending, .inl hseq⟩
  · obtain ⟨-, -, hpending⟩ := runOp_follows c op (codeFrom pos code) s
    exact ⟨hpending, runOp_seq ..⟩

theorem takeRequest_mem {c : Requester} {l left : List Request} {r : Request} (h : takeRequest c l = some (r, left)) :
    r ∈ l ∧ ∀ x ∈ left, x ∈ l := by
  obtain ⟨-, a, b, rfl, rfl, -⟩ := takeRequest_spec h
  refine ⟨by simp, fun x hx => ?_⟩
  simp only [List.mem_append, List.mem_cons] at hx ⊢
  exact hx.imp_right .inr

/-- Where callers alone present requests, what a request leaves is no level 1 operation on its own. -/
theorem CallersOnly.of_served {s t : State} (h : CallersOnly s) (hcaller : s.cur.internal = false)
    (hpending : t.pending = s.pending ∨ t.pending = s.cur :: s.pending) (hb : BeginsAdmitted s t) : CallersOnly t := by
  obtain ⟨hqueue, hseq⟩ := h
  constructor
  · rcases hpending with hp | hp <;> rw [hp]
    · exact hqueue
    · exact List.forall_mem_cons.2 ⟨hcaller, hqueue⟩
  · intro c x pos ht
    rcases hb with hkept | hidle | ⟨c', op, q, hbusy, hop⟩
    · exact hseq c x pos (hkept.symm.trans ht)
    · cases hidle.symm.trans ht
    · cases hbusy.symm.trans ht
      rw [Admits, hcaller] at hop
      cases hop

/-- Settles O51: a step lets time pass, goes on with an operation that has its lock or is INIT, or serves a caller
while no one holds the lock; each keeps the order. -/
theorem pinActivityIsSerialisedByTheLock : Obligations.PinActivityIsSerialisedByTheLock := by
  unfold Obligations.PinActivityIsSerialisedByTheLock
  intro s t h hcallers hr hs hstep
  obtain ⟨hqueue, hlevel⟩ := hcallers
  obtain ⟨env, -, -, -, hcase⟩ := step_cases s
  rcases hcase with ⟨-, -, hidle⟩ | ⟨c, op, pos, hseq, hresume⟩ | ⟨r, left, htake, -, hmay, hserve⟩
  · rw [hidle] at hstep
    cases hstep
    exact ⟨hs, hqueue, hlevel⟩
  · rw [hresume] at hstep
    have h' : Inv { s with grain := .micro, env := env } :=
      h.of_keepsCells ⟨rfl, rfl, rfl, rfl, rfl, rfl, rfl, id⟩ rfl
    have hno : ∀ x, op ≠ .level1 x := fun x hx => hlevel c x pos (hx ▸ hseq)
    obtain ⟨hpending, ht⟩ := resumeOp_port hstep
    refine ⟨(resumeOp_ordered h' rfl hr hseq hno hstep).serialised hs, hpending ▸ hqueue, fun c' x q hq => ?_⟩
    rcases ht with ht | ⟨q', ht⟩ <;> cases ht.symm.trans hq
    exact hno x rfl
  · rw [hserve] at hstep
    obtain ⟨hr', hleft⟩ := takeRequest_mem htake
    have hcaller : r.internal = false := hqueue r hr'
    have hcallers' : CallersOnly { s with grain := .micro, pending := left, cur := r, env := env } :=
      ⟨fun x hx => hqueue x (hleft x hx), hlevel⟩
    have hp := serveRequest_presented r { s with grain := .micro, pending := left, cur := r, env := env }
    have hb := serveRequest_beginsAdmitted hstep
    exact ⟨(hp.ordered (h.lock_of_mayServe hr hmay) hcaller hstep hb).serialised hs,
      hcallers'.of_served hcaller (hp.pending hstep) hb⟩

end Sys2Proof.Machine
end

section
/-! The lock and its waiters, and the TEXT space (20_memory.md R52, R61, R62). -/

namespace Sys2Proof.Machine

/-- Settles O23: both steps of the lock are their definition, by the lock cell. -/
theorem lockAcquireAndRelease : Obligations.LockAcquireAndRelease := by
  unfold Obligations.LockAcquireAndRelease
  intro s c
  exact ⟨fun hfree => if_pos hfree, fun hne => if_neg hne, fun hheld => if_pos hheld⟩

/-- Settles O45: the sequence is loaded from index 0, in canonical form. -/
theorem textSpaceHoldsTheBytes : Obligations.TextSpaceHoldsTheBytes := by
  unfold Obligations.TextSpaceHoldsTheBytes
  intro bs i
  have hread := Memory.read_load_add 0 i bs
  rw [Nat.zero_add] at hread
  exact ⟨hread, Memory.wf_load 0 bs⟩

/-! ### Two waiters -/

/-- With two requesters' requests pending and the engine idle, each of them is an agent. -/
theorem agents_of_two {s : State} {a b : Request} (hseq : s.seq = .idle) (hp : s.pending = [a, b])
    (hne : a.requester ≠ b.requester) : agents s = [a.requester, b.requester] := by
  simp [agents, hseq, hp, waiters, mayServe, hne.symm]

/-- The scheduler's choice between two agents is the parity of its draw (log 9). -/
theorem chooseAgent_of_two {s : State} {c d : Requester} {k : Nat} {ks : List Nat} (ha : agents s = [c, d])
    (hk : s.env.pick = k :: ks) :
    chooseAgent s = (some (if k % 2 = 0 then c else d), { s with env := { s.env with pick := ks } }) := by
  simp only [chooseAgent, ha, State.drawPick, hk, List.length_singleton]
  rcases Nat.mod_two_eq_zero_or_one k with h | h <;> simp [h]

theorem takeRequest_of_two {a b : Request} (hne : a.requester ≠ b.requester) :
    takeRequest a.requester [a, b] = some (a, [b]) ∧ takeRequest b.requester [a, b] = some (b, [a]) := by
  simp [takeRequest, hne]

/-- The chosen requester's request is taken and the other stays pending. -/
theorem nextTurn_of_two {s : State} {a b : Request} {k : Nat} {ks : List Nat} (hseq : s.seq = .idle)
    (hp : s.pending = [a, b]) (hne : a.requester ≠ b.requester) (hk : s.env.pick = k :: ks) :
    nextTurn s =
      (.serve (if k % 2 = 0 then a else b),
        { s with
          pending := [if k % 2 = 0 then b else a]
          cur := if k % 2 = 0 then a else b
          env := { s.env with pick := ks } }) := by
  obtain ⟨ha, hb⟩ := takeRequest_of_two hne
  rw [nextTurn, chooseAgent_of_two (agents_of_two hseq hp hne) hk]
  by_cases h : k % 2 = 0 <;> simp [h, hseq, hp, Seq.isOf, ha, hb]

/-- Settles O9: the step serves the request that the scheduler's draw picks. -/
theorem eitherWaiterMayBeServed : Obligations.EitherWaiterMayBeServed := by
  unfold Obligations.EitherWaiterMayBeServed
  intro s a b k ks hseq hp hne hk
  rw [step, nextTurn_of_two (s := { s with grain := .micro }) hseq hp hne hk]

/-! ### Waiting for the lock -/

/-- While the lock is held an operation on a VALID handle waits (43_public_operations.md R120). -/
theorem publicOp_of_held {op : Op} {s : State} {c : Requester} (hv : s.handle = .valid) (hl : s.lock = .held c) :
    publicOp op s = .next (waitTurn s) := by
  simp [publicOp, hv, hl]

/-- The request's text is not loaded while the lock is held (20_memory.md R52). -/
theorem withText_of_held {s : State} {c : Requester} (hl : s.lock = .held c) : withText s = s :=
  if_neg fun ⟨_, hfree, _⟩ => by simp [hl] at hfree

/-- A position in range with a row base has an address. -/
theorem gotoxyTarget_of_inRange {x y : Byte} {dc : DisplayConfig} {cols rows : Nat} {bases : List Nat} {base : Nat}
    {s : State} (h : InRange x y dc cols rows bases base s) :
    gotoxyTarget s.cfg s.config x y = .byte (setDdramByte (base + x.toNat)) := by
  obtain ⟨hconfig, hgeo, hy, hx, hbases, hbase, haddr⟩ := h
  simp [gotoxyTarget, hconfig, hgeo, hbases, hbase, haddr, Nat.not_le.mpr hy, Nat.not_le.mpr hx]

/-- A position out of range has none, whichever of its row, column and address is out. -/
theorem gotoxyTarget_of_outOfRange {x y : Byte} {dc : DisplayConfig} {cols rows : Nat} {s : State}
    (hconfig : s.config = some dc) (hgeo : geometryOf s.cfg dc.geometry = some (cols, rows))
    (h : OutOfRange x y cols rows s) : gotoxyTarget s.cfg s.config x y = .outOfRange := by
  simp only [gotoxyTarget, hconfig, hgeo]
  split
  · rfl
  · next hy =>
    split
    · rfl
    · next hx =>
      obtain ⟨bases, base, hbases, hbase, haddr⟩ := (h.resolve_left hy).resolve_left hx
      simp [hbases, hbase, haddr]

/-- A request on a handle that has a meaning waits while the lock is held (20_memory.md R61). -/
theorem exec_of_held {i : Instr} {s : State} {c : Requester} (hm : HasMeaning s i) (hv : s.handle = .valid)
    (hl : s.lock = .held c) : exec i s = .next (waitTurn s) := by
  cases i with
  | clear => exact publicOp_of_held hv hl
  | home => exact publicOp_of_held hv hl
  | gotoxy x y =>
    obtain ⟨dc, cols, rows, hconfig, hgeo, hrange⟩ := hm
    show execGotoxy x y s = _
    rw [execGotoxy, if_pos hv]
    rcases hrange with ⟨bases, base, hin⟩ | hout
    · rw [gotoxyTarget_of_inRange hin]
      exact publicOp_of_held hv hl
    · rw [gotoxyTarget_of_outOfRange hconfig hgeo hout]
      exact publicOp_of_held hv hl
  | writeString =>
    replace hm : textTerminated s.cur.text = true := hm
    show execWriteString s = _
    rw [execWriteString, if_neg (by simp [hm]), withText_of_held hl]
    exact publicOp_of_held hv hl
  | _ => exact hm.elim

/-- Settles O43: a wait lets time pass and puts the request back before the others. -/
theorem aRequesterWaitsForTheLock : Obligations.ARequesterWaitsForTheLock := by
  unfold Obligations.ARequesterWaitsForTheLock
  intro s i c hm hv hl
  exact ⟨waitTurn s, exec_of_held hm hv hl, rfl, rfl, rfl, Nat.le_add_right .., ⟨rfl, rfl, rfl, rfl, rfl⟩,
    ⟨rfl, rfl, rfl, rfl⟩, ⟨rfl, rfl, rfl⟩, rfl, rfl, rfl, rfl⟩

end Sys2Proof.Machine
end

section
/-! Several displays (92_eei_decisions.md D22): the physical pins an engine has for itself, and that a step of it takes
no other than it has or than those of a pin map accepted beside the other handles'. -/

namespace Sys2Proof.Machine

/-! ### The pins an engine has for itself -/

theorem boundPins_of_pinMap {s : State} {pm : PinMap} (h : s.pinMap = some pm) : boundPins s = pm.toList := by
  simp only [boundPins, h]

theorem boundPins_of_init {s : State} {c : Requester} {g m : Byte} {pm : PinMap} {pos : Pos} (hp : s.pinMap = none)
    (hseq : s.seq = .busy c (.init g m pm) pos) : boundPins s = pm.toList := by
  simp only [boundPins, hp, hseq]

theorem boundPins_of_not_init {s : State} (hp : s.pinMap = none)
    (hseq : ∀ c g m pm pos, s.seq ≠ .busy c (.init g m pm) pos) : boundPins s = [] := by
  unfold boundPins
  rw [hp]
  dsimp only
  split
  · next c g m pm pos h => exact absurd h (hseq c g m pm pos)
  · rfl

theorem boundPins_congr {s t : State} (hp : t.pinMap = s.pinMap) (hseq : t.seq = s.seq) :
    boundPins t = boundPins s := by
  simp only [boundPins, hp, hseq]

/-- An engine that is idle or still in its operation has no pin it had not, if its pin map is as it was. -/
theorem boundPins_subset {c : Requester} {op : Op} {pos : Pos} {s t : State} (hp : t.pinMap = s.pinMap)
    (hs : s.seq = .busy c op pos) (ht : t.seq = .idle ∨ ∃ q, t.seq = .busy c op q) : boundPins t ⊆ boundPins s := by
  cases hpm : s.pinMap with
  | some pm =>
    rw [boundPins_of_pinMap hpm, boundPins_of_pinMap (hp.trans hpm)]
    exact List.Subset.refl _
  | none =>
    rcases ht with ht | ⟨q, ht⟩
    · rw [boundPins_of_not_init (hp.trans hpm) (by simp [ht])]
      exact List.nil_subset _
    · have hsame : boundPins t = boundPins s := by
        simp only [boundPins, hp, hpm, hs, ht]
        cases op <;> rfl
      rw [hsame]
      exact List.Subset.refl _

theorem not_mem_of_pinsDisjoint {α : Type} [DecidableEq α] {l m : List α} (h : pinsDisjoint l m = true) :
    ∀ p ∈ l, p ∉ m := by
  induction l with
  | nil => exact List.forall_mem_nil _
  | cons x l ih =>
    simp only [pinsDisjoint, Bool.and_eq_true, Bool.not_eq_true', List.contains_eq_mem, decide_eq_false_iff_not] at h
    obtain ⟨hx, hl⟩ := h
    exact List.forall_mem_cons.2 ⟨hx, ih hl⟩

/-- No pin but those the engine had, or none of another handle's. -/
def TakesOwnPins (s t : State) : Prop := boundPins t ⊆ boundPins s ∨ ∀ p ∈ boundPins t, p ∉ s.otherPins

theorem TakesOwnPins.of_same {s t : State} (hp : t.pinMap = s.pinMap) (hseq : t.seq = s.seq) : TakesOwnPins s t :=
  .inl (by rw [boundPins_congr hp hseq]; exact List.Subset.refl _)

/-! ### Micro-steps -/

theorem Micro.act_pinMap {m : Micro} (hm : ∀ g md pm, m ≠ .alloc g md pm) (s : State) :
    (m.act s).1.pinMap = s.pinMap :=
  let ⟨_, h⟩ := Micro.act_called hm s
  h.pinMap

theorem afterMicro_pinMap (c : Requester) (op : Op) (pos : Pos) (rest : Code) (r : State × Raised) :
    (afterMicro c op pos rest r).pinMap = r.1.pinMap := by
  rcases r with ⟨t, _ | f⟩
  · cases rest with
    | nil => cases op <;> rfl
    | cons x rest => rfl
  · rfl

/-- Only INIT allocates, with the pin map it was given, at its one position for that (42_init_sequence.md R110). -/
theorem alloc_mem_opCode {c : Requester} {op : Op} {s : State} {code : Code} {pos q : Pos} {g md : Byte} {pm : PinMap}
    (h : Inv s) (hseq : s.seq = .busy c op q) (hcode : opCode c op s = some code)
    (hm : (pos, .alloc g md pm) ∈ code) : pos = Pos.plain .alloc ∧ ∃ g' m', op = .init g' m' pm := by
  have hbody : ∀ {ok : Phase → Bool} {body : Code}, IsBody ok body → (pos, .alloc g md pm) ∉ body :=
    fun hb hin => Bool.noConfusion (hb _ hin).2
  rcases op.kinds with hop | ⟨g', m', pm', rfl⟩ | ⟨x, rfl⟩
  · rcases opCode_onHandle hop hcode with ⟨body, hb, rfl⟩ | ⟨x, y, -, -, rfl⟩
    · simp [plain, hbody hb] at hm
    · simp [plain] at hm
  · obtain ⟨-, rfl, -⟩ := h.inInit hseq
    obtain rfl := Option.some.inj hcode
    rw [initCode_bit4] at hm
    have halloc : pos = Pos.plain .alloc ∧ g = g' ∧ md = 0x00#8 ∧ pm = pm' := by
      simpa [plain, hbody (initBody_isBody s.cfg)] using hm
    obtain ⟨hpos, -, -, rfl⟩ := halloc
    exact ⟨hpos, g', _, rfl⟩
  · obtain rfl := Option.some.inj hcode
    exact absurd hm (hbody (level1Code_isBody _ x))

/-! ### The operation in progress goes on -/

theorem pinMap_of_none {s : State} (h : HandleInv s) (hn : s.handle = .none) : s.pinMap = none := by
  simp only [HandleInv, hn] at h
  obtain ⟨-, hpinMap, -⟩ := h
  exact hpinMap

/-- At its allocation INIT already has the pins of the pin map it writes (92_eei_decisions.md D22). -/
theorem boundPins_of_alloc_mem {c : Requester} {op : Op} {pos : Pos} {s : State} {g md : Byte} {pm : PinMap}
    {code : Code} (h : Inv s) (hseq : s.seq = .busy c op pos) (hcode : opCode c op s = some code)
    (hm : (pos, .alloc g md pm) ∈ code) : s.pinMap = none ∧ boundPins s = pm.toList := by
  obtain ⟨rfl, g', m', rfl⟩ := alloc_mem_opCode h hseq hcode hm
  obtain ⟨hi, -⟩ := h.inInit hseq
  have hnone := pinMap_of_none hi.handle hi.built
  exact ⟨hnone, boundPins_of_init hnone hseq⟩

theorem goesOn_takesOwnPins {c : Requester} {op : Op} {pos : Pos} {s : State} {code : Code} (h : Inv s)
    (hg : s.grain = .micro) (hseq : s.seq = .busy c op pos) (hpos : ∀ f, pos.phase ≠ .abort f)
    (hcode : opCode c op s = some code) : TakesOwnPins s (runOp c op (codeFrom pos code) s) := by
  obtain ⟨m, rest, hfrom, hm⟩ := h.codeFrom_eq_cons hseq hpos hcode
  have ht := runOp_seq c op (codeFrom pos code) s
  have hpinMap : (runOp c op (codeFrom pos code) s).pinMap = (m.act s).1.pinMap := by
    rw [hfrom, runOp_micro_cons hg, afterMicro_pinMap]
  by_cases halloc : ∃ g md pm, m = .alloc g md pm
  · obtain ⟨g, md, pm, rfl⟩ := halloc
    obtain ⟨hnone, hbound⟩ := boundPins_of_alloc_mem h hseq hcode hm
    obtain ⟨b, t, he, -, hok, hbad, -⟩ := allocHandle_spec g md pm s
    rw [Micro.act, he] at hpinMap
    left
    cases b with
    | true =>
      obtain ⟨-, hpm, -⟩ := hok rfl
      rw [boundPins_of_pinMap (hpinMap.trans hpm), hbound]
      exact List.Subset.refl _
    | false =>
      obtain ⟨-, hpm, -⟩ := hbad rfl
      exact boundPins_subset (hpinMap.trans hpm) hseq ht
  · have hkeeps := Micro.act_pinMap (fun g md pm he => halloc ⟨g, md, pm, he⟩) s
    exact .inl (boundPins_subset (hpinMap.trans hkeeps) hseq ht)

theorem abortOp_pinMap (c : Requester) (op : Op) (f : Cause) (s : State) :
    (abortOp c op f s).pinMap = s.pinMap ∨ (abortOp c op f s).pinMap = none := by
  have hrelease : (lockRelease c s).pinMap = s.pinMap := by
    unfold lockRelease
    split <;> rfl
  cases op with
  | init g m pm =>
    simp only [abortOp, unwind, retFailure]
    split
    · exact .inr rfl
    · exact .inl rfl
  | level1 x => exact .inl rfl
  | _ =>
    left
    simp only [abortOp, unwind, retFailure]
    split
    · exact hrelease
    · rfl

theorem abortOp_takesOwnPins {c : Requester} {op : Op} {pos : Pos} {s : State} (hseq : s.seq = .busy c op pos)
    (f : Cause) : TakesOwnPins s (abortOp c op f s) := by
  obtain ⟨hidle, -⟩ := abortOp_port c op f s
  rcases abortOp_pinMap c op f s with hp | hp
  · exact .inl (boundPins_subset hp hseq (.inl hidle))
  · rw [TakesOwnPins, boundPins_of_not_init hp (by simp [hidle])]
    exact .inl (List.nil_subset _)

theorem resumeOp_takesOwnPins {c : Requester} {op : Op} {pos : Pos} {s t : State} (h : Inv s)
    (hg : s.grain = .micro) (hseq : s.seq = .busy c op pos) (hstep : resumeOp c op pos s = .next t) :
    TakesOwnPins s t := by
  rcases resumeOp_next hstep with ⟨f, -, rfl⟩ | ⟨hpos, code, hcode, rfl⟩
  · exact abortOp_takesOwnPins hseq f
  · exact goesOn_takesOwnPins h hg hseq hpos hcode

/-! ### A request is served -/

theorem pinMap_of_begins {op : Op} {code : Code} {s : State} (hmay : MayBegin op s)
    (hcode : opCode s.cur.requester op { s with text := opText op s } = some code) :
    (runOp s.cur.requester op code { s with grain := .micro, text := opText op s }).pinMap = s.pinMap := by
  obtain ⟨p, m, q, m', rest, rfl, hm⟩ := hmay.two_micros hcode
  rw [runOp_micro_cons rfl, afterMicro_pinMap]
  exact Micro.act_pinMap hm _

/-- An operation that was admitted has the handle's pins; where no handle exists, those of INIT's accepted pin map, or
none. -/
theorem TakesOwnPins.of_admits {c : Requester} {op : Op} {q : Pos} {s t : State} (hp : t.pinMap = s.pinMap)
    (hq : t.seq = .busy c op q) (hop : Admits s op) : TakesOwnPins s t := by
  cases hpm : s.pinMap with
  | some pm =>
    rw [TakesOwnPins, boundPins_of_pinMap hpm, boundPins_of_pinMap (hp.trans hpm)]
    exact .inl (List.Subset.refl _)
  | none =>
    rw [hpm] at hp
    by_cases hinit : ∃ g m pm, op = .init g m pm
    · obtain ⟨g, m, pm, rfl⟩ := hinit
      rw [TakesOwnPins, boundPins_of_init hp hq]
      rw [Admits, pinMapAccepted, Bool.and_eq_true] at hop
      obtain ⟨-, hdisjoint⟩ := hop
      exact .inr (not_mem_of_pinsDisjoint hdisjoint)
    · rw [TakesOwnPins, boundPins_of_not_init hp]
      · exact .inl (List.nil_subset _)
      · intro c' g m pm pos hbusy
        cases hq.symm.trans hbusy
        exact hinit ⟨g, m, pm, rfl⟩

theorem Presented.takesOwnPins {s t : State} {o : Grain → Host.Outcome State Fault Refusal} (hp : Presented s o)
    (ho : o .micro = .next t) (hb : BeginsAdmitted s t) : TakesOwnPins s t := by
  cases hp with
  | refusedErr c => cases ho; exact .of_same rfl rfl
  | refusedNull c => cases ho; exact .of_same rfl rfl
  | waits => cases ho; exact .of_same rfl rfl
  | begins op code hidle hmay hcode =>
    cases ho
    obtain ⟨q, hq⟩ := hmay.busy (s' := { s with grain := .micro, text := opText op s }) hcode rfl
    exact .of_admits (pinMap_of_begins hmay hcode) hq (hmay.admits hidle hcode hb)
  | faulty _ => cases ho
  | refused _ => cases ho

/-- A step takes no pin that the engine did not have, but for those of a pin map accepted for INIT. -/
theorem step_takesOwnPins {s t : State} (h : Inv s) (hstep : step s = .next t) : TakesOwnPins s t := by
  obtain ⟨env, -, -, -, hcase⟩ := step_cases s
  rcases hcase with ⟨-, -, hidle⟩ | ⟨c, op, pos, hseq, hresume⟩ | ⟨r, left, -, -, -, hserve⟩
  · rw [hidle] at hstep
    cases hstep
    exact .of_same rfl rfl
  · rw [hresume] at hstep
    have h' : Inv { s with grain := .micro, env := env } :=
      h.of_keepsCells ⟨rfl, rfl, rfl, rfl, rfl, rfl, rfl, id⟩ rfl
    exact resumeOp_takesOwnPins (s := { s with grain := .micro, env := env }) h' rfl hseq hstep
  · rw [hserve] at hstep
    have hp := serveRequest_presented r { s with grain := .micro, pending := left, cur := r, env := env }
    exact hp.takesOwnPins hstep (serveRequest_beginsAdmitted hstep)

/-! ### A step of a platform -/

/-- A display that steps has its engine stepped, knowing the other handles' pins and the requests it may serve. -/
theorem stepAt_next {P Q : Platform} {k : Nat} (h : P.stepAt k = .next Q) :
    Q = P ∨ ∃ s t, P.engines[k]? = some s
      ∧ step { s with otherPins := P.pinsBut k, pending := P.presented k } = .next t
      ∧ Q.engines = P.engines.set k { t with pending := [] } := by
  unfold Platform.stepAt at h
  split at h
  · cases h
    exact .inl rfl
  · next s hs =>
    split at h
    · next t ht =>
      cases h
      exact .inr ⟨s, t, hs, ht, rfl⟩
    · cases h
    · cases h

/-- The pins of an engine are among those every other display knows of. -/
theorem mem_pinsBut {P : Platform} {k j : Nat} {b : State} (hne : j ≠ k) (hb : P.engines[j]? = some b)
    {p : PhysPin} (hp : p ∈ boundPins b) : p ∈ P.pinsBut k := by
  refine List.mem_flatMap.mpr ⟨b, ?_, hp⟩
  exact List.mem_eraseIdx_iff_getElem?.mpr ⟨j, hne, hb⟩

/-- The invariant reads neither the other handles' pins nor the queue. -/
theorem Platform.Apart.inv_presented {P : Platform} {k : Nat} {s : State} (h : P.Apart) (hs : P.engines[k]? = some s) :
    Inv { s with otherPins := P.pinsBut k, pending := P.presented k } := by
  obtain ⟨hinv, -⟩ := h
  exact (hinv s (List.mem_of_getElem? hs)).of_keepsCells ⟨rfl, rfl, rfl, rfl, rfl, rfl, rfl, id⟩ rfl

/-- An engine that has stepped has no pin in common with another display. -/
theorem Platform.Apart.stepped {P : Platform} {k j : Nat} {s t b : State} (h : P.Apart) (hs : P.engines[k]? = some s)
    (hstep : step { s with otherPins := P.pinsBut k, pending := P.presented k } = .next t) (hne : j ≠ k)
    (hb : P.engines[j]? = some b) : ∀ p ∈ boundPins t, p ∉ boundPins b := by
  have hs' := h.inv_presented hs
  obtain ⟨-, hapart⟩ := h
  intro p hp
  rcases step_takesOwnPins hs' hstep with hsub | hother
  · exact hapart k j s b hne.symm hs hb p (hsub hp)
  · exact fun hpb => hother p hp (mem_pinsBut hne hb hpb)

/-- An engine that has stepped meets the invariant. -/
theorem Platform.Apart.inv_stepped {P : Platform} {k : Nat} {s t : State} (h : P.Apart) (hs : P.engines[k]? = some s)
    (hstep : step { s with otherPins := P.pinsBut k, pending := P.presented k } = .next t) :
    Inv { t with pending := [] } :=
  (everyStepKeepsTheInvariant _ _ (h.inv_presented hs) hstep).of_keepsCells ⟨rfl, rfl, rfl, rfl, rfl, rfl, rfl, id⟩ rfl

/-- Settles O50: the engine that steps keeps the invariant and takes no pin another display has; the others stay as they
were. -/
theorem platformsStayApart : Obligations.PlatformsStayApart := by
  unfold Obligations.PlatformsStayApart
  intro P Q k h hstepAt
  rcases stepAt_next hstepAt with rfl | ⟨s, t, hs, hstep, hQ⟩
  · exact h
  have ⟨hinv, hapart⟩ := h
  have hkeep : ∀ {j : Nat} {b : State}, j ≠ k → Q.engines[j]? = some b → P.engines[j]? = some b := fun hj hb => by
    rwa [hQ, List.getElem?_set_ne hj.symm] at hb
  have hk : ∀ {b : State}, Q.engines[k]? = some b → b = { t with pending := [] } := fun hb => by
    rw [hQ, List.getElem?_set_self (List.getElem?_eq_some_iff.mp hs).1] at hb
    exact (Option.some.inj hb).symm
  refine ⟨fun b hb => ?_, fun i j a b hij ha hb => ?_⟩
  · rcases List.mem_or_eq_of_mem_set (hQ ▸ hb) with hb | rfl
    · exact hinv b hb
    · exact h.inv_stepped hs hstep
  · by_cases hi : i = k
    · subst hi
      rw [hk ha]
      exact h.stepped (t := t) hs hstep hij.symm (hkeep hij.symm hb)
    · by_cases hj : j = k
      · subst hj
        rw [hk hb]
        exact fun p hpa hpt => h.stepped (t := t) hs hstep hij (hkeep hij ha) p hpt hpa
      · exact hapart i j a b hij (hkeep hi ha) (hkeep hj hb)

end Sys2Proof.Machine
end

section
/-! Decoding and encoding (30_encoding.md R70 to R79): a request word is its three fields, each row of R72 asks for
values of them, and what decodes is what is encoded, format by format. -/

namespace Sys2Proof

/-! ### The fields of a request word -/

@[simp] theorem reqOp_reqWord (op : BitVec 4) (a b : Byte) : reqOp (reqWord op a b) = op :=
  (BitVec.extractLsb'_append_eq_of_le (by decide)).trans BitVec.extractLsb'_append_eq_left

@[simp] theorem reqA_reqWord (op : BitVec 4) (a b : Byte) : reqA (reqWord op a b) = a :=
  (BitVec.extractLsb'_append_eq_of_le (by decide)).trans BitVec.extractLsb'_append_eq_right

@[simp] theorem reqB_reqWord (op : BitVec 4) (a b : Byte) : reqB (reqWord op a b) = b :=
  BitVec.extractLsb'_append_eq_right

theorem reqWord_fields (w : BitVec 20) : reqWord (reqOp w) (reqA w) (reqB w) = w := by
  have hop : reqOp w ++ reqA w = w.extractLsb' 8 12 := BitVec.extractLsb'_append_extractLsb'_eq_extractLsb' rfl
  rw [reqWord, hop]
  exact BitVec.extractLsb'_append_extractLsb' (w := 12) (len := 8)

theorem reqWord_inj {op op' : BitVec 4} {a a' b b' : Byte} :
    reqWord op a b = reqWord op' a' b' ↔ op = op' ∧ a = a' ∧ b = b' := by
  refine ⟨fun h => ⟨?_, ?_, ?_⟩, fun ⟨ho, ha, hb⟩ => by rw [ho, ha, hb]⟩
  · simpa using congrArg reqOp h
  · simpa using congrArg reqA h
  · simpa using congrArg reqB h

/-! ### The rows of R72 -/

/-- A row selects a word field by field. -/
theorem rowHit_reqWord (w : BitVec 20) (mo po : BitVec 4) (ma pa mb pb : Byte) :
    rowHit w (reqWord mo ma mb) (reqWord po pa pb) = true
      ↔ reqOp w &&& mo = po ∧ reqA w &&& ma = pa ∧ reqB w &&& mb = pb := by
  rw [rowHit, beq_iff_eq, ← reqWord_fields w, Laws.req_masked, reqWord_inj]
  simp

/-- A row whose two operands are free. -/
theorem rowHit_free (w : BitVec 20) (op : BitVec 4) :
    rowHit w 0xF0000#20 (reqWord op 0 0) = true ↔ reqOp w = op := by
  rw [show 0xF0000#20 = reqWord (BitVec.allOnes 4) 0 0 from rfl, rowHit_reqWord]
  simp only [BitVec.and_allOnes, BitVec.ofNat_eq_ofNat, BitVec.and_zero, and_true]

/-- A row whose two operands are zero. -/
theorem rowHit_exact (w : BitVec 20) (op : BitVec 4) :
    rowHit w 0xFFFFF#20 (reqWord op 0 0) = true ↔ reqOp w = op ∧ reqA w = 0#8 ∧ reqB w = 0#8 := by
  rw [show 0xFFFFF#20 = reqWord (BitVec.allOnes 4) (BitVec.allOnes 8) (BitVec.allOnes 8) from rfl, rowHit_reqWord]
  simp only [BitVec.and_allOnes]
  rfl

/-- A row whose first operand is zero. -/
theorem rowHit_byte (w : BitVec 20) (op : BitVec 4) :
    rowHit w 0xFFF00#20 (reqWord op 0 0) = true ↔ reqOp w = op ∧ reqA w = 0#8 := by
  rw [show 0xFFF00#20 = reqWord (BitVec.allOnes 4) (BitVec.allOnes 8) 0 from rfl, rowHit_reqWord]
  simp only [BitVec.and_allOnes, BitVec.ofNat_eq_ofNat, BitVec.and_zero, and_true]

theorem and_0xFE_eq_zero : ∀ a : Byte, a &&& 0xFE#8 = 0#8 ↔ a.extractLsb' 1 7 = 0#7 := by decide

theorem and_0xF0_eq_zero : ∀ b : Byte, b &&& 0xF0#8 = 0#8 ↔ b.extractLsb' 4 4 = 0#4 := by decide

/-- The row of NIBBLE: one bit of the first operand and four of the second are free. -/
theorem rowHit_nibble (w : BitVec 20) (op : BitVec 4) :
    rowHit w 0xFFEF0#20 (reqWord op 0 0) = true
      ↔ reqOp w = op ∧ (reqA w).extractLsb' 1 7 = 0#7 ∧ (reqB w).extractLsb' 4 4 = 0#4 := by
  rw [show 0xFFEF0#20 = reqWord (BitVec.allOnes 4) 0xFE#8 0xF0#8 from rfl, rowHit_reqWord, BitVec.and_allOnes,
    ← and_0xFE_eq_zero, ← and_0xF0_eq_zero]
  rfl

/-- The nine rows with their matches written by operation code. -/
theorem reqRows_eq :
    reqRows =
      [⟨reqWord 0x1#4 0 0, 0xF0000#20, fun w => .init (reqA w) (reqB w)⟩,
       ⟨reqWord 0x2#4 0 0, 0xFFFFF#20, fun _ => .clear⟩,
       ⟨reqWord 0x3#4 0 0, 0xFFFFF#20, fun _ => .home⟩,
       ⟨reqWord 0x4#4 0 0, 0xF0000#20, fun w => .gotoxy (reqA w) (reqB w)⟩,
       ⟨reqWord 0x5#4 0 0, 0xFFFFF#20, fun _ => .writeString⟩,
       ⟨reqWord 0x8#4 0 0, 0xFFFFF#20, fun _ => .configure⟩,
       ⟨reqWord 0x9#4 0 0, 0xFFEF0#20, fun w => .nibble (w.getLsbD 8) (w.extractLsb' 0 4)⟩,
       ⟨reqWord 0xA#4 0 0, 0xFFF00#20, fun w => .writeCmd (reqB w)⟩,
       ⟨reqWord 0xB#4 0 0, 0xFFF00#20, fun w => .writeData (reqB w)⟩] := rfl

/-- Which request words some row selects. -/
theorem exists_row_selects_iff (w : BitVec 20) :
    (∃ row ∈ reqRows, row.selects w = true)
      ↔ reqOp w ∈ [0x1#4, 0x4#4]
        ∨ (reqOp w ∈ [0x2#4, 0x3#4, 0x5#4, 0x8#4] ∧ reqA w = 0#8 ∧ reqB w = 0#8)
        ∨ (reqOp w = 0x9#4 ∧ (reqA w).extractLsb' 1 7 = 0#7 ∧ (reqB w).extractLsb' 4 4 = 0#4)
        ∨ (reqOp w ∈ [0xA#4, 0xB#4] ∧ reqA w = 0#8) := by
  rw [reqRows_eq]
  simp only [List.mem_cons, exists_eq_or_imp, exists_eq_left, List.not_mem_nil, or_false, ReqRow.selects, rowHit_free,
    rowHit_exact, rowHit_byte, rowHit_nibble]
  constructor
  · rintro (h | h | h | h | h | h | h | h | h) <;> simp [h]
  · rintro ((h | h) | ⟨h | h | h | h, hab⟩ | h | ⟨h | h, ha⟩) <;> simp [*]

/-- A row selects only words of its own operation code. -/
theorem reqOp_of_selects :
    ∀ row ∈ reqRows, ∀ w : BitVec 20, row.selects w = true → reqOp row.pat = reqOp w := by
  rw [reqRows_eq]
  simp only [List.forall_mem_cons, ReqRow.selects, rowHit_free, rowHit_exact, rowHit_byte, rowHit_nibble, reqOp_reqWord]
  exact ⟨fun _ hop => hop.symm, fun _ ⟨hop, _⟩ => hop.symm, fun _ ⟨hop, _⟩ => hop.symm, fun _ hop => hop.symm,
    fun _ ⟨hop, _⟩ => hop.symm, fun _ ⟨hop, _⟩ => hop.symm, fun _ ⟨hop, _⟩ => hop.symm, fun _ ⟨hop, _⟩ => hop.symm,
    fun _ ⟨hop, _⟩ => hop.symm, List.forall_mem_nil _⟩

theorem nodup_reqRows_ops : (reqRows.map fun row => reqOp row.pat).Nodup := by decide

/-- No two rows have one operation code. -/
theorem row_eq_of_selects {row row' : ReqRow} (hrow : row ∈ reqRows) (hrow' : row' ∈ reqRows) {w : BitVec 20}
    (h : row.selects w = true) (h' : row'.selects w = true) : row = row' :=
  List.inj_on_of_nodup_map nodup_reqRows_ops hrow hrow'
    ((reqOp_of_selects _ hrow w h).trans (reqOp_of_selects _ hrow' w h').symm)

theorem length_filter_selects_le_one (w : BitVec 20) : (reqRows.filter fun row => row.selects w).length ≤ 1 := by
  have hops : ∀ op ∈ (reqRows.filter fun row => row.selects w).map fun row => reqOp row.pat, op = reqOp w := by
    simp only [List.forall_mem_map, List.mem_filter]
    exact fun row ⟨hrow, h⟩ => reqOp_of_selects row hrow w h
  have hnodup := nodup_reqRows_ops.sublist ((List.filter_sublist (p := fun row => row.selects w)).map _)
  rw [List.eq_replicate_of_mem hops, List.nodup_replicate, List.length_map] at hnodup
  exact hnodup

/-- A request word decodes by the row that selects it. -/
theorem decodeReq_eq_ok_iff (w : BitVec 20) (i : Instr) :
    decodeReq w = .ok i ↔ ∃ row ∈ reqRows, row.selects w = true ∧ i = row.instr w := by
  unfold decodeReq
  cases hfind : reqRows.find? fun row => row.selects w with
  | none =>
    have hnone : ∀ row ∈ reqRows, ¬ row.selects w = true := List.find?_eq_none.mp hfind
    refine ⟨fun h => ?_, fun ⟨row, hrow, h, _⟩ => absurd h (hnone row hrow)⟩
    simp only at h
    split at h <;> cases h
  | some row =>
    have hrow := List.mem_of_find?_eq_some hfind
    have hsel : row.selects w = true := List.find?_some (p := fun row : ReqRow => row.selects w) hfind
    refine ⟨fun h => ⟨row, hrow, hsel, (Except.ok.inj h).symm⟩, fun ⟨row', hrow', hsel', hi⟩ => ?_⟩
    rw [hi, row_eq_of_selects hrow' hrow hsel' hsel]

/-- Settles O4: two rows that select one word have its operation code, and no two rows share one. -/
theorem requestRowsAreDisjoint : Obligations.RequestRowsAreDisjoint := by
  unfold Obligations.RequestRowsAreDisjoint
  exact fun w => ⟨length_filter_selects_le_one w, decodeReq_eq_ok_iff w⟩

theorem decodeReq_never_ok_iff (w : BitVec 20) :
    (∀ i, decode (.req20 w) ≠ .ok i) ↔ ¬ ∃ row ∈ reqRows, row.selects w = true := by
  simp only [decode, ne_eq, decodeReq_eq_ok_iff]
  exact ⟨fun h ⟨row, hrow, hsel⟩ => h _ ⟨row, hrow, hsel, rfl⟩, fun h _ ⟨row, hrow, hsel, _⟩ => h ⟨row, hrow, hsel⟩⟩

theorem reqOp_classes :
    ∀ op : BitVec 4, op ∈ [0x0#4, 0x6#4, 0x7#4, 0xC#4, 0xD#4, 0xE#4, 0xF#4] ∨ op ∈ [0x1#4, 0x4#4]
      ∨ op ∈ [0x2#4, 0x3#4, 0x5#4, 0x8#4] ∨ op = 0x9#4 ∨ op ∈ [0xA#4, 0xB#4] := by decide

/-- Settles O5: no row selects the word, which the word's operation code and operands decide. -/
theorem illegalRequestWords : Obligations.IllegalRequestWords := by
  unfold Obligations.IllegalRequestWords
  intro w
  rw [decodeReq_never_ok_iff, exists_row_selects_iff]
  generalize reqOp w = op
  have h := reqOp_classes op
  simp only [List.mem_cons, List.not_mem_nil, or_false] at h ⊢
  rcases h with (h | h | h | h | h | h | h) | (h | h) | (h | h | h | h) | h | h | h <;>
    simp [h, imp_iff_not_or]

/-! ### Encoding and decoding by the rows of R72 -/

theorem req20_eq_of_fields {w : BitVec 20} {op : BitVec 4} {a b : Byte} (hop : reqOp w = op) (ha : reqA w = a)
    (hb : reqB w = b) : FormatWord.req20 (reqWord op a b) = .req20 w := by
  rw [← hop, ← ha, ← hb, reqWord_fields]

theorem getLsbD_eight (w : BitVec 20) : w.getLsbD 8 = (reqA w).getLsbD 0 := by simp [reqA]

/-- The first operand of the row of NIBBLE is its free bit. -/
theorem nibbleRow_operandA {w : BitVec 20} (h : (reqA w).extractLsb' 1 7 = 0#7) :
    reqA w = 0#7 ++ BitVec.ofBool (w.getLsbD 8) := by
  have hsplit : ∀ a : Byte, a = a.extractLsb' 1 7 ++ BitVec.ofBool (a.getLsbD 0) := by decide
  rw [← h, getLsbD_eight]
  exact hsplit _

/-- The second operand of the row of NIBBLE is its free nibble. -/
theorem nibbleRow_operandB {w : BitVec 20} (h : (reqB w).extractLsb' 4 4 = 0#4) :
    reqB w = 0#4 ++ w.extractLsb' 0 4 := by
  rw [reqB, BitVec.extractLsb'_extractLsb'_of_le (by decide)] at h
  rw [← h]
  exact (BitVec.extractLsb'_append_extractLsb'_eq_extractLsb' (len₁ := 4) rfl).symm

/-- The instruction of a row that selects a word encodes to that word. -/
theorem encode_instr_of_selects :
    ∀ row ∈ reqRows, ∀ w : BitVec 20, row.selects w = true → encode (row.instr w) = .req20 w := by
  rw [reqRows_eq]
  simp only [List.forall_mem_cons, ReqRow.selects, rowHit_free, rowHit_exact, rowHit_byte, rowHit_nibble, encode]
  exact ⟨fun _ hop => req20_eq_of_fields hop rfl rfl,
    fun _ ⟨hop, ha, hb⟩ => req20_eq_of_fields hop ha hb,
    fun _ ⟨hop, ha, hb⟩ => req20_eq_of_fields hop ha hb,
    fun _ hop => req20_eq_of_fields hop rfl rfl,
    fun _ ⟨hop, ha, hb⟩ => req20_eq_of_fields hop ha hb,
    fun _ ⟨hop, ha, hb⟩ => req20_eq_of_fields hop ha hb,
    fun _ ⟨hop, ha, hb⟩ => req20_eq_of_fields hop (nibbleRow_operandA ha) (nibbleRow_operandB hb),
    fun _ ⟨hop, ha⟩ => req20_eq_of_fields hop ha rfl,
    fun _ ⟨hop, ha⟩ => req20_eq_of_fields hop ha rfl,
    List.forall_mem_nil _⟩

theorem encode_of_decodeReq {w : BitVec 20} {i : Instr} (h : decodeReq w = .ok i) : encode i = .req20 w := by
  obtain ⟨row, hrow, hsel, rfl⟩ := (decodeReq_eq_ok_iff w i).mp h
  exact encode_instr_of_selects row hrow w hsel

/-! ### The bus formats and the command bytes -/

/-- An image in a row of R74 is the row's tag and a nibble. -/
theorem image_of_row :
    ∀ (tag : BitVec 2) (x : Image), x &&& 0x30#6 = tag ++ 0#4 → tag ++ x.extractLsb' 0 4 = x := by decide

theorem encode_of_decodeBus6 {w : Image} {i : Instr} (h : decodeBus6 w = .ok i) : encode i = .bus6 w := by
  unfold decodeBus6 at h
  split at h
  · next hrow =>
    cases h
    exact congrArg FormatWord.bus6 (image_of_row 0b00#2 w (beq_iff_eq.mp hrow))
  · split at h
    · next hrow =>
      cases h
      exact congrArg FormatWord.bus6 (image_of_row 0b10#2 w (beq_iff_eq.mp hrow))
    · cases h

/-- A pair of images in a row of R76 is the row's tag and a nibble, twice. -/
theorem images_of_row (tag : BitVec 2) (w : BitVec 12) (h : w &&& 0xC30#12 = (tag ++ 0#4) ++ (tag ++ 0#4)) :
    (tag ++ w.extractLsb' 6 4) ++ (tag ++ w.extractLsb' 0 4) = w := by
  obtain ⟨x, y, rfl⟩ : ∃ x y : Image, w = x ++ y :=
    ⟨_, _, (BitVec.extractLsb'_append_extractLsb' (w := 6) (len := 6)).symm⟩
  rw [show 0xC30#12 = 0x30#6 ++ 0x30#6 from rfl, BitVec.and_append] at h
  have hx : x &&& 0x30#6 = tag ++ 0#4 := by
    simpa only [BitVec.extractLsb'_append_eq_left] using congrArg (BitVec.extractLsb' 6 6) h
  have hy : y &&& 0x30#6 = tag ++ 0#4 := by
    simpa only [BitVec.extractLsb'_append_eq_right] using congrArg (BitVec.extractLsb' 0 6) h
  rw [BitVec.extractLsb'_append_eq_of_le (by decide), BitVec.extractLsb'_append_eq_of_add_le (by decide)]
  exact congrArg₂ BitVec.append (image_of_row tag x hx) (image_of_row tag y hy)

theorem encode_of_decodeBus12 {w : BitVec 12} {i : Instr} (h : decodeBus12 w = .ok i) : encode i = .bus12 w := by
  unfold decodeBus12 at h
  split at h
  · next hrow =>
    cases h
    exact congrArg FormatWord.bus12 (images_of_row 0b00#2 w (beq_iff_eq.mp hrow))
  · split at h
    · next hrow =>
      cases h
      exact congrArg FormatWord.bus12 (images_of_row 0b10#2 w (beq_iff_eq.mp hrow))
    · cases h

theorem encode_of_decodeCmd8 {w : Byte} {i : Instr} (h : decodeCmd8 w = .ok i) : encode i = .cmd8 w := by
  have haddr : ∀ w : Byte, w &&& 0x80#8 = 0x80#8 → 0b1#1 ++ w.extractLsb' 0 7 = w := by decide
  unfold decodeCmd8 at h
  simp only [beq_iff_eq] at h
  split_ifs at h with h1 h2 h3 h4 h5 hrow <;> cases h
  · rw [h1, encode]
  · rw [h2, encode]
  · rw [h3, encode]
  · rw [h4, encode]
  · rw [h5, encode]
  · exact congrArg FormatWord.cmd8 (haddr w (beq_iff_eq.mp hrow))

/-- Settles O3: format by format, what decodes lies in a row and is the word of that row's instruction. -/
theorem decodedWordsHaveOneEncoding : Obligations.DecodedWordsHaveOneEncoding := by
  unfold Obligations.DecodedWordsHaveOneEncoding
  intro w i h
  cases w with
  | req20 w => exact encode_of_decodeReq h
  | bus6 w => exact encode_of_decodeBus6 h
  | bus12 w => exact encode_of_decodeBus12 h
  | cmd8 w => exact encode_of_decodeCmd8 h

/-! ### Decoding what is encoded -/

theorem decode_bus6 (n : Nibble) :
    decode (.bus6 (0b00#2 ++ n)) = .ok (.busCmdNibble n) ∧ decode (.bus6 (0b10#2 ++ n)) = .ok (.busDataNibble n) := by
  revert n
  decide

theorem wire_nibbles (tag : BitVec 2) (h l : Nibble) :
    ((tag ++ h) ++ (tag ++ l)).extractLsb' 6 4 = h ∧ ((tag ++ h) ++ (tag ++ l)).extractLsb' 0 4 = l := by
  constructor
  · exact (BitVec.extractLsb'_append_eq_of_le (by decide)).trans BitVec.extractLsb'_append_eq_right
  · exact (BitVec.extractLsb'_append_eq_of_add_le (by decide)).trans BitVec.extractLsb'_append_eq_right

theorem decode_bus12 (h l : Nibble) :
    decode (.bus12 ((0b00#2 ++ h) ++ (0b00#2 ++ l))) = .ok (.busWriteCmd h l)
      ∧ decode (.bus12 ((0b10#2 ++ h) ++ (0b10#2 ++ l))) = .ok (.busWriteData h l) := by
  have hcmd : ((0b00#2 ++ h) ++ (0b00#2 ++ l)) &&& 0xC30#12 = 0x000#12 := Laws.InRow.busWriteCmd h l
  have hdata : ((0b10#2 ++ h) ++ (0b10#2 ++ l)) &&& 0xC30#12 = 0x820#12 := Laws.InRow.busWriteData h l
  obtain ⟨hch, hcl⟩ := wire_nibbles 0b00#2 h l
  obtain ⟨hdh, hdl⟩ := wire_nibbles 0b10#2 h l
  constructor
  · simp only [decode, decodeBus12, rowHit, hcmd, beq_self_eq_true, if_true, hch, hcl]
  · simp only [decode, decodeBus12, rowHit, hdata, beq_self_eq_true, if_true, hdh, hdl]
    rfl

theorem decode_cmdSetDdramAddr : ∀ addr : BitVec 7, decode (.cmd8 (0b1#1 ++ addr)) = .ok (.cmdSetDdramAddr addr) := by
  decide

/-- An instruction whose word lies in row `k` of R72, which reads it as that instruction. -/
theorem decode_encode_of_row {i : Instr} {w : BitVec 20} (k : Nat) (hword : encode i = .req20 w)
    {hk : k < reqRows.length} (hrow : w &&& reqRows[k].mask = reqRows[k].pat) (hinstr : reqRows[k].instr w = i) :
    decode (encode i) = .ok i := by
  rw [hword]
  exact (decodeReq_eq_ok_iff w i).mpr ⟨reqRows[k], List.getElem_mem _, beq_iff_eq.mpr hrow, hinstr.symm⟩

/-- The row of NIBBLE reads its operands back. -/
theorem nibbleRow_reads (rs : Bool) (n : Nibble) :
    (reqWord 0x9#4 (0#7 ++ BitVec.ofBool rs) (0#4 ++ n)).getLsbD 8 = rs
      ∧ (reqWord 0x9#4 (0#7 ++ BitVec.ofBool rs) (0#4 ++ n)).extractLsb' 0 4 = n := by
  constructor
  · rw [getLsbD_eight, reqA_reqWord]
    cases rs <;> rfl
  · exact (BitVec.extractLsb'_append_eq_of_add_le (by decide)).trans BitVec.extractLsb'_append_eq_right

/-- Settles O2: an encoded word lies in its instruction's row, and the row reads the operands back. -/
theorem encodeThenDecodeGivesTheInstruction : Obligations.EncodeThenDecodeGivesTheInstruction := by
  unfold Obligations.EncodeThenDecodeGivesTheInstruction
  intro i _
  cases i with
  | init g m =>
    exact decode_encode_of_row (hk := by decide) 0 rfl (Laws.InRow.init g m)
      (congrArg₂ Instr.init (reqA_reqWord ..) (reqB_reqWord ..))
  | gotoxy x y =>
    exact decode_encode_of_row (hk := by decide) 3 rfl (Laws.InRow.gotoxy x y)
      (congrArg₂ Instr.gotoxy (reqA_reqWord ..) (reqB_reqWord ..))
  | nibble rs n =>
    obtain ⟨hrs, hn⟩ := nibbleRow_reads rs n
    exact decode_encode_of_row (hk := by decide) 6 rfl (Laws.InRow.nibble rs n) (congrArg₂ Instr.nibble hrs hn)
  | writeCmd v =>
    exact decode_encode_of_row (hk := by decide) 7 rfl (Laws.InRow.writeCmd v)
      (congrArg Instr.writeCmd (reqB_reqWord ..))
  | writeData v =>
    exact decode_encode_of_row (hk := by decide) 8 rfl (Laws.InRow.writeData v)
      (congrArg Instr.writeData (reqB_reqWord ..))
  | busCmdNibble n => exact (decode_bus6 n).1
  | busDataNibble n => exact (decode_bus6 n).2
  | busWriteCmd h l => exact (decode_bus12 h l).1
  | busWriteData h l => exact (decode_bus12 h l).2
  | cmdSetDdramAddr addr => exact decode_cmdSetDdramAddr addr
  | _ => rfl

/-- Settles O1: the seven words decoded by evaluation. -/
theorem decodesTheSpecsWords : Obligations.DecodesTheSpecsWords := by
  unfold Obligations.DecodesTheSpecsWords
  decide

end Sys2Proof
end

section
/-! The one pending request of an idle engine (30_encoding.md R71, R79): its instruction is executed, and what is
illegal is refused with nothing but its RET. -/

namespace Sys2Proof.Machine

theorem refuseErr_onlyReturns (c : Cause) (s : State) : OnlyReturns (.err c) s (refuseErr c s) :=
  ⟨rfl, rfl, ⟨rfl, rfl, rfl, rfl, rfl⟩, ⟨rfl, rfl, rfl, rfl⟩, ⟨rfl, rfl, rfl⟩, ⟨rfl, rfl, rfl, rfl, rfl⟩⟩

theorem refuseNull_onlyReturns (c : Cause) (s : State) : OnlyReturns (.null c) s (refuseNull c s) :=
  ⟨rfl, rfl, ⟨rfl, rfl, rfl, rfl, rfl⟩, ⟨rfl, rfl, rfl, rfl⟩, ⟨rfl, rfl, rfl⟩, ⟨rfl, rfl, rfl, rfl, rfl⟩⟩

/-- Settles O6: the port has one request to serve, and serves it. -/
theorem stepRunsTheDecodedInstruction : Obligations.StepRunsTheDecodedInstruction := by
  unfold Obligations.StepRunsTheDecodedInstruction
  intro s r i hseq hpending hdecode _
  rw [step_of_one_request hseq hpending, serveRequest, hdecode]

/-- Settles O7: the port has one request to serve, and its word has no instruction. -/
theorem illegalWordIsRefused : Obligations.IllegalWordIsRefused := by
  unfold Obligations.IllegalWordIsRefused
  intro s r e hseq hpending hdecode
  refine ⟨_, ?_, refuseErr_onlyReturns _ _⟩
  rw [step_of_one_request hseq hpending, serveRequest, hdecode]

/-- Settles O32: the geometry code is checked before anything else (60_exceptions.md R148). -/
theorem initWithUnknownGeometryIsRefused : Obligations.InitWithUnknownGeometryIsRefused := by
  unfold Obligations.InitWithUnknownGeometryIsRefused
  intro s g m hg htable
  have hgeometry : geometryOf s.cfg g = none := by simp [geometryOf, hg, htable]
  exact ⟨_, if_pos hgeometry, refuseNull_onlyReturns _ _⟩

/-! ### Internal rows -/

/-- The level 1 operation an internal row runs (30_encoding.md R72, R74, R76, R77; log 12). -/
def level1Of : Instr → Option Level1
  | .configure => some .configure
  | .nibble rs n => some (.nibble rs n)
  | .writeCmd v => some (.byte false v)
  | .writeData v => some (.byte true v)
  | .busCmdNibble n => some (.nibble false n)
  | .busDataNibble n => some (.nibble true n)
  | .busWriteCmd h l => some (.byte false (h ++ l))
  | .busWriteData h l => some (.byte true (h ++ l))
  | .cmdClearDisplay => some (.byte false 0x01#8)
  | .cmdReturnHome => some (.byte false 0x02#8)
  | .cmdEntryModeSet => some (.byte false 0x06#8)
  | .cmdDisplayOn => some (.byte false 0x0C#8)
  | .cmdFunctionSet => some (.byte false 0x28#8)
  | .cmdSetDdramAddr addr => some (.byte false (0b1#1 ++ addr))
  | _ => none

/-- The two ways to write a command byte of a DDRAM address agree (30_encoding.md R78). -/
theorem setDdramByte_toNat : ∀ addr : BitVec 7, setDdramByte addr.toNat = 0b1#1 ++ addr := by decide

theorem exec_of_level1 {i : Instr} {x : Level1} (h : level1Of i = some x) (s : State) : exec i s = internalOp x s := by
  cases i with
  | cmdSetDdramAddr addr =>
    cases h
    rw [← setDdramByte_toNat]
    rfl
  | _ => cases h <;> rfl

theorem exists_level1_of_internal {i : Instr} (h : i.isPublic = false) : ∃ x, level1Of i = some x := by
  cases i with
  | init g m => cases h
  | clear => cases h
  | home => cases h
  | gotoxy x y => cases h
  | writeString => cases h
  | _ => exact ⟨_, rfl⟩

/-- Settles O8: an internal row is a level 1 operation, which a caller may not present. -/
theorem internalWordsAreRefusedAtThePublicPort : Obligations.InternalWordsAreRefusedAtThePublicPort := by
  unfold Obligations.InternalWordsAreRefusedAtThePublicPort
  intro s i hi hcaller
  obtain ⟨x, hx⟩ := exists_level1_of_internal hi
  exact ⟨_, (exec_of_level1 hx s).trans (if_pos hcaller), refuseErr_onlyReturns _ _⟩

/-! ### A level 1 operation run whole -/

theorem internalOp_of_ready {s : State} (h : Level1Ready s) (x : Level1) :
    internalOp x s = .next (runOp s.cur.requester (.level1 x) (level1Code s.cfg x) s) := by
  obtain ⟨hinternal, hidle, -⟩ := h
  rw [internalOp, if_neg (by simp [hinternal]), if_neg (not_not.2 hidle)]

/-- What a level 1 operation with the events `evs` and the result `r` leaves (41_nibble_transfer.md R100, R104). -/
structure Transferred (evs : List Event) (r : Result) (s t : State) : Prop where
  trace : t.trace = s.trace ++ evs
  calls : t.calls = s.calls ++ callsOf s.pinMapInUse evs
  latched : ∃ imgs, t.latched = s.latched ++ imgs ∧ EdgesOf s.pins evs imgs
  pins : t.pins = driveAll evs s.pins
  dirs : t.dirs = configAll evs s.dirs
  now : s.now + waitedMs evs ≤ t.now
  result : t.result = some r
  handle : KeepsHandle s t
  sequencer : KeepsSequencer s t
  port : KeepsPort s t

/-- A level 1 operation of the events `evs` with `n` GPIO calls, all answered ok. -/
theorem internalOp_ok {s : State} (hr : Level1Ready s) {x : Level1} {evs : List Event} {n : Nat}
    (hevs : codeEvents (level1Code s.cfg x) = evs) (hn : codeCalls (level1Code s.cfg x) = n) (hg : GpioOk n s) :
    ∃ t, internalOp x s = .next t ∧ Transferred evs .ok s t ∧ t.env.gpio = s.env.gpio.drop n := by
  subst hevs hn
  have ⟨_, hidle, hwhole⟩ := hr
  obtain ⟨t, hrun, he, hgpio⟩ := runLevel1_ok s.cur.requester hwhole hg
  refine ⟨_, internalOp_of_ready hr x, ?_⟩
  rw [hrun]
  exact ⟨⟨he.trace, he.calls, he.latched, he.pins, he.dirs, he.now, rfl,
    ⟨he.handle, he.config, he.pinMap, he.dispatch⟩, ⟨hidle.symm, he.lock, he.text⟩,
    ⟨he.cfg, he.otherPins, he.pending, he.cur, he.grain⟩⟩, hgpio⟩

/-- A level 1 operation of the events `evs` with `n` GPIO calls, aborted at call `k`. -/
theorem internalOp_fail {s : State} (hr : Level1Ready s) {x : Level1} {evs : List Event} {n k : Nat}
    (hevs : codeEvents (level1Code s.cfg x) = evs) (hn : codeCalls (level1Code s.cfg x) = n) (hk : k < n)
    (hg : GpioFailsAt k s) :
    ∃ t f, internalOp x s = .next t ∧ lastCause (cutAt k evs) = some f
      ∧ Transferred (cutAt k evs) (.err (.gpio f)) s t := by
  subst hevs hn
  have ⟨_, hidle, hwhole⟩ := hr
  obtain ⟨t, f, hrun, he, hcause⟩ := runLevel1_fail s.cur.requester hwhole hk hg
  refine ⟨_, f, internalOp_of_ready hr x, hcause, ?_⟩
  rw [hrun]
  exact ⟨he.trace, he.calls, he.latched, he.pins, he.dirs, he.now.trans (Nat.le_add_right ..), rfl,
    ⟨he.handle, he.config, he.pinMap, he.dispatch⟩, ⟨hidle.symm, he.lock, he.text⟩,
    ⟨he.cfg, he.otherPins, he.pending, he.cur, he.grain⟩⟩

/-- An aborted level 1 operation that configures no pin and whose images its events determine. -/
theorem Transferred.aborted {evs : List Event} {f : GpioCause} {imgs : List Image} {s t : State}
    (h : Transferred evs (.err (.gpio f)) s t) (hcause : lastCause evs = some f) (hdirs : configAll evs s.dirs = s.dirs)
    (himgs : ∀ {x}, EdgesOf s.pins evs x → x = imgs) : TransferAborted evs imgs s t := by
  obtain ⟨x, hlatched, hx⟩ := h.latched
  exact ⟨f, hcause, h.trace, h.calls, himgs hx ▸ hlatched, h.pins, h.now, h.result, h.dirs.trans hdirs, h.handle,
    h.sequencer, h.port⟩

/-! ### NIBBLE -/

/-- An aborted NIBBLE latches nothing, and leaves EN high only where its last call failed
(41_nibble_transfer.md R104). -/
theorem cutAt_nibbleEvents (t : Nat) (rs : Bool) (n : Nibble) (pins : PerPin Level) (dirs : PerPin Dir) {k : Nat}
    (hk : k < 8) :
    configAll (cutAt k (nibbleEvents t rs n)) dirs = dirs
      ∧ (∀ {imgs}, EdgesOf pins (cutAt k (nibbleEvents t rs n)) imgs → imgs = [])
      ∧ (driveAll (cutAt k (nibbleEvents t rs n)) pins).en = if k = 7 then .high else pins.en := by
  refine ⟨?_, fun {imgs} h => ?_, ?_⟩
  · interval_cases k <;> rfl
  · interval_cases k <;> simpa [nibbleEvents, cutAt, EdgesOf, EdgeOf] using h
  · interval_cases k <;> rfl

theorem nibbleRule_of_level1 {i : Instr} {rs : Bool} {n : Nibble} (hi : level1Of i = some (.nibble rs n)) :
    NibbleRule i rs n := by
  refine ⟨fun s hr hg => ?_, fun s k hr hk hg => ?_⟩
  · rw [exec_of_level1 hi]
    obtain ⟨t, ht, h, hgpio⟩ := internalOp_ok hr (x := .nibble rs n) rfl rfl hg
    obtain ⟨imgs, hlatched, himgs⟩ := h.latched
    rw [EdgesOf_nibbleEvents himgs] at hlatched
    exact ⟨t, ht, h.trace, h.calls, hlatched, h.pins,
      waitedMs_nibbleEvents s.cfg.strobeMs rs n ▸ h.now, h.result, hgpio, h.dirs, h.handle, h.sequencer, h.port⟩
  · rw [exec_of_level1 hi]
    obtain ⟨t, f, ht, hcause, h⟩ := internalOp_fail hr (x := .nibble rs n) rfl rfl hk hg
    obtain ⟨hdirs, himgs, hen⟩ := cutAt_nibbleEvents s.cfg.strobeMs rs n s.pins s.dirs hk
    exact ⟨t, ht, h.aborted hcause hdirs himgs, h.pins ▸ hen⟩

/-- Settles O26: a BUS6 row runs the NIBBLE that produces its image. -/
theorem busNibbleRowsShowTheirImage : Obligations.BusNibbleRowsShowTheirImage := by
  unfold Obligations.BusNibbleRowsShowTheirImage
  intro i rs n h
  refine nibbleRule_of_level1 ?_
  cases i <;> cases h <;> rfl

/-! ### BYTE -/

theorem cutAt_byteEvents_high (t : Nat) (rs : Bool) (v : Byte) {k : Nat} (hk : k < 8) :
    cutAt k (byteEvents t rs v) = cutAt k (nibbleEvents t rs (hiNibble v)) := by
  interval_cases k <;> rfl

theorem cutAt_byteEvents_low (t : Nat) (rs : Bool) (v : Byte) (k : Nat) :
    cutAt (k + 8) (byteEvents t rs v) = nibbleEvents t rs (hiNibble v) ++ cutAt k (nibbleEvents t rs (loNibble v)) :=
  rfl

/-- An aborted byte transfer latches the high nibble exactly when it was completed (41_nibble_transfer.md R101). -/
theorem cutAt_byteEvents (t : Nat) (rs : Bool) (v : Byte) (pins : PerPin Level) (dirs : PerPin Dir) {k : Nat}
    (hk : k < 16) :
    configAll (cutAt k (byteEvents t rs v)) dirs = dirs
      ∧ ∀ {imgs}, EdgesOf pins (cutAt k (byteEvents t rs v)) imgs →
          imgs = if k < 8 then [] else [nibbleImage rs (hiNibble v)] := by
  by_cases hhigh : k < 8
  · obtain ⟨hdirs, himgs, -⟩ := cutAt_nibbleEvents t rs (hiNibble v) pins dirs hhigh
    rw [cutAt_byteEvents_high t rs v hhigh, if_pos hhigh]
    exact ⟨hdirs, himgs⟩
  · obtain ⟨j, rfl⟩ : ∃ j, k = j + 8 := ⟨k - 8, by omega⟩
    obtain ⟨hdirs, himgs, -⟩ :=
      cutAt_nibbleEvents t rs (loNibble v) (driveAll (nibbleEvents t rs (hiNibble v)) pins) dirs (k := j) (by omega)
    rw [cutAt_byteEvents_low, if_neg hhigh, configAll_append, configAll_nibbleEvents]
    refine ⟨hdirs, fun {imgs} h => ?_⟩
    obtain ⟨x, y, rfl, hx, hy⟩ := h.split
    rw [EdgesOf_nibbleEvents hx, himgs hy, List.append_nil]

theorem byteRule_of_level1 {i : Instr} {rs : Bool} {v : Byte} (hi : level1Of i = some (.byte rs v)) :
    ByteRule i rs v := by
  refine ⟨fun s hr hg => ?_, fun s k hr hk hg => ?_⟩
  · rw [exec_of_level1 hi]
    obtain ⟨t, ht, h, hgpio⟩ := internalOp_ok hr (x := .byte rs v) (codeEvents_sendByte ..) (codeCalls_sendByte ..) hg
    obtain ⟨imgs, hlatched, himgs⟩ := h.latched
    rw [EdgesOf_byteEvents himgs] at hlatched
    exact ⟨t, ht, h.trace, h.calls, hlatched, h.pins,
      waitedMs_byteEvents s.cfg.strobeMs rs v ▸ h.now, h.result, hgpio, h.dirs, h.handle, h.sequencer, h.port⟩
  · rw [exec_of_level1 hi]
    obtain ⟨t, f, ht, hcause, h⟩ :=
      internalOp_fail hr (x := .byte rs v) (codeEvents_sendByte ..) (codeCalls_sendByte ..) hk hg
    obtain ⟨hdirs, himgs⟩ := cutAt_byteEvents s.cfg.strobeMs rs v s.pins s.dirs hk
    exact ⟨t, ht, h.aborted hcause hdirs himgs⟩

/-- Settles O27: a BUS12 or CMD8 row runs the transfer of its byte. -/
theorem wireAndCommandRowsSendTheirByte : Obligations.WireAndCommandRowsSendTheirByte := by
  unfold Obligations.WireAndCommandRowsSendTheirByte
  intro i rs v h
  refine byteRule_of_level1 ?_
  cases i <;> cases h <;> rfl

end Sys2Proof.Machine
end

section
/-! No image shows RW set (30_encoding.md R80 (a)): no micro-step drives RW high, and every transfer and CONFIGURE drive
it low before the SET(EN,0) that shows an image. -/

namespace Sys2Proof.Machine

/-! ### States and what they show -/

/-- On the way from `s` to `t` EN stays driven, RW stays low where it was, and no image shows RW set. -/
structure ShowsNoRead (s t : State) : Prop where
  en : s.pins.en ≠ .unknown → t.pins.en ≠ .unknown
  rw : s.pins.rw = .low → t.pins.rw = .low
  images : ∃ imgs, t.latched = s.latched ++ imgs ∧ ∀ img ∈ imgs, img.getLsbD 4 = false

theorem ShowsNoRead.of_same {s t : State} (pins : t.pins = s.pins) (latched : t.latched = s.latched) :
    ShowsNoRead s t :=
  ⟨fun h => pins ▸ h, fun h => pins ▸ h, [], by rw [latched, List.append_nil], List.forall_mem_nil _⟩

theorem ShowsNoRead.trans {s t u : State} (h : ShowsNoRead s t) (h' : ShowsNoRead t u) : ShowsNoRead s u := by
  obtain ⟨a, ha, hca⟩ := h.images
  obtain ⟨b, hb, hcb⟩ := h'.images
  exact ⟨h'.en ∘ h.en, h'.rw ∘ h.rw, a ++ b, by rw [hb, ha, List.append_assoc], List.forall_mem_append.2 ⟨hca, hcb⟩⟩

/-! ### One event -/

theorem busImage_getLsbD_four (free : Image) (pins : PerPin Level) :
    (busImage free pins).getLsbD 4 = pins.rw.toBool (free.getLsbD 4) := by
  have hbit : ∀ a b c d e f : Bool, (BitVec.ofBool a ++ BitVec.ofBool b ++ BitVec.ofBool c ++ BitVec.ofBool d
      ++ BitVec.ofBool e ++ BitVec.ofBool f).getLsbD 4 = b := by decide
  exact hbit ..

theorem driveEvent_en {pins : PerPin Level} (h : pins.en ≠ .unknown) (e : Event) :
    (driveEvent pins e).en ≠ .unknown := by
  cases e with
  | set p v ok =>
    cases ok with
    | false => exact h
    | true =>
      cases p with
      | en => cases v <;> simp [driveEvent, PerPin.set, Level.ofBool]
      | _ => exact h
  | _ => exact h

theorem driveEvent_rw_low {e : Event} (he : e ≠ .set .rw true true) {pins : PerPin Level} (h : pins.rw = .low) :
    (driveEvent pins e).rw = .low := by
  cases e with
  | set p v ok =>
    cases ok with
    | false => exact h
    | true =>
      cases p with
      | rw =>
        cases v with
        | false => rfl
        | true => exact absurd rfl he
      | _ => exact h
  | _ => exact h

/-- With EN driven, and RW low at a SET(EN,0), no image of an event shows RW set. -/
theorem EdgeOf.getLsbD_four {pins : PerPin Level} {e : Event} {imgs : List Image} (h : EdgeOf pins e imgs)
    (hen : pins.en ≠ .unknown) (hrw : pins.rw = .low ∨ e ≠ .set .en false true) :
    ∀ img ∈ imgs, img.getLsbD 4 = false := by
  unfold EdgeOf EdgeImages at h
  split at h
  · next he =>
    have hlow := hrw.resolve_right (not_not.2 he)
    cases hp : pins.en with
    | low =>
      simp only [hp] at h
      simp [h]
    | unknown => exact absurd hp hen
    | high =>
      simp only [hp] at h
      obtain ⟨free, rfl⟩ := h
      rw [List.forall_mem_singleton, busImage_getLsbD_four, hlow, Level.toBool_low]
  · simp [h]

/-! ### One micro-step -/

/-- A micro-step that is no pin activity drives nothing and shows nothing. -/
theorem Micro.act_pins_of_not_isPin {m : Micro} (hm : m.isPin = false) (s : State) :
    (m.act s).1.pins = s.pins ∧ (m.act s).1.latched = s.latched := by
  cases m with
  | cfg p => cases hm
  | set p v => cases hm
  | sleep t => cases hm
  | alloc g md pm =>
    obtain ⟨b, env, hd, -⟩ := drawAlloc_spec s
    simp only [Micro.act, allocHandle, hd]
    cases b <;> exact ⟨rfl, rfl⟩
  | mkLock =>
    simp only [Micro.act, makeLock]
    split <;> exact ⟨rfl, rfl⟩
  | acq c =>
    simp only [Micro.act, lockAcquire]
    split <;> exact ⟨rfl, rfl⟩
  | fetch i =>
    simp only [Micro.act, textRead]
    split <;> exact ⟨rfl, rfl⟩
  | release c =>
    simp only [Micro.act, releaseOk, lockRelease]
    split <;> exact ⟨rfl, rfl⟩
  | _ => exact ⟨rfl, rfl⟩

/-- A micro-step of pin activity appends its one event; a call that succeeded is the one it makes. -/
theorem Micro.act_event {m : Micro} (hm : m.isPin = true) (s : State) :
    ∃ e, PinEffect [e] s (m.act s).1 ∧ ∀ p v, e = .set p v true → m = .set p v := by
  cases m with
  | cfg p =>
    obtain ⟨b, he, -⟩ := gpioCfg_spec p s
    exact ⟨_, he, nofun⟩
  | set p v =>
    obtain ⟨b, he, -⟩ := gpioSet_spec p v s
    exact ⟨_, he, fun _ _ h => by cases h; rfl⟩
  | sleep t => exact ⟨_, sleepFor_spec t s, nofun⟩
  | _ => cases hm

theorem Micro.act_showsNoRead {m : Micro} (hm : m ≠ .set .rw true) {s : State} (hen : s.pins.en ≠ .unknown)
    (hrw : s.pins.rw = .low ∨ m ≠ .set .en false) : ShowsNoRead s (m.act s).1 := by
  cases hp : m.isPin with
  | false =>
    obtain ⟨hpins, hlatched⟩ := m.act_pins_of_not_isPin hp s
    exact .of_same hpins hlatched
  | true =>
    obtain ⟨e, he, hset⟩ := Micro.act_event hp s
    obtain ⟨imgs, hlatched, x, y, rfl, hx, rfl⟩ := he.latched
    refine ⟨fun h => ?_, fun h => ?_, x ++ [], hlatched, ?_⟩
    · rw [he.pins]
      exact driveEvent_en h e
    · rw [he.pins]
      exact driveEvent_rw_low (fun h => hm (hset _ _ h)) h
    · rw [List.append_nil]
      exact hx.getLsbD_four hen (hrw.imp_right fun hne h => hne (hset _ _ h))

/-- A SET(RW,0) answered ok leaves RW low. -/
theorem Micro.act_lowers_rw {s : State} (h : ((Micro.set .rw false).act s).2 = none) :
    ((Micro.set .rw false).act s).1.pins.rw = .low := by
  obtain ⟨evs, he, ⟨-, rfl⟩ | ⟨f, hf, -⟩⟩ := Micro.act_pin (m := .set .rw false) rfl s
  · rw [he.pins]
    rfl
  · rw [h] at hf
    cases hf

/-! ### The micro-steps of the operations -/

/-- No micro-step drives RW high. -/
def NeverRaisesRw (code : Code) : Prop := ∀ pm ∈ code, pm.2 ≠ .set .rw true

/-- RW is driven low before EN is. -/
def LowersRwFirst : Code → Prop
  | [] => True
  | pm :: rest => pm.2 = .set .rw false ∨ (pm.2 ≠ .set .en false ∧ LowersRwFirst rest)

/-- Past a micro-step that is not the SET(EN,0). -/
theorem LowersRwFirst.cons {pm : Pos × Micro} {code : Code} (hne : pm.2 ≠ .set .en false) (h : LowersRwFirst code) :
    LowersRwFirst (pm :: code) := .inr ⟨hne, h⟩

theorem LowersRwFirst.head_ne {pm : Pos × Micro} {code : Code} (h : LowersRwFirst (pm :: code)) :
    pm.2 ≠ .set .en false := by
  rcases h with hlow | ⟨hne, -⟩
  · simp [hlow]
  · exact hne

theorem sendByte_lowersRwFirst (t : Nat) (ph : Phase) (rs : Bool) (v : Byte) (rest : Code) :
    LowersRwFirst (sendByte t ph rs v ++ rest) := .cons nofun (.inl rfl)

theorem configureCode_lowersRwFirst (rest : Code) : LowersRwFirst (configureCode ++ rest) := by
  simp [configureCode, configurePhases, Role.order, plain, LowersRwFirst]

theorem IsBody.neverRaisesRw {ok : Phase → Bool} {code : Code} (h : IsBody ok code) : NeverRaisesRw code :=
  fun pm hpm he => by
    have hbody := (h pm hpm).2
    rw [he] at hbody
    cases hbody

/-- INIT of a mode that has no strategies is its check alone (42_init_sequence.md R114). -/
theorem initCode_cases (cfg : Config) (c : Requester) (g m : Byte) (pm : PinMap) :
    m = 0x00#8 ∨ initCode cfg c g m pm = [plain .check (.modeCheck m)] := by
  cases hmode : Mode.ofCode m with
  | none => exact .inr (by simp [initCode, hmode])
  | some md =>
    cases md with
    | bit4 => exact .inl (Mode.eq_zero_of_bit4 hmode)
    | bit8 => exact .inr (by simp [initCode, hmode, DispatchTable.forMode])
    | serial => exact .inr (by simp [initCode, hmode, DispatchTable.forMode])

theorem opCode_neverRaisesRw {c : Requester} {op : Op} {s : State} {code : Code} (h : opCode c op s = some code) :
    NeverRaisesRw code := by
  rcases op.kinds with hop | ⟨g, m, pm, rfl⟩ | ⟨x, rfl⟩
  · rcases opCode_onHandle hop h with ⟨body, hbody, rfl⟩ | ⟨x, y, -, -, rfl⟩
    · simp only [NeverRaisesRw, List.forall_mem_cons, List.forall_mem_append]
      exact ⟨nofun, hbody.neverRaisesRw, nofun, List.forall_mem_nil _⟩
    · simp [NeverRaisesRw, plain]
  · obtain rfl := Option.some.inj h
    rcases initCode_cases s.cfg c g m pm with rfl | hcheck
    · rw [initCode_bit4]
      simp only [NeverRaisesRw, List.forall_mem_cons, List.forall_mem_append]
      exact ⟨nofun, nofun, nofun, (initBody_isBody _).neverRaisesRw, nofun, nofun, List.forall_mem_nil _⟩
    · simp [hcheck, NeverRaisesRw, plain]
  · obtain rfl := Option.some.inj h
    exact (level1Code_isBody _ x).neverRaisesRw

theorem opCode_lowersRwFirst {c : Requester} {op : Op} {s : State} {code : Code} (h : opCode c op s = some code) :
    LowersRwFirst code := by
  cases op with
  | init g m pm =>
    obtain rfl := Option.some.inj h
    rcases initCode_cases s.cfg c g m pm with rfl | hcheck
    · exact .cons nofun (.cons nofun (.cons nofun (configureCode_lowersRwFirst _)))
    · rw [hcheck]
      exact .cons nofun trivial
  | clear =>
    obtain ⟨d, -, rfl⟩ := Option.map_eq_some_iff.mp h
    exact .cons nofun (sendByte_lowersRwFirst ..)
  | home =>
    obtain ⟨d, -, rfl⟩ := Option.map_eq_some_iff.mp h
    exact .cons nofun (sendByte_lowersRwFirst ..)
  | gotoxy x y =>
    obtain ⟨d, -, rfl⟩ := Option.map_eq_some_iff.mp h
    refine .cons nofun (.cons nofun ?_)
    split
    · exact sendByte_lowersRwFirst ..
    · trivial
  | writeString =>
    obtain ⟨d, -, rfl⟩ := Option.map_eq_some_iff.mp h
    refine .cons nofun ?_
    cases s.text with
    | nil => exact .cons nofun trivial
    | cons x text =>
      obtain ⟨i, b⟩ := x
      refine .cons nofun ?_
      split
      · exact .cons nofun trivial
      · exact .cons nofun (.inl rfl)
  | level1 x =>
    obtain rfl := Option.some.inj h
    cases x with
    | configure => exact configureCode_lowersRwFirst []
    | nibble rs n => exact .cons nofun (.inl rfl)
    | byte rs v => exact .cons nofun (.inl rfl)

/-! ### Running an operation -/

/-- With EN driven, code that lowers RW before it drives EN, or begins with RW low, shows no image with RW set. -/
theorem runCode_showsNoRead (g : Grain) {code : Code} (hcode : NeverRaisesRw code) {s : State}
    (hen : s.pins.en ≠ .unknown) (hrw : s.pins.rw = .low ∨ LowersRwFirst code) :
    ShowsNoRead s (runCode g code s).1 := by
  induction code generalizing s with
  | nil => exact .of_same rfl rfl
  | cons x code ih =>
    obtain ⟨pos, m⟩ := x
    obtain ⟨hm, hrest⟩ := List.forall_mem_cons.1 hcode
    have hfirst : ShowsNoRead s (m.act s).1 := Micro.act_showsNoRead hm hen (hrw.imp_right fun h => h.head_ne)
    rcases runCode_cons g pos m code s with ⟨f, -, he⟩ | ⟨-, -, q, -, -, -, he⟩ | ⟨hok, -, he⟩ <;> rw [he]
    · exact hfirst
    · exact hfirst
    · refine hfirst.trans (ih hrest (hfirst.en hen) ?_)
      rcases hrw with hlow | hlow | ⟨-, hlow⟩
      · exact .inl (hfirst.rw hlow)
      · obtain rfl : m = .set .rw false := hlow
        exact .inl (Micro.act_lowers_rw hok)
      · exact .inr hlow

theorem abortOp_pins (c : Requester) (op : Op) (f : Cause) (s : State) :
    (abortOp c op f s).pins = s.pins ∧ (abortOp c op f s).latched = s.latched := by
  cases op <;> simp only [abortOp, unwind, retFailure, lockRelease] <;> repeat' split
  all_goals exact ⟨rfl, rfl⟩

theorem settleRun_pins (g : Grain) (c : Requester) (op : Op) (r : State × Halt) :
    (settleRun g c op r).pins = r.1.pins ∧ (settleRun g c op r).latched = r.1.latched := by
  obtain ⟨t, halt⟩ := r
  cases halt with
  | done => cases op <;> exact ⟨rfl, rfl⟩
  | paused q => exact ⟨rfl, rfl⟩
  | failed pos f =>
    cases g with
    | micro => exact ⟨rfl, rfl⟩
    | whole => exact abortOp_pins c op _ t

theorem runOp_showsNoRead (c : Requester) (op : Op) {code : Code} (hcode : NeverRaisesRw code) {s : State}
    (hen : s.pins.en ≠ .unknown) (hrw : s.pins.rw = .low ∨ LowersRwFirst code) : ShowsNoRead s (runOp c op code s) := by
  obtain ⟨hpins, hlatched⟩ := settleRun_pins s.grain c op (runCode s.grain code s)
  exact (runCode_showsNoRead s.grain hcode hen hrw).trans (.of_same hpins hlatched)

/-! ### Instructions and steps -/

/-- What is presented shows no image with RW set, whatever RW was. -/
theorem Presented.showsNoRead {s t : State} {o : Grain → Host.Outcome State Fault Refusal} (h : Presented s o)
    (hen : s.pins.en ≠ .unknown) {g : Grain} (ho : o g = .next t) : ShowsNoRead s t := by
  cases h with
  | refusedErr c => cases ho; exact .of_same rfl rfl
  | refusedNull c => cases ho; exact .of_same rfl rfl
  | waits => cases ho; exact .of_same rfl rfl
  | faulty _ => cases ho
  | refused _ => cases ho
  | begins op code _ _ hcode =>
    cases ho
    have hrun := runOp_showsNoRead s.cur.requester op (s := { s with grain := g, text := opText op s })
      (opCode_neverRaisesRw hcode) hen (.inr (opCode_lowersRwFirst hcode))
    exact ⟨hrun.en, hrun.rw, hrun.images⟩

/-- Settles O54: every transfer and CONFIGURE lower RW before the SET(EN,0) of their first image. -/
theorem noImageHasReadSet : Obligations.NoImageHasReadSet := by
  unfold Obligations.NoImageHasReadSet
  intro i s t hen hexec
  exact ((exec_presented i s).showsNoRead hen (g := s.grain) hexec).images

theorem Moves.showsNoRead {s t : State} (h : Moves s (.next t)) (hen : s.pins.en ≠ .unknown)
    (hrw : s.pins.rw = .low) : ShowsNoRead s t := by
  generalize ho : Host.Outcome.next t = o at h
  cases h with
  | idles hseq => cases ho; exact .of_same rfl rfl
  | aborts hseq hpos =>
    cases ho
    obtain ⟨hpins, hlatched⟩ := abortOp_pins ..
    exact .of_same hpins hlatched
  | goesOn hseq hpos hcode =>
    cases ho
    exact runOp_showsNoRead _ _ (fun pm hpm => opCode_neverRaisesRw hcode pm (codeFrom_subset _ _ hpm)) hen (.inl hrw)
  | isStuck hseq hpos hcode => cases ho
  | presents hp => exact hp.showsNoRead hen ho.symm

/-- Settles O55: RW is low when a step begins, and no micro-step of an operation raises it. -/
theorem noStepFromALowRwLatchesARead : Obligations.NoStepFromALowRwLatchesARead := by
  unfold Obligations.NoStepFromALowRwLatchesARead
  intro s t hrw hen hstep
  obtain ⟨left, r, env, hmoves⟩ := step_moves s
  rw [hstep] at hmoves
  have h := hmoves.showsNoRead hen hrw
  exact ⟨h.rw hrw, h.en hen, h.images⟩

end Sys2Proof.Machine
end

section
/-! Configure calls, set calls and sleeps by the one event each appends (40_pin_configuration.md R90 to R92), and
CONFIGURE by its fourteen (R93, R94). -/

namespace Sys2Proof.Machine

/-! ### What pin activity leaves alone, and the pins it is made on -/

theorem PinEffect.onlyPins {evs : List Event} {s t : State} (h : PinEffect evs s t) : OnlyPins s t :=
  ⟨⟨h.handle, h.config, h.pinMap, h.dispatch⟩, ⟨h.seq, h.lock, h.text⟩,
    ⟨h.cfg, h.otherPins, h.pending, h.cur, h.grain⟩, h.result⟩

/-- Where PINMAP exists it is the pin map in use (10_state.md R29). -/
theorem State.pinMapInUse_of_some {s : State} {pm : PinMap} (h : s.pinMap = some pm) : s.pinMapInUse = pm := by
  rw [State.pinMapInUse, h]

theorem PinEffect.calls_of_pinMap {evs : List Event} {s t : State} (h : PinEffect evs s t) (pm : PinMap)
    (hpm : s.pinMap = some pm) : t.calls = s.calls ++ callsOf pm evs :=
  State.pinMapInUse_of_some hpm ▸ h.calls

/-! ### The images of an event, and of events that are no falling edge -/

/-- Only a SET(EN,0) answered ok can show an image (40_pin_configuration.md R91). -/
theorem edgeOf_set_iff {pins : PerPin Level} {p : Role} {v r : Bool} {imgs : List Image} :
    EdgeOf pins (.set p v r) imgs ↔
      if r = true ∧ p = .en ∧ v = false then EdgeImages pins imgs else imgs = [] := by
  have hedge : Event.set p v r = .set .en false true ↔ r = true ∧ p = .en ∧ v = false := by
    rw [Event.set.injEq]
    exact and_rotate.symm
  simp only [EdgeOf, hedge]

theorem edgesOf_singleton {pins : PerPin Level} {e : Event} {imgs : List Image} :
    EdgesOf pins [e] imgs ↔ EdgeOf pins e imgs := by
  simp [EdgesOf]

/-- Events with no SET(EN,0) answered ok show no image. -/
theorem edgesOf_iff_eq_nil {evs : List Event} (h : .set .en false true ∉ evs) {pins : PerPin Level}
    {imgs : List Image} : EdgesOf pins evs imgs ↔ imgs = [] := by
  induction evs generalizing pins imgs with
  | nil => rfl
  | cons e evs ih =>
    obtain ⟨he, hevs⟩ := List.ne_and_not_mem_of_not_mem_cons h
    simp [EdgesOf, EdgeOf, he.symm, ih hevs]

/-! ### One call, one sleep -/

/-- Settles O19: the call is described by its one event, which drives no line and shows no image. -/
theorem gpioCfgIsOneCall : Obligations.GpioCfgIsOneCall := by
  unfold Obligations.GpioCfgIsOneCall
  intro s p r rest hgpio
  obtain ⟨b, he, hraised, hanswer⟩ := gpioCfg_spec p s
  obtain ⟨rfl, hrest⟩ := hanswer r rest hgpio
  obtain ⟨imgs, hlatched, himgs⟩ := he.latched
  obtain rfl := (edgesOf_iff_eq_nil (by simp)).mp himgs
  refine ⟨_, Prod.ext rfl hraised, he.trace, he.calls_of_pinMap, ?_, he.pins,
    by simpa using hlatched, hrest, he.onlyPins⟩
  rw [he.dirs]
  cases b <;> rfl

/-- Settles O20: the call is described by its one event, which shows an image only where it is a SET(EN,0)
answered ok. -/
theorem gpioSetIsOneCall : Obligations.GpioSetIsOneCall := by
  unfold Obligations.GpioSetIsOneCall
  intro s p v r rest hgpio
  obtain ⟨b, he, hraised, hanswer⟩ := gpioSet_spec p v s
  obtain ⟨rfl, hrest⟩ := hanswer r rest hgpio
  obtain ⟨imgs, hlatched, himgs⟩ := he.latched
  refine ⟨_, imgs, Prod.ext rfl hraised, he.trace, he.calls_of_pinMap, ?_, hlatched,
    edgeOf_set_iff.mp (edgesOf_singleton.mp himgs), he.dirs, hrest, he.onlyPins⟩
  rw [he.pins]
  cases b <;> rfl

/-- Settles O22: the sleep is described by its one event, which asks to wait and is no call. -/
theorem sleepLastsAtLeastItsTime : Obligations.SleepLastsAtLeastItsTime := by
  unfold Obligations.SleepLastsAtLeastItsTime
  intro s ms
  have he := sleepFor_spec ms s
  exact ⟨sleepFor ms s, rfl, he.trace, he.now, ⟨he.pins, he.dirs, rfl, rfl, rfl⟩, he.onlyPins⟩

/-! ### CONFIGURE -/

theorem PerPin.get_all {α : Type} (a : α) (p : Role) : (PerPin.all a).get p = a := by cases p <;> rfl

/-- Cut at one of its first ten calls CONFIGURE has no SET(EN,0) answered ok: that is its call number 9. -/
theorem not_mem_cutAt_configureEvents : ∀ k ≤ 9, .set .en false true ∉ cutAt k configureEvents := by decide

/-- Cut later, it has made its first ten calls, and none of the others is a SET(EN,0). -/
theorem cutAt_configureEvents_add_ten (k : Nat) :
    cutAt (k + 10) configureEvents = configureEvents.take 10 ++ cutAt k (configureEvents.drop 10) := rfl

theorem not_mem_cutAt_drop_configureEvents :
    ∀ k < 4, .set .en false true ∉ cutAt k (configureEvents.drop 10) := by decide

/-- The first ten calls of CONFIGURE show all the images it can show. -/
theorem EdgesOf_take_configureEvents {pins : PerPin Level} {imgs : List Image}
    (h : EdgesOf pins (configureEvents.take 10) imgs) : ConfigureImages pins imgs := by
  have hlater : .set .en false true ∉ configureEvents.drop 10 := by decide
  have hall : EdgesOf pins (configureEvents.take 10 ++ configureEvents.drop 10) (imgs ++ []) :=
    h.append ((edgesOf_iff_eq_nil hlater).mpr rfl)
  rw [List.take_append_drop, List.append_nil] at hall
  exact EdgesOf_configureEvents hall

/-- The images of a CONFIGURE aborted at call `k`: none where its SET(EN,0) was not made or failed
(40_pin_configuration.md R93, R94). -/
theorem EdgesOf_cutAt_configureEvents {pins : PerPin Level} {imgs : List Image} {k : Nat} (hk : k < 14)
    (h : EdgesOf pins (cutAt k configureEvents) imgs) :
    if k ≤ 9 then imgs = [] else ConfigureImages pins imgs := by
  split
  · next hearly => exact (edgesOf_iff_eq_nil (not_mem_cutAt_configureEvents k hearly)).mp h
  · obtain ⟨j, rfl⟩ : ∃ j, k = j + 10 := ⟨k - 10, by omega⟩
    rw [cutAt_configureEvents_add_ten] at h
    obtain ⟨x, y, rfl, hx, hy⟩ := h.split
    rw [(edgesOf_iff_eq_nil (not_mem_cutAt_drop_configureEvents j (by omega))).mp hy, List.append_nil]
    exact EdgesOf_take_configureEvents hx

/-- Settles O28: CONFIGURE is the level 1 operation of its fourteen events, run to its end or cut at the call that
fails. -/
theorem configureProgramsAndLowersAllSevenPins : Obligations.ConfigureProgramsAndLowersAllSevenPins := by
  unfold Obligations.ConfigureProgramsAndLowersAllSevenPins
  refine ⟨encodeThenDecodeGivesTheInstruction .configure rfl, rfl, fun s hr hg => ?_, fun s k hr hk hg => ?_⟩
  · obtain ⟨t, ht, h, hgpio⟩ :=
      internalOp_ok hr (x := .configure) codeEvents_configureCode codeCalls_configureCode hg
    obtain ⟨imgs, hlatched, himgs⟩ := h.latched
    have hdirs : t.dirs = PerPin.all .outPpNoPull := h.dirs
    have hpins : t.pins = PerPin.all .low := h.pins
    exact ⟨t, imgs, ht, h.trace, h.calls, fun p => hdirs ▸ PerPin.get_all _ p, fun p => hpins ▸ PerPin.get_all _ p,
      h.result, hgpio, hlatched, EdgesOf_configureEvents himgs, h.handle, h.sequencer, h.port⟩
  · obtain ⟨t, f, ht, hcause, h⟩ :=
      internalOp_fail hr (x := .configure) codeEvents_configureCode codeCalls_configureCode hk hg
    obtain ⟨imgs, hlatched, himgs⟩ := h.latched
    exact ⟨t, f, imgs, ht, h.trace, h.calls, hcause, h.result, h.pins, h.dirs, hlatched,
      EdgesOf_cutAt_configureEvents hk himgs, h.handle, h.sequencer, h.port⟩

end Sys2Proof.Machine
end

section
/-! NIBBLE, WRITE_CMD and WRITE_DATA as the sequencer's own requests (41_nibble_transfer.md R100 to R104): each is the
level 1 operation of its name, run to its end or cut at the call that fails. -/

namespace Sys2Proof.Machine

/-- Settles O24: the word is the encoding of NIBBLE n, rs, which is the level 1 operation of one nibble. -/
theorem nibbleDrivesStrobesAndLatches : Obligations.NibbleDrivesStrobesAndLatches := by
  unfold Obligations.NibbleDrivesStrobesAndLatches
  intro rs n
  exact ⟨encodeThenDecodeGivesTheInstruction (.nibble rs n) rfl, nibbleRule_of_level1 rfl⟩

theorem level1Of_byteTransfer {i : Instr} {rs : Bool} {v : Byte} (h : byteTransfer i = some (rs, v)) :
    level1Of i = some (.byte rs v) := by
  cases i with
  | writeCmd _ => cases h; rfl
  | writeData _ => cases h; rfl
  | _ => cases h

/-- Settles O25: WRITE_CMD and WRITE_DATA are the level 1 operation of one byte, at the level their name gives. -/
theorem byteTransferSendsHighNibbleFirst : Obligations.ByteTransferSendsHighNibbleFirst := by
  unfold Obligations.ByteTransferSendsHighNibbleFirst
  intro i rs v h
  exact byteRule_of_level1 (level1Of_byteTransfer h)

end Sys2Proof.Machine
end

section
/-! The pin activity of INIT (42_init_sequence.md R110, R113): CONFIGURE, then one block of micro-steps for each of the
five commands, so that a failed GPIO call is one of CONFIGURE's or one of a command's. -/

namespace Sys2Proof.Machine

/-! ### Cutting a sequence of events in two -/

theorem cutAt_okEvent_of_lt {m : Micro} {k : Nat} (hk : k < m.calls) (evs : List Event) :
    cutAt k (m.okEvent :: evs) = cutAt k [m.okEvent] := by
  cases m with
  | cfg p => rw [Nat.lt_one_iff.mp hk]; rfl
  | set p v => rw [Nat.lt_one_iff.mp hk]; rfl
  | _ => cases hk

theorem cutAt_okEvent_add (m : Micro) (k : Nat) (evs : List Event) :
    cutAt (m.calls + k) (m.okEvent :: evs) = m.okEvent :: cutAt k evs := by
  cases m with
  | cfg p => rw [Nat.add_comm]; rfl
  | set p v => rw [Nat.add_comm]; rfl
  | _ => rw [Nat.add_comm]; cases k <;> rfl

theorem cutAt_codeEvents_of_lt {a : Code} {k : Nat} (hk : k < codeCalls a) (evs : List Event) :
    cutAt k (codeEvents a ++ evs) = cutAt k (codeEvents a) := by
  induction a generalizing k with
  | nil => cases hk
  | cons pm a ih =>
    show cutAt k (pm.2.okEvent :: (codeEvents a ++ evs)) = cutAt k (pm.2.okEvent :: codeEvents a)
    by_cases hfirst : k < pm.2.calls
    · rw [cutAt_okEvent_of_lt hfirst, cutAt_okEvent_of_lt hfirst (codeEvents a)]
    · obtain ⟨n, rfl⟩ := Nat.exists_eq_add_of_le (Nat.le_of_not_lt hfirst)
      rw [cutAt_okEvent_add, cutAt_okEvent_add, ih (Nat.lt_of_add_lt_add_left hk)]

theorem cutAt_codeEvents_add (a : Code) (k : Nat) (evs : List Event) :
    cutAt (codeCalls a + k) (codeEvents a ++ evs) = codeEvents a ++ cutAt k evs := by
  induction a with
  | nil => rw [codeCalls, Nat.zero_add]; rfl
  | cons pm a ih =>
    rw [codeCalls, Nat.add_assoc]
    show cutAt (pm.2.calls + (codeCalls a + k)) (pm.2.okEvent :: (codeEvents a ++ evs)) = _
    rw [cutAt_okEvent_add, ih]
    rfl

theorem lastCause_append {evs : List Event} {f : GpioCause} (h : lastCause evs = some f) (pre : List Event) :
    lastCause (pre ++ evs) = some f := by
  obtain ⟨e, he, hf⟩ := Option.bind_eq_some_iff.mp h
  simp [lastCause, List.getLast?_append, he, hf]

/-! ### Code that fails at a GPIO call -/

/-- Run whole, the code makes the events `evs`, of which the last is a failed GPIO call, whose cause is handed up as `c`
says. -/
def FailsAfter (evs : List Event) (c : GpioCause → Cause) (code : Code) (s : State) : Prop :=
  ∃ t pos f, runCode .whole code s = (t, .failed pos (.gpio f)) ∧ PinEffect evs s t ∧ lastCause evs = some f
    ∧ Cause.seenFrom pos.phase (.gpio f) = c f

theorem FailsAfter.append {evs : List Event} {c : GpioCause → Cause} {a : Code} {s : State} (h : FailsAfter evs c a s)
    (b : Code) : FailsAfter evs c (a ++ b) s := by
  obtain ⟨t, pos, f, hrun, h⟩ := h
  exact ⟨t, pos, f, by rw [runCode_whole_append, hrun], h⟩

theorem GpioFailsAt.gpioOk {n k : Nat} {s : State} (h : GpioFailsAt (n + k) s) : GpioOk n s := by
  have htake := congrArg (List.take n) h
  rw [List.take_take, Nat.min_eq_left (by omega)] at htake
  simpa [List.take_append] using htake

theorem GpioFailsAt.drop {n k : Nat} {s t : State} (h : GpioFailsAt (n + k) s) (ht : t.env.gpio = s.env.gpio.drop n) :
    GpioFailsAt k t := by
  have hdrop := congrArg (List.drop n) h
  rw [List.drop_take, List.drop_append_of_le_length (by simp)] at hdrop
  rw [GpioFailsAt, ht]
  simpa [Nat.add_assoc, Nat.add_sub_cancel_left] using hdrop

/-- The failing call is behind pin activity whose calls are all answered ok. -/
theorem FailsAfter.behind {c : GpioCause → Cause} {a b : Code} {s : State} {k : Nat}
    (hp : allPin a = true) (hg : GpioFailsAt (codeCalls a + k) s)
    (h : ∀ t, GpioFailsAt k t → FailsAfter (cutAt k (codeEvents b)) c b t) :
    FailsAfter (cutAt (codeCalls a + k) (codeEvents (a ++ b))) c (a ++ b) s := by
  obtain ⟨t, hrun, he, hgpio⟩ := runCode_pin_ok hp hg.gpioOk
  obtain ⟨u, pos, f, hrun', he', hcause, hseen⟩ := h t (hg.drop hgpio)
  rw [codeEvents_append, cutAt_codeEvents_add]
  exact ⟨u, pos, f, by rw [runCode_whole_append, hrun]; exact hrun', he.trans he', lastCause_append hcause _, hseen⟩

/-- The failing call is in pin activity whose positions hand a cause up alike. -/
theorem failsAfter_of_lt {c : GpioCause → Cause} {a : Code} {s : State} {k : Nat} (hp : allPin a = true)
    (hk : k < codeCalls a) (hg : GpioFailsAt k s)
    (hseen : ∀ pos ∈ a.map Prod.fst, ∀ f, Cause.seenFrom pos.phase (.gpio f) = c f) :
    FailsAfter (cutAt k (codeEvents a)) c a s := by
  obtain ⟨t, f, pos, hrun, he, hcause, hpos⟩ := runCode_pin_fail hp hk hg
  exact ⟨t, pos, f, hrun, he, hcause, hseen pos hpos f⟩

/-! ### The commands of INIT -/

/-- One command of INIT: its transfer, then its settle wait (42_init_sequence.md R110). -/
def initCommand (cfg : Config) (st : Strategy) (j : Nat) (v : Byte) : Code :=
  sendByte cfg.strobeMs (.initCmd j) st.rs v ++ [plain (.initSettle j) (.sleep cfg.initMs)]

theorem initCommands_cons (cfg : Config) (st : Strategy) (j : Nat) (v : Byte) (bs : List Byte) :
    initCommands cfg st j (v :: bs) = initCommand cfg st j v ++ initCommands cfg st (j + 1) bs := by
  simp [initCommands, initCommand]

theorem codeEvents_initCommand (cfg : Config) (st : Strategy) (j : Nat) (v : Byte) :
    codeEvents (initCommand cfg st j v) = byteEvents cfg.strobeMs st.rs v ++ [.wait cfg.initMs] := rfl

theorem codeCalls_initCommand (cfg : Config) (st : Strategy) (j : Nat) (v : Byte) :
    codeCalls (initCommand cfg st j v) = 16 := by
  rw [initCommand, codeCalls_append, codeCalls_sendByte]
  rfl

theorem allPin_initCommand (cfg : Config) (st : Strategy) (j : Nat) (v : Byte) :
    allPin (initCommand cfg st j v) = true := rfl

/-- A call of a command is one of its transfer's. -/
theorem cutAt_initCommand {cfg : Config} {st : Strategy} {j k : Nat} {v : Byte} (hk : k < 16) (evs : List Event) :
    cutAt k (codeEvents (initCommand cfg st j v) ++ evs) = cutAt k (byteEvents cfg.strobeMs st.rs v) := by
  have hcalls : k < codeCalls (sendByte cfg.strobeMs (.initCmd j) st.rs v) := hk.trans_eq (codeCalls_sendByte ..).symm
  rw [initCommand, codeEvents_append, List.append_assoc, cutAt_codeEvents_of_lt hcalls, codeEvents_sendByte]

theorem EdgesOf_initCommand {cfg : Config} {st : Strategy} {j : Nat} {v : Byte} {pins : PerPin Level}
    {imgs : List Image} (h : EdgesOf pins (codeEvents (initCommand cfg st j v)) imgs) : imgs = byteImages st.rs v := by
  rw [codeEvents_initCommand] at h
  obtain ⟨x, y, rfl, hx, hy⟩ := h.split
  rw [EdgesOf_byteEvents hx, (edgesOf_iff_eq_nil (by simp)).mp hy, List.append_nil]

theorem codeCalls_initCommands (cfg : Config) (st : Strategy) (j : Nat) (bs : List Byte) :
    codeCalls (initCommands cfg st j bs) = 16 * bs.length := by
  induction bs generalizing j with
  | nil => rfl
  | cons v bs ih =>
    rw [initCommands_cons, codeCalls_append, codeCalls_initCommand, ih, List.length_cons]
    omega

theorem allPin_initCommands (cfg : Config) (st : Strategy) (j : Nat) (bs : List Byte) :
    allPin (initCommands cfg st j bs) = true := by
  induction bs generalizing j with
  | nil => rfl
  | cons v bs ih => rw [initCommands_cons, allPin_append, allPin_initCommand, ih, Bool.and_self]

theorem EdgesOf_initCommands {cfg : Config} {st : Strategy} {j : Nat} {bs : List Byte} {pins : PerPin Level}
    {imgs : List Image} (h : EdgesOf pins (codeEvents (initCommands cfg st j bs)) imgs) :
    imgs = bs.flatMap (byteImages st.rs) := by
  induction bs generalizing j pins imgs with
  | nil => exact h
  | cons v bs ih =>
    rw [initCommands_cons, codeEvents_append] at h
    obtain ⟨x, y, rfl, hx, hy⟩ := h.split
    rw [EdgesOf_initCommand hx, ih hy, List.flatMap_cons]

/-- Cut at call `k`, the commands have shown the images of the `k / 8` nibbles completed before it. -/
theorem EdgesOf_cutAt_initCommands {cfg : Config} {st : Strategy} {j k : Nat} {bs : List Byte} {pins : PerPin Level}
    {imgs : List Image} (hk : k < 16 * bs.length)
    (h : EdgesOf pins (cutAt k (codeEvents (initCommands cfg st j bs))) imgs) :
    imgs = (bs.flatMap (byteImages st.rs)).take (k / 8) := by
  induction bs generalizing j k pins imgs with
  | nil => simp at hk
  | cons v bs ih =>
    rw [initCommands_cons, codeEvents_append] at h
    by_cases hfirst : k < 16
    · rw [cutAt_initCommand hfirst] at h
      rw [(cutAt_byteEvents cfg.strobeMs st.rs v pins (PerPin.all .unconfigured) hfirst).2 h]
      split
      · rw [Nat.div_eq_of_lt ‹k < 8›, List.take_zero]
      · rw [show k / 8 = 1 by omega]
        rfl
    · obtain ⟨n, rfl⟩ : ∃ n, k = 16 + n := ⟨k - 16, by omega⟩
      rw [← codeCalls_initCommand cfg st j v, cutAt_codeEvents_add] at h
      obtain ⟨x, y, rfl, hx, hy⟩ := h.split
      rw [EdgesOf_initCommand hx, ih (by simp at hk; omega) hy, show (16 + n) / 8 = n / 8 + 2 by omega]
      rfl

/-- A GPIO failure inside command `j` of INIT is InitProtocolFail(j, f) (60_exceptions.md R150). -/
theorem initCommands_failsAfter {cfg : Config} {st : Strategy} {j k : Nat} {bs : List Byte} {s : State}
    (hk : k < 16 * bs.length) (hg : GpioFailsAt k s) :
    FailsAfter (cutAt k (codeEvents (initCommands cfg st j bs))) (.initProtocol (j + k / 16))
      (initCommands cfg st j bs) s := by
  induction bs generalizing j k s with
  | nil => simp at hk
  | cons v bs ih =>
    rw [initCommands_cons]
    by_cases hfirst : k < 16
    · have hseen : ∀ pos ∈ (sendByte cfg.strobeMs (.initCmd j) st.rs v).map Prod.fst, ∀ f,
          Cause.seenFrom pos.phase (.gpio f) = .initProtocol (j + k / 16) f := by
        intro pos hpos f
        obtain ⟨pm, hmem, rfl⟩ := List.mem_map.mp hpos
        rw [phase_of_mem_sendByte hmem, Nat.div_eq_of_lt hfirst]
        rfl
      have hcalls : k < codeCalls (sendByte cfg.strobeMs (.initCmd j) st.rs v) :=
        hfirst.trans_eq (codeCalls_sendByte ..).symm
      rw [codeEvents_append, cutAt_initCommand hfirst, ← codeEvents_sendByte _ (.initCmd j)]
      exact ((failsAfter_of_lt (allPin_sendByte ..) hcalls hg hseen).append _).append _
    · obtain ⟨n, rfl⟩ : ∃ n, k = 16 + n := ⟨k - 16, by omega⟩
      rw [← codeCalls_initCommand cfg st j v] at hg ⊢
      refine FailsAfter.behind (allPin_initCommand ..) hg fun t ht => ?_
      rw [codeCalls_initCommand, show j + (16 + n) / 16 = j + 1 + n / 16 by omega]
      exact ih (by simp at hk; omega) ht

/-! ### The pin activity of INIT -/

theorem codeEvents_initBody (cfg : Config) : codeEvents (initBody cfg) = initEvents cfg := rfl

theorem codeCalls_initBody (cfg : Config) : codeCalls (initBody cfg) = 94 := by
  rw [initBody, codeCalls_append, codeCalls_configureCode, codeCalls_initCommands]
  rfl

theorem allPin_initBody (cfg : Config) : allPin (initBody cfg) = true := by
  rw [initBody, allPin_append, allPin_configureCode, allPin_initCommands, Bool.and_self]

theorem initImages_eq : initCmds.flatMap (byteImages false) = initImages := by decide

theorem driveAll_initEvents (cfg : Config) (pins : PerPin Level) :
    driveAll (initEvents cfg) pins
      = { rs := .low, rw := .low, en := .low, d4 := .high, d5 := .low, d6 := .low, d7 := .low } := rfl

theorem configAll_initEvents (cfg : Config) (dirs : PerPin Dir) :
    configAll (initEvents cfg) dirs = PerPin.all .outPpNoPull := rfl

theorem waitedMs_initEvents (cfg : Config) : waitedMs (initEvents cfg) = 5 * (4 * cfg.strobeMs + cfg.initMs) := by
  simp only [initEvents, waitedMs_append, waitedMs_byteEvents]
  simp [configureEvents, waitedMs]
  omega

/-- The images of INIT: what CONFIGURE's SET(EN,0) shows, then the ten of its commands (42_init_sequence.md R113). -/
theorem EdgesOf_initEvents {cfg : Config} {pins : PerPin Level} {imgs : List Image}
    (h : EdgesOf pins (initEvents cfg) imgs) :
    ∃ spurious, imgs = spurious ++ initImages ∧ ConfigureImages pins spurious := by
  rw [← codeEvents_initBody, initBody, codeEvents_append] at h
  obtain ⟨x, y, rfl, hx, hy⟩ := h.split
  exact ⟨x, by rw [EdgesOf_initCommands hy, ← initImages_eq]; rfl, EdgesOf_configureEvents hx⟩

/-- The images of an INIT aborted at call `k`, of which the first 14 are CONFIGURE's. -/
theorem EdgesOf_cutAt_initEvents {cfg : Config} {pins : PerPin Level} {imgs : List Image} {k : Nat} (hk : k < 94)
    (h : EdgesOf pins (cutAt k (initEvents cfg)) imgs) :
    ∃ spurious, imgs = spurious ++ initImages.take ((k - 14) / 8)
      ∧ if k ≤ 9 then spurious = [] else ConfigureImages pins spurious := by
  rw [← codeEvents_initBody, initBody, codeEvents_append] at h
  by_cases hconfigure : k < 14
  · rw [cutAt_codeEvents_of_lt hconfigure] at h
    refine ⟨imgs, ?_, EdgesOf_cutAt_configureEvents hconfigure h⟩
    rw [Nat.sub_eq_zero_of_le hconfigure.le, Nat.zero_div, List.take_zero, List.append_nil]
  · obtain ⟨n, rfl⟩ : ∃ n, k = 14 + n := ⟨k - 14, by omega⟩
    rw [← codeCalls_configureCode, cutAt_codeEvents_add] at h
    obtain ⟨x, y, rfl, hx, hy⟩ := h.split
    refine ⟨x, ?_, by rw [if_neg (by omega)]; exact EdgesOf_configureEvents hx⟩
    rw [EdgesOf_cutAt_initCommands (show n < 16 * 5 by omega) hy, ← initImages_eq,
      Nat.add_sub_cancel_left]
    rfl

/-- The cause of an INIT whose GPIO call `k` fails with `f` (60_exceptions.md R150). -/
def initCause (k : Nat) (f : GpioCause) : Cause := if k < 14 then .gpio f else .initProtocol ((k - 14) / 16) f

theorem initBody_failsAfter {cfg : Config} {s : State} {k : Nat} (hk : k < 94) (hg : GpioFailsAt k s) :
    FailsAfter (cutAt k (initEvents cfg)) (initCause k) (initBody cfg) s := by
  rw [← codeEvents_initBody, initBody]
  by_cases hconfigure : k < 14
  · rw [codeEvents_append, cutAt_codeEvents_of_lt hconfigure]
    refine (failsAfter_of_lt allPin_configureCode hconfigure hg fun pos hpos f => ?_).append _
    rw [initCause, if_pos hconfigure]
    exact Cause.seenFrom_eq (level1Code_phase cfg .configure pos hpos) _
  · obtain ⟨n, rfl⟩ : ∃ n, k = 14 + n := ⟨k - 14, by omega⟩
    have hcause : initCause (14 + n) = .initProtocol (0 + n / 16) := by
      funext f
      rw [initCause, if_neg hconfigure, Nat.add_sub_cancel_left, Nat.zero_add]
    rw [hcause]
    exact FailsAfter.behind (a := configureCode) allPin_configureCode hg fun t ht =>
      initCommands_failsAfter (show n < 16 * 5 by omega) ht

end Sys2Proof.Machine
end

section
/-! INIT run whole (42_init_sequence.md): its checks, its allocation and binding, its pin activity, then its lock and its
handle, or the teardown. -/

namespace Sys2Proof.Machine

/-! ### INIT at the port -/

/-- Settles O31: the mode is checked right after the geometry, before anything else (60_exceptions.md R148). -/
theorem initWithAnotherModeFailsFirst : Obligations.InitWithAnotherModeFailsFirst := by
  unfold Obligations.InitWithAnotherModeFailsFirst
  intro s g m hg hm
  have hgeometry : geometryOf s.cfg g ≠ none := Option.isSome_iff_ne_none.mp hg
  have hmode : Mode.ofCode m ≠ some .bit4 := fun h => hm (Mode.eq_zero_of_bit4 h)
  exact ⟨_, (if_neg hgeometry).trans (if_pos hmode), refuseNull_onlyReturns _ _⟩

/-- The state to which the INIT at the port comes when it is taken whole in the 4-bit mode. -/
def initRun (g : Byte) (s : State) : State :=
  settleRun .whole s.cur.requester (.init g 0x00#8 s.cur.pinMap)
    (runCode .whole (initCode s.cfg s.cur.requester g 0x00#8 s.cur.pinMap) s)

theorem exec_init_of_ready {g m : Byte} {s : State} (h : InitReady g m s) :
    exec (.init g m) s = .next (initRun g s) := by
  obtain ⟨hhandle, hidle, hwhole, hg, rfl, hpins⟩ := h
  have hgeometry : geometryOf s.cfg g ≠ none := Option.isSome_iff_ne_none.mp hg
  show execInit g 0x00#8 s = _
  rw [execInit, if_neg hgeometry, if_neg (by decide), if_neg (not_not.2 hhandle), if_neg (by simp [hpins]),
    if_neg (not_not.2 hidle), runOp, hwhole, initRun]

/-! ### The abort of INIT -/

theorem abortOp_init_of_none (c : Requester) (g m : Byte) (pm : PinMap) (f : Cause) {s : State}
    (h : s.handle = .none) :
    abortOp c (.init g m pm) f s = State.tick { s.ret c (.null f) with text := [], seq := .idle } := by
  rw [abortOp, unwind, if_neg (by simp [h])]
  rfl

theorem abortOp_init_of_building (c : Requester) (g m : Byte) (pm : PinMap) (f : Cause) {s : State}
    (h : s.handle = .building) :
    abortOp c (.init g m pm) f s = State.tick { (teardown s).ret c (.null f) with text := [], seq := .idle } := by
  rw [abortOp, unwind, if_pos h]
  rfl

/-! ### The allocation and the binding -/

theorem allocHandle_calls (g m : Byte) (pm : PinMap) (s : State) : (allocHandle g m pm s).1.calls = s.calls := by
  obtain ⟨b, env, hdraw, -⟩ := drawAlloc_spec s
  rw [allocHandle, hdraw]
  cases b <;> rfl

theorem runCode_initCode (cfg : Config) (c : Requester) (g : Byte) (pm : PinMap) (s : State) :
    runCode .whole (initCode cfg c g 0x00#8 pm) s =
      match allocHandle g 0x00#8 pm s.tick with
      | (t, some f) => (t, .failed (Pos.plain .alloc) f)
      | (t, none) =>
        runCode .whole (initBody cfg ++ [plain .mkLock .mkLock, plain .done (.done c)]) (bindDispatch t) := by
  rw [initCode_bit4, plain, runCode_whole_cons]
  show runCode .whole _ s.tick = _
  rw [plain, runCode_whole_cons, Micro.act]
  rcases allocHandle g 0x00#8 pm s.tick with ⟨t, _ | f⟩
  · exact runCode_whole_cons (Pos.plain .bind) .bind _ t
  · rfl

/-- INIT's allocation step after its check, with answer `b`: it touches no pin, and writes the handle's cells only where
storage was obtained (42_init_sequence.md R110). -/
theorem allocHandle_of_answer (g : Byte) {s : State} {b : Bool} {rest : List Bool} (h : s.env.alloc = b :: rest) :
    ∃ t, allocHandle g 0x00#8 s.cur.pinMap s.tick = (t, if b then none else some .allocFail)
      ∧ t.trace = s.trace ++ [.alloc b] ∧ KeepsPins s t ∧ s.now ≤ t.now ∧ KeepsPort s t ∧ t.dispatch = s.dispatch
      ∧ t.lock = s.lock
      ∧ (b = true → t.handle = .building ∧ t.pinMap = some s.cur.pinMap
          ∧ t.config = some { geometry := g, mode := .bit4 })
      ∧ (b = false → t.handle = s.handle ∧ t.pinMap = s.pinMap ∧ t.config = s.config) := by
  obtain ⟨b', t, hact, hf, hbuilt, hkept, hdispatch, hlock, -, -, hpending, hgpio, hb⟩ :=
    allocHandle_spec g 0x00#8 s.cur.pinMap s.tick
  obtain rfl := hb b rest h
  obtain ⟨imgs, hlatched, himgs⟩ := hf.latched
  obtain rfl := (edgesOf_iff_eq_nil (by simp)).mp himgs
  have hcalls : t.calls = s.calls := by simpa [hact] using allocHandle_calls g 0x00#8 s.cur.pinMap s.tick
  exact ⟨t, hact, hf.trace, ⟨hf.pins, hf.dirs, by simpa using hlatched, hcalls, hgpio⟩,
    (Nat.le_add_right ..).trans hf.now, ⟨hf.cfg, hf.otherPins, hpending, hf.cur, hf.grain⟩, hdispatch, hlock, hbuilt,
    hkept⟩

/-- Settles O33: with the allocation answered err no handle was built, so nothing is torn down. -/
theorem initWithoutStorageFails : Obligations.InitWithoutStorageFails := by
  unfold Obligations.InitWithoutStorageFails
  intro s g m rest hready halloc
  have ⟨hnone, _⟩ := hready
  obtain ⟨t, hact, htrace, hpins, -, hport, hdispatch, hlock, -, hkept⟩ := allocHandle_of_answer g halloc
  obtain ⟨hhandle, hpinMap, hconfig⟩ := hkept rfl
  have hrun : initRun g s = State.tick { t.ret s.cur.requester (.null .allocFail) with text := [], seq := .idle } := by
    rw [initRun, runCode_initCode, hact]
    exact abortOp_init_of_none _ _ _ _ _ (hhandle.trans hnone)
  refine ⟨_, exec_init_of_ready hready, ?_⟩
  rw [hrun]
  exact ⟨by simp [htrace], rfl, hpins, ⟨hhandle, hconfig, hpinMap, hdispatch⟩, hlock, rfl, hport⟩

/-- What INIT has done when its pin activity has made the events `evs`, with the handle still being built
(42_init_sequence.md R110). -/
structure InitWorked (g : Byte) (evs : List Event) (s t : State) : Prop where
  trace : t.trace = s.trace ++ [.alloc true] ++ evs
  calls : t.calls = s.calls ++ callsOf s.cur.pinMap evs
  pins : t.pins = driveAll evs s.pins
  dirs : t.dirs = configAll evs s.dirs
  latched : ∃ imgs, t.latched = s.latched ++ imgs ∧ EdgesOf s.pins evs imgs
  now : s.now + waitedMs evs ≤ t.now
  handle : t.handle = .building
  config : t.config = some { geometry := g, mode := .bit4 }
  pinMap : t.pinMap = some s.cur.pinMap
  dispatch : t.dispatch = some fourBit
  port : KeepsPort s t

theorem InitWorked.pinEffect {g : Byte} {a b : List Event} {s t u : State} (h : InitWorked g a s t)
    (he : PinEffect b t u) : InitWorked g (a ++ b) s u where
  trace := by rw [he.trace, h.trace, List.append_assoc]
  calls := by rw [he.calls_of_pinMap _ h.pinMap, h.calls, callsOf_append, List.append_assoc]
  pins := by rw [he.pins, h.pins, driveAll_append]
  dirs := by rw [he.dirs, h.dirs, configAll_append]
  latched := by
    obtain ⟨x, hx, ex⟩ := h.latched
    obtain ⟨y, hy, ey⟩ := he.latched
    exact ⟨x ++ y, by rw [hy, hx, List.append_assoc], ex.append (h.pins ▸ ey)⟩
  now := by
    rw [waitedMs_append]
    have := h.now
    have := he.now
    omega
  handle := he.handle.trans h.handle
  config := he.config.trans h.config
  pinMap := he.pinMap.trans h.pinMap
  dispatch := he.dispatch.trans h.dispatch
  port := by
    obtain ⟨hcfg, hother, hpending, hcur, hgrain⟩ := h.port
    exact ⟨he.cfg.trans hcfg, he.otherPins.trans hother, he.pending.trans hpending, he.cur.trans hcur,
      he.grain.trans hgrain⟩

/-- After its allocation and binding INIT goes on with its pin activity. -/
theorem runCode_initCode_of_storage (g : Byte) {s : State} {rest : List Bool} (h : s.env.alloc = true :: rest) :
    ∃ t, InitWorked g [] s t ∧ t.env.gpio = s.env.gpio
      ∧ runCode .whole (initCode s.cfg s.cur.requester g 0x00#8 s.cur.pinMap) s
        = runCode .whole (initBody s.cfg ++ [plain .mkLock .mkLock, plain .done (.done s.cur.requester)]) t := by
  obtain ⟨t, hact, htrace, hkept, hnow, hport, -, -, hbuilt, -⟩ := allocHandle_of_answer g h
  obtain ⟨hpins, hdirs, hlatched, hcalls, hgpio⟩ := hkept
  obtain ⟨hhandle, hpinMap, hconfig⟩ := hbuilt rfl
  refine ⟨bindDispatch t, ?_, hgpio, by rw [runCode_initCode, hact, if_pos rfl]⟩
  exact
    { trace := by simp [htrace]
      calls := by simp [hcalls, callsOf]
      pins := hpins
      dirs := hdirs
      latched := ⟨[], by simp [hlatched], rfl⟩
      now := hnow.trans (Nat.le_add_right ..)
      handle := hhandle
      config := hconfig
      pinMap := hpinMap
      dispatch := by rw [bindDispatch_dispatch, hconfig]; rfl
      port := hport }

/-! ### INIT with its pin activity completed -/

/-- With every GPIO call answered ok INIT comes to the creation of its lock. -/
theorem runCode_initCode_of_gpioOk {g : Byte} {s : State} {rest : List Bool} (halloc : s.env.alloc = true :: rest)
    (hgpio : GpioOk 94 s) :
    ∃ t, InitWorked g (initEvents s.cfg) s t
      ∧ runCode .whole (initCode s.cfg s.cur.requester g 0x00#8 s.cur.pinMap) s
        = runCode .whole [plain .mkLock .mkLock, plain .done (.done s.cur.requester)] t := by
  obtain ⟨u, hu, hugpio, hrun⟩ := runCode_initCode_of_storage g halloc
  obtain ⟨t, hbody, he, -⟩ := runCode_pin_ok (allPin_initBody s.cfg)
    (show u.env.gpio.take (codeCalls (initBody s.cfg)) = _ by rw [hugpio, codeCalls_initBody]; exact hgpio)
  exact ⟨t, hu.pinEffect he, by rw [hrun, runCode_whole_append, hbody]⟩

/-- What a completed INIT has done to the pins (42_init_sequence.md R113). -/
theorem InitWorked.completed {g : Byte} {s t : State} (h : InitWorked g (initEvents s.cfg) s t) :
    t.pins = { rs := .low, rw := .low, en := .low, d4 := .high, d5 := .low, d6 := .low, d7 := .low }
      ∧ (∀ p, t.dirs.get p = .outPpNoPull)
      ∧ s.now + 5 * (4 * s.cfg.strobeMs + s.cfg.initMs) ≤ t.now
      ∧ ∃ spurious, t.latched = s.latched ++ spurious ++ initImages ∧ ConfigureImages s.pins spurious := by
  obtain ⟨imgs, hlatched, himgs⟩ := h.latched
  obtain ⟨spurious, rfl, hspurious⟩ := EdgesOf_initEvents himgs
  refine ⟨h.pins, fun p => ?_, waitedMs_initEvents s.cfg ▸ h.now, spurious, ?_, hspurious⟩
  · rw [h.dirs, configAll_initEvents, PerPin.get_all]
  · rw [hlatched, List.append_assoc]

/-- Settles O29: all pin activity is answered ok, then the lock is created and the handle handed back. -/
theorem initRunsTheWholeSequence : Obligations.InitRunsTheWholeSequence := by
  unfold Obligations.InitRunsTheWholeSequence
  intro s g m rest hready hlock halloc hgpio
  obtain ⟨t, ht, hrest⟩ := runCode_initCode_of_gpioOk (g := g) halloc hgpio
  have ⟨hcfg, _⟩ := ht.port
  have hmade : makeLock t = ((State.log .mkLock { t with lock := .free }).tick, none) := by
    rw [makeLock, if_pos (hcfg ▸ hlock)]
  have hrun : initRun g s
      = { publishHandle s.cur.requester (State.log .mkLock { t with lock := .free }).tick with seq := .idle } := by
    rw [initRun, hrest, plain, runCode_whole_cons, Micro.act, hmade]
    rfl
  obtain ⟨hpins, hdirs, hnow, spurious, hlatched, hspurious⟩ := ht.completed
  refine ⟨_, spurious, exec_init_of_ready hready, ?_⟩
  rw [hrun]
  exact ⟨by simp [ht.trace], ht.calls, hlatched, hspurious, hpins, hdirs, by simp; omega, rfl, rfl, rfl, ht.config,
    ht.pinMap, ht.dispatch, rfl, ht.port⟩

/-! ### INIT torn down -/

/-- A failure after the allocation tears down what was built, and leaves what the pin activity did
(42_init_sequence.md R112; 60_exceptions.md R146). -/
theorem InitWorked.tornDown {g : Byte} {evs : List Event} {s t : State} {pos : Pos} {f : Cause}
    (h : InitWorked g evs s t)
    (hrun : runCode .whole (initCode s.cfg s.cur.requester g 0x00#8 s.cur.pinMap) s = (t, .failed pos f)) :
    initRun g s = State.tick
      { (teardown t).ret s.cur.requester (.null (f.seenFrom pos.phase)) with text := [], seq := .idle } := by
  rw [initRun, hrun]
  exact abortOp_init_of_building _ _ _ _ _ h.handle

theorem tick_pinEffect (s : State) : PinEffect [] s s.tick := by
  constructor <;> simp [waitedMs, EdgesOf, callsOf]

/-- Settles O34: all pin activity is answered ok, then the lock is not created. -/
theorem initWithoutLockIsTornDown : Obligations.InitWithoutLockIsTornDown := by
  unfold Obligations.InitWithoutLockIsTornDown
  intro s g m rest hready hlock halloc hgpio
  obtain ⟨t, ht, hrest⟩ := runCode_initCode_of_gpioOk (g := g) halloc hgpio
  have ⟨hcfg, _⟩ := ht.port
  have hmade : makeLock t = (t.tick, some .allocFail) := by
    rw [makeLock, if_neg (by simp [hcfg, hlock])]
  have hfailed : runCode .whole (initCode s.cfg s.cur.requester g 0x00#8 s.cur.pinMap) s
      = (t.tick, .failed (Pos.plain .mkLock) .allocFail) := by
    rw [hrest, plain, runCode_whole_cons, Micro.act, hmade]
  have htick : InitWorked g (initEvents s.cfg) s t.tick := by
    simpa using ht.pinEffect (tick_pinEffect t)
  obtain ⟨hpins, hdirs, hnow, spurious, hlatched, hspurious⟩ := htick.completed
  refine ⟨_, spurious, exec_init_of_ready hready, ?_⟩
  rw [htick.tornDown hfailed]
  exact ⟨by simp [ht.trace, Cause.seenFrom, Pos.plain], htick.calls, hlatched, hspurious, hpins, hdirs,
    hnow.trans (Nat.le_add_right ..), rfl, rfl, rfl, rfl, rfl, rfl, rfl, rfl, htick.port⟩

/-- Settles O30: the failing call is one of CONFIGURE's or of a command's, which tells its cause and the images. -/
theorem initFailsAtAnyGpioCall : Obligations.InitFailsAtAnyGpioCall := by
  unfold Obligations.InitFailsAtAnyGpioCall
  intro s g m rest k hready halloc hk hfails
  obtain ⟨u, hu, hugpio, hrun⟩ := runCode_initCode_of_storage g halloc
  obtain ⟨t, pos, f, hbody, he, hcause, hseen⟩ :=
    (initBody_failsAfter (cfg := s.cfg) (s := u) hk (by rw [GpioFailsAt, hugpio]; exact hfails)).append
      [plain .mkLock .mkLock, plain .done (.done s.cur.requester)]
  have ht : InitWorked g (cutAt k (initEvents s.cfg)) s t := hu.pinEffect he
  obtain ⟨imgs, hlatched, himgs⟩ := ht.latched
  obtain ⟨spurious, rfl, hspurious⟩ := EdgesOf_cutAt_initEvents hk himgs
  refine ⟨_, f, spurious, exec_init_of_ready hready, hcause, ?_⟩
  rw [ht.tornDown (hrun.trans hbody), hseen]
  exact ⟨rfl, by simp [ht.trace, initCause], ht.calls, ht.pins, ht.dirs, by simp [hlatched], hspurious, rfl, rfl, rfl,
    rfl, rfl, rfl, ht.port⟩

end Sys2Proof.Machine
end

section
/-! What stands before an operation on a handle: no request is taken beside one in progress (43_public_operations.md
R120), the handle must be VALID (R128), and GOTOXY needs an address (R124). -/

namespace Sys2Proof.Machine

/-! ### An operation that holds the lock -/

theorem waiters_eq_nil_of_not_isInit {op : Op} (hop : op.isInit = false) (c : Requester) (pos : Pos)
    (seen : List Requester) (rs : List Request) : waiters (.busy c op pos) seen rs = [] := by
  refine List.eq_nil_iff_forall_not_mem.mpr fun d hd => ?_
  obtain ⟨-, r, -, -, hmay⟩ := waiters_spec hd
  simp [mayServe, hop] at hmay

/-- Settles O11: no pending request may be served, so the operation's requester is the one agent. -/
theorem noRequestIsServedDuringALockedOperation : Obligations.NoRequestIsServedDuringALockedOperation := by
  unfold Obligations.NoRequestIsServedDuringALockedOperation
  intro s c op pos hseq hop
  exact step_of_no_waiter hseq (hseq ▸ waiters_eq_nil_of_not_isInit hop c pos [c] s.pending)

/-! ### The handle -/

theorem publicOp_of_not_valid (op : Op) {s : State} (hv : s.handle ≠ .valid) :
    publicOp op s = .next (refuseErr .handleInvalid s) := if_pos hv

/-- An operation on a handle that is not VALID is refused before its operands or its text are looked at. -/
theorem exec_of_not_valid {i : Instr} (hi : isHandleOperation i = true) {s : State} (hv : s.handle ≠ .valid) :
    exec i s = .next (refuseErr .handleInvalid s) := by
  cases i with
  | clear => exact publicOp_of_not_valid .clear hv
  | home => exact publicOp_of_not_valid .home hv
  | gotoxy x y => exact (if_neg hv).trans (publicOp_of_not_valid (.gotoxy x y) hv)
  | writeString =>
    have htext : withText s = s := if_neg fun ⟨h, _⟩ => hv h
    show execWriteString s = _
    rw [execWriteString, if_neg fun ⟨h, _⟩ => hv h, htext, publicOp_of_not_valid .writeString hv]
  | _ => cases hi

/-- Settles O42: the handle is checked first, and a refusal appends its RET alone. -/
theorem operationsNeedAValidHandle : Obligations.OperationsNeedAValidHandle := by
  unfold Obligations.OperationsNeedAValidHandle
  intro s i hi hv
  exact ⟨_, exec_of_not_valid hi hv, refuseErr_onlyReturns _ _⟩

/-! ### The address of GOTOXY -/

/-- An operation on a handle waits, faults or goes on, but is never without a meaning. -/
theorem publicOp_ne_refused (op : Op) (s : State) (ρ : Refusal) : publicOp op s ≠ .refused ρ := by
  unfold publicOp
  split
  · nofun
  · split
    · nofun
    · split
      · nofun
      · split <;> nofun

/-- A position in range has no address where its row has no base. -/
theorem gotoxyTarget_of_noRowBase {x y : Byte} {dc : DisplayConfig} {cols rows : Nat} {s : State}
    (hconfig : s.config = some dc) (hgeo : geometryOf s.cfg dc.geometry = some (cols, rows)) (hy : y.toNat < rows)
    (hx : x.toNat < cols)
    (hbases : rowBasesOf s.cfg rows = none ∨ ∃ bases, rowBasesOf s.cfg rows = some bases ∧ bases[y.toNat]? = none) :
    gotoxyTarget s.cfg s.config x y = .noRowBase := by
  simp only [gotoxyTarget, hconfig, hgeo, if_neg (Nat.not_le.mpr hy), if_neg (Nat.not_le.mpr hx)]
  rcases hbases with hnone | ⟨bases, hbases, hbase⟩
  · rw [hnone]
  · simp only [hbases, hbase]

/-- Settles O39: a missing row base stops GOTOXY at the port, and a position outside the geometry is found first. -/
theorem gotoxyWithoutRowBasesIsRefused : Obligations.GotoxyWithoutRowBasesIsRefused := by
  unfold Obligations.GotoxyWithoutRowBasesIsRefused
  intro s x y dc cols rows hv hconfig hgeo
  have hexec : exec (.gotoxy x y) s = _ := if_pos hv
  refine ⟨fun hy hx hbases => ?_, fun hout ρ => ?_⟩
  · rw [hexec, gotoxyTarget_of_noRowBase hconfig hgeo hy hx hbases]
  · rw [hexec, gotoxyTarget_of_outOfRange hconfig hgeo (hout.imp_right .inl)]
    exact publicOp_ne_refused _ s ρ

/-- The two row bases of the default table, `0x80` added (43_public_operations.md R124; log 20). -/
theorem setDdramByte_sixteenByTwo :
    ∀ n < 16, setDdramByte (0x00 + n) = 0x80#8 + BitVec.ofNat 8 n
      ∧ setDdramByte (0x40 + n) = 0xC0#8 + BitVec.ofNat 8 n := by decide

/-- Settles O40: each position is in range, and its address is its row's base and its column. -/
theorem sixteenByTwoAddressTable : Obligations.SixteenByTwoAddressTable := by
  unfold Obligations.SixteenByTwoAddressTable
  intro m x y hx hy
  obtain ⟨hrow0, hrow1⟩ := setDdramByte_sixteenByTwo x.toNat hx
  rw [BitVec.ofNat_toNat, BitVec.setWidth_eq] at hrow0 hrow1
  have htarget : ∀ base, [0x00, 0x40][y.toNat]? = some base → base + x.toNat ≤ 0x7F →
      gotoxyTarget Config.default (some { geometry := 0x00#8, mode := m }) x y
        = .byte (setDdramByte (base + x.toNat)) :=
    fun base hbase haddr =>
      gotoxyTarget_of_inRange (s := { State.reset with config := some { geometry := 0x00#8, mode := m } })
        ⟨rfl, rfl, hy, hx, rfl, hbase, haddr⟩
  obtain h0 | h1 : y = 0x00#8 ∨ y = 0x01#8 := by bv_omega
  · subst h0
    rw [htarget 0x00 rfl (by omega), hrow0, if_pos rfl]
  · subst h1
    rw [htarget 0x40 rfl (by omega), hrow1, if_neg (by decide)]

end Sys2Proof.Machine
end

section
/-! The operations on a handle run whole (43_public_operations.md R120): the lock, a body whose steps all append their
events alone, then the release and the result ok; or, after a failure in the body, the release and the failure. -/

namespace Sys2Proof.Machine

/-! ### Code that ends -/

/-- Run whole, the code makes the events `evs` and uses up the answers of `n` GPIO calls. -/
def Completes (evs : List Event) (n : Nat) (code : Code) (s : State) : Prop :=
  ∃ t, runCode .whole code s = (t, .done) ∧ PinEffect evs s t ∧ t.env.gpio = s.env.gpio.drop n

theorem Completes.append {a b : List Event} {n m : Nat} {x y : Code} {s : State} (h : Completes a n x s)
    (h' : ∀ t, PinEffect a s t → t.env.gpio = s.env.gpio.drop n → Completes b m y t) :
    Completes (a ++ b) (n + m) (x ++ y) s := by
  obtain ⟨t, hrun, he, hgpio⟩ := h
  obtain ⟨u, hrun', he', hgpio'⟩ := h' t he hgpio
  exact ⟨u, by rw [runCode_whole_append, hrun]; exact hrun', he.trans he', by rw [hgpio', hgpio, List.drop_drop]⟩

/-- The failing call is behind code that ends. -/
theorem Completes.failsAfter {a b : List Event} {n : Nat} {c : GpioCause → Cause} {x y : Code} {s : State}
    (h : Completes a n x s)
    (h' : ∀ t, PinEffect a s t → t.env.gpio = s.env.gpio.drop n → FailsAfter b c y t) :
    FailsAfter (a ++ b) c (x ++ y) s := by
  obtain ⟨t, hrun, he, hgpio⟩ := h
  obtain ⟨u, pos, f, hrun', he', hcause, hseen⟩ := h' t he hgpio
  exact ⟨u, pos, f, by rw [runCode_whole_append, hrun]; exact hrun', he.trans he', lastCause_append hcause a, hseen⟩

theorem GpioOk.left {n m : Nat} {s : State} (h : GpioOk (n + m) s) : GpioOk n s := by
  have htake := congrArg (List.take n) h
  rwa [List.take_take, List.take_replicate, Nat.min_eq_left (Nat.le_add_right n m)] at htake

theorem GpioOk.drop {n m : Nat} {s t : State} (h : GpioOk (n + m) s) (ht : t.env.gpio = s.env.gpio.drop n) :
    GpioOk m t := by
  have hdrop := congrArg (List.drop n) h
  rw [List.drop_take, List.drop_replicate, Nat.add_sub_cancel_left] at hdrop
  rwa [GpioOk, ht]

theorem GpioOk.of_eq {n : Nat} {s t : State} (h : GpioOk n s) (ht : t.env.gpio = s.env.gpio) : GpioOk n t := by
  rwa [GpioOk, ht]

theorem GpioFailsAt.of_eq {k : Nat} {s t : State} (h : GpioFailsAt k s) (ht : t.env.gpio = s.env.gpio) :
    GpioFailsAt k t := by
  rwa [GpioFailsAt, ht]

/-! ### A byte sent -/

theorem sendByte_completes {t : Nat} {ph : Phase} {rs : Bool} {v : Byte} {s : State} (hg : GpioOk 16 s) :
    Completes (byteEvents t rs v) 16 (sendByte t ph rs v) s := by
  rw [← codeCalls_sendByte t ph rs v] at hg ⊢
  exact runCode_pin_ok (allPin_sendByte t ph rs v) hg

/-- Outside INIT a byte's failed call hands its cause up unchanged (60_exceptions.md R141). -/
theorem sendByte_failsAfter {t : Nat} {ph : Phase} {rs : Bool} {v : Byte} {s : State} {k : Nat}
    (hph : ∀ j, ph ≠ .initCmd j) (hk : k < 16) (hg : GpioFailsAt k s) :
    FailsAfter (cutAt k (byteEvents t rs v)) .gpio (sendByte t ph rs v) s := by
  refine failsAfter_of_lt (allPin_sendByte t ph rs v) (hk.trans_eq (codeCalls_sendByte ..).symm) hg fun pos hpos f => ?_
  obtain ⟨pm, hmem, rfl⟩ := List.mem_map.mp hpos
  rw [phase_of_mem_sendByte hmem]
  exact Cause.seenFrom_eq hph _

/-- Cut at call `k`, a byte has shown the images of its nibbles completed before it (41_nibble_transfer.md R101). -/
theorem EdgesOf_cutAt_byteEvents {t : Nat} {rs : Bool} {v : Byte} {pins : PerPin Level} {imgs : List Image} {k : Nat}
    (hk : k < 16) (h : EdgesOf pins (cutAt k (byteEvents t rs v)) imgs) : imgs = (byteImages rs v).take (k / 8) := by
  rw [(cutAt_byteEvents t rs v pins (PerPin.all .unconfigured) hk).2 h]
  split
  · rw [Nat.div_eq_of_lt ‹k < 8›, List.take_zero]
  · rw [show k / 8 = 1 by omega]
    rfl

theorem configAll_cutAt_byteEvents (t : Nat) (rs : Bool) (v : Byte) (dirs : PerPin Dir) {k : Nat} (hk : k < 16) :
    configAll (cutAt k (byteEvents t rs v)) dirs = dirs :=
  (cutAt_byteEvents t rs v (PerPin.all .unknown) dirs hk).1

/-! ### The lock, the result and what they enclose -/

/-- The lock is released and the result handed back, in the last step of an operation on a handle or in its abort
(43_public_operations.md R120, 60_exceptions.md R146). -/
def returned (c : Requester) (r : Result) (s : State) : State :=
  State.tick { (State.log (.rel c) { s with lock := .free }).ret c r with text := [], seq := .idle }

theorem PinEffect.framed {c : Requester} {evs : List Event} {s t : State} (he : PinEffect evs (acquired c s) t)
    (r : Result) : Framed c evs r s (returned c r t) where
  trace := by simp [returned, he.trace, acquired]
  calls := he.calls
  latched := he.latched
  pins := he.pins
  dirs := he.dirs
  now := (Nat.add_le_add_right (Nat.le_add_right ..) _).trans (he.now.trans (Nat.le_add_right ..))
  result := rfl
  lock := rfl
  seq := rfl
  text := rfl
  handle := ⟨he.handle, he.config, he.pinMap, he.dispatch⟩
  port := ⟨he.cfg, he.otherPins, he.pending, he.cur, he.grain⟩

/-- An operation that appends nothing between its lock and its result leaves the pins alone. -/
theorem Framed.keepsPins {c : Requester} {r : Result} {s t : State} (h : Framed c [] r s t)
    (hgpio : t.env.gpio = s.env.gpio) : KeepsPins s t := by
  obtain ⟨imgs, hlatched, rfl⟩ := h.latched
  exact ⟨h.pins, h.dirs, by simpa using hlatched, by simpa [callsOf] using h.calls, hgpio⟩

theorem releaseOk_eq_returned {c : Requester} {t : State} (hl : t.lock = .held c) :
    { (releaseOk c t).tick with seq := .idle } = returned c .ok t := by
  rw [releaseOk, lockRelease, if_pos hl]
  rfl

theorem abortOp_eq_returned {op : Op} (hop : op.onHandle = true) {c : Requester} {t : State} (hl : t.lock = .held c)
    (hon : t.cfg.lockReleaseOnError = true) (f : Cause) : abortOp c op f t = returned c (.err f) t := by
  cases op with
  | init g m pm => cases hop
  | level1 x => cases hop
  | _ => simp [abortOp, unwind, retFailure, hon, lockRelease, hl, Op.failure, returned]

theorem finishOp_of_onHandle {op : Op} (hop : op.onHandle = true) (s : State) :
    finishOp op s = { s with seq := .idle } := by
  cases op with
  | level1 x => cases hop
  | _ => rfl

/-- On a ready handle the operation at the port takes the lock and runs its body. -/
theorem publicOp_of_ready {op : Op} {code : Code} {s : State} (hr : Ready s)
    (hcode : opCode s.cur.requester op s = some (plain .acq (.acq s.cur.requester) :: code)) :
    publicOp op s
      = .next (settleRun .whole s.cur.requester op (runCode .whole code (acquired s.cur.requester s))) := by
  obtain ⟨hv, hl, hs, -, hw⟩ := hr
  rw [publicOp, if_neg (not_not.2 hv), if_neg (by simp [hl]), if_neg (by simp [hl, hs]), hcode]
  simp only [runOp, hw, runCode_acq code hl]

theorem publicOp_of_done {op : Op} (hop : op.onHandle = true) {body : Code} {evs : List Event} {s t : State}
    (hr : Ready s)
    (hcode : opCode s.cur.requester op s
      = some (plain .acq (.acq s.cur.requester) :: (body ++ [plain .rel (.release s.cur.requester)])))
    (hrun : runCode .whole body (acquired s.cur.requester s) = (t, .done))
    (he : PinEffect evs (acquired s.cur.requester s) t) : publicOp op s = .next (returned s.cur.requester .ok t) := by
  rw [publicOp_of_ready hr hcode, runCode_whole_append, hrun]
  simp only [runCode_rel, settleRun, finishOp_of_onHandle hop, releaseOk_eq_returned he.lock]

theorem publicOp_of_failed {op : Op} (hop : op.onHandle = true) {code : Code} {evs : List Event} {s t : State}
    {pos : Pos} {f : Cause} (hr : Ready s) (hon : s.cfg.lockReleaseOnError = true)
    (hcode : opCode s.cur.requester op s = some (plain .acq (.acq s.cur.requester) :: code))
    (hrun : runCode .whole code (acquired s.cur.requester s) = (t, .failed pos f))
    (he : PinEffect evs (acquired s.cur.requester s) t) :
    publicOp op s = .next (returned s.cur.requester (.err (f.seenFrom pos.phase)) t) := by
  rw [publicOp_of_ready hr hcode, hrun]
  simp only [settleRun, abortOp_eq_returned hop he.lock (he.cfg ▸ hon)]

/-- An operation on a handle whose body ends with every call answered ok. -/
theorem publicOp_done {op : Op} (hop : op.onHandle = true) {body : Code} {evs : List Event} {imgs : List Image}
    {pins : PerPin Level} {n ms : Nat} {s : State} (hr : Ready s)
    (hcode : opCode s.cur.requester op s
      = some (plain .acq (.acq s.cur.requester) :: (body ++ [plain .rel (.release s.cur.requester)])))
    (h : Completes evs n body (acquired s.cur.requester s)) (himgs : ∀ {x}, EdgesOf s.pins evs x → x = imgs)
    (hpins : driveAll evs s.pins = pins) (hdirs : configAll evs s.dirs = s.dirs) (hms : waitedMs evs = ms) :
    ∃ t, publicOp op s = .next t ∧ OperationDone evs imgs pins n ms s t := by
  obtain ⟨t, hrun, he, hgpio⟩ := h
  have hf := he.framed .ok
  obtain ⟨x, hlatched, hx⟩ := hf.latched
  exact ⟨_, publicOp_of_done hop hr hcode hrun he, hf.trace,
    fun pm hpm => State.pinMapInUse_of_some hpm ▸ hf.calls, himgs hx ▸ hlatched, hf.pins.trans hpins, hms ▸ hf.now,
    hgpio, hf.result, hf.lock, hf.seq, hf.text, hf.dirs.trans hdirs, hf.handle, hf.port⟩

/-- An operation on a handle whose body is aborted at a GPIO call. -/
theorem publicOp_aborted {op : Op} (hop : op.onHandle = true) {code : Code} {evs : List Event} {imgs : List Image}
    {s : State} (hr : Ready s) (hon : s.cfg.lockReleaseOnError = true)
    (hcode : opCode s.cur.requester op s = some (plain .acq (.acq s.cur.requester) :: code))
    (h : FailsAfter evs .gpio code (acquired s.cur.requester s)) (himgs : ∀ {x}, EdgesOf s.pins evs x → x = imgs)
    (hdirs : configAll evs s.dirs = s.dirs) :
    ∃ t, publicOp op s = .next t ∧ OperationAborted evs imgs s t := by
  obtain ⟨t, pos, f, hrun, he, hcause, hseen⟩ := h
  have hf := he.framed (.err (.gpio f))
  obtain ⟨x, hlatched, hx⟩ := hf.latched
  exact ⟨_, hseen ▸ publicOp_of_failed hop hr hon hcode hrun he, f, hcause, hf.trace,
    fun pm hpm => State.pinMapInUse_of_some hpm ▸ hf.calls, himgs hx ▸ hlatched, hf.pins, hf.result, hf.lock, hf.seq,
    hf.text, hf.dirs.trans hdirs, hf.handle, hf.port⟩

end Sys2Proof.Machine
end

section
/-! CLEAR, HOME and GOTOXY (43_public_operations.md R121 to R124): each sends one command byte inside the lock. -/

namespace Sys2Proof.Machine

/-! ### CLEAR and HOME -/

/-- CLEAR and HOME between their lock and their release: the byte, then the settle wait. -/
def commandBody (cfg : Config) (v : Byte) : Code :=
  sendByte cfg.strobeMs .cmd false v ++ [plain .settle (.sleep cfg.execMs)]

theorem commandCode_fourBit (cfg : Config) (c : Requester) (v : Byte) :
    commandCode cfg c fourBit v = plain .acq (.acq c) :: (commandBody cfg v ++ [plain .rel (.release c)]) := by
  simp [commandCode, commandBody, fourBit, Strategy.rs]

theorem settle_completes (cfg : Config) (s : State) :
    Completes [.wait cfg.execMs] 0 [plain .settle (.sleep cfg.execMs)] s :=
  ⟨_, runCode_whole_cons _ _ [] s, sleepFor_spec cfg.execMs s, rfl⟩

theorem commandRule_of_publicOp {i : Instr} {op : Op} {v : Byte} (hop : op.onHandle = true)
    (hexec : ∀ s, exec i s = publicOp op s)
    (hcode : ∀ c s, opCode c op s = s.dispatch.map fun d => commandCode s.cfg c d v) : CommandRule i v := by
  have hbody : ∀ s, Ready s → opCode s.cur.requester op s
      = some (plain .acq (.acq s.cur.requester)
          :: (commandBody s.cfg v ++ [plain .rel (.release s.cur.requester)])) := by
    intro s ⟨_, _, _, hdispatch, _⟩
    rw [hcode, hdispatch, Option.map_some, commandCode_fourBit]
  refine ⟨fun s hr hg => ?_, fun s k hr hon hk hg => ?_⟩
  · rw [hexec]
    refine publicOp_done hop hr (hbody s hr)
      ((sendByte_completes (s := acquired _ s) hg).append fun t _ _ => settle_completes s.cfg t) ?_ ?_ ?_ ?_
    · intro x hx
      obtain ⟨a, b, rfl, ha, hb⟩ := hx.split
      rw [EdgesOf_byteEvents ha, (edgesOf_iff_eq_nil (by simp)).mp hb, List.append_nil]
    · rw [driveAll_append, driveAll_byteEvents]
      rfl
    · rw [configAll_append, configAll_byteEvents]
      rfl
    · rw [waitedMs_append, waitedMs_byteEvents]
      rfl
  · rw [hexec]
    exact publicOp_aborted hop hr hon (hbody s hr)
      (((sendByte_failsAfter (ph := .cmd) (s := acquired _ s) nofun hk hg).append _).append _)
      (EdgesOf_cutAt_byteEvents hk) (configAll_cutAt_byteEvents _ _ _ _ hk)

/-- Settles O36: CLEAR is the command byte 0x01. -/
theorem clearSendsOneCommandAndWaits : Obligations.ClearSendsOneCommandAndWaits := by
  unfold Obligations.ClearSendsOneCommandAndWaits
  exact ⟨rfl, rfl, rfl, commandRule_of_publicOp (op := .clear) rfl (fun _ => rfl) fun _ _ => rfl⟩

/-- Settles O37: HOME is the command byte 0x02. -/
theorem homeSendsOneCommandAndWaits : Obligations.HomeSendsOneCommandAndWaits := by
  unfold Obligations.HomeSendsOneCommandAndWaits
  exact ⟨rfl, rfl, rfl, commandRule_of_publicOp (op := .home) rfl (fun _ => rfl) fun _ _ => rfl⟩

/-! ### GOTOXY -/

/-- The byte of a DDRAM address of seven bits: its images, and the nibble it leaves on the lines (30_encoding.md
R78). -/
theorem addressByte_nibbles :
    ∀ a : BitVec 7, byteImages false (0x80#8 ||| BitVec.ofNat 8 a.toNat)
        = [0b00#2 ++ (0b1#1 ++ a.extractLsb' 4 3), 0b00#2 ++ a.extractLsb' 0 4]
      ∧ loNibble (0x80#8 ||| BitVec.ofNat 8 a.toNat) = a.extractLsb' 0 4 := by decide

theorem addressByte_sends {addr : Nat} (h : addr ≤ 0x7F) :
    byteImages false (addressByte addr) = addressImages addr
      ∧ loNibble (addressByte addr) = (BitVec.ofNat 7 addr).extractLsb' 0 4 := by
  have hnibbles := addressByte_nibbles (BitVec.ofNat 7 addr)
  rwa [BitVec.toNat_ofNat, Nat.mod_eq_of_lt (show addr < 2 ^ 7 by omega)] at hnibbles

/-- GOTOXY between its lock and its release: the range check, then the byte. -/
def gotoxyBody (cfg : Config) (x y v : Byte) : Code :=
  plain .check (.rangeCheck x y) :: sendByte cfg.strobeMs .cmd false v

theorem opCode_gotoxy_of_byte {c : Requester} {x y v : Byte} {s : State} (hd : s.dispatch = some fourBit)
    (ht : gotoxyTarget s.cfg s.config x y = .byte v) :
    opCode c (.gotoxy x y) s
      = some (plain .acq (.acq c) :: (gotoxyBody s.cfg x y v ++ [plain .rel (.release c)])) := by
  simp [opCode, hd, gotoxyCode, ht, gotoxyBody, fourBit, Strategy.rs]

theorem opCode_gotoxy_of_outOfRange {c : Requester} {x y : Byte} {s : State} (hd : s.dispatch = some fourBit)
    (ht : gotoxyTarget s.cfg s.config x y = .outOfRange) :
    opCode c (.gotoxy x y) s = some (plain .acq (.acq c) :: [plain .check (.rangeCheck x y)]) := by
  simp [opCode, hd, gotoxyCode, ht]

theorem rangeCheck_completes {x y v : Byte} {s : State} (ht : gotoxyTarget s.cfg s.config x y = .byte v) :
    Completes [] 0 [plain .check (.rangeCheck x y)] s := by
  refine ⟨s.tick, ?_, tick_pinEffect s, rfl⟩
  rw [plain, runCode_whole_cons, Micro.act, ht]
  rfl

theorem rangeCheck_fails {x y : Byte} {s : State} (ht : gotoxyTarget s.cfg s.config x y = .outOfRange) :
    runCode .whole [plain .check (.rangeCheck x y)] s = (s.tick, .failed (Pos.plain .check) (.rangeError x y)) := by
  rw [plain, runCode_whole_cons, Micro.act, ht]

/-- GOTOXY goes on as an operation on the handle where its position has an address or is out of range. -/
theorem exec_gotoxy_of_valid {x y : Byte} {s : State} (hv : s.handle = .valid)
    (h : (∃ v, gotoxyTarget s.cfg s.config x y = .byte v) ∨ gotoxyTarget s.cfg s.config x y = .outOfRange) :
    exec (.gotoxy x y) s = publicOp (.gotoxy x y) s := by
  show execGotoxy x y s = _
  rw [execGotoxy, if_pos hv]
  obtain ⟨v, ht⟩ | ht := h <;> rw [ht]

theorem exec_gotoxy_done {x y : Byte} {dc : DisplayConfig} {cols rows : Nat} {bases : List Nat} {base : Nat} {s : State}
    (hr : Ready s) (hin : InRange x y dc cols rows bases base s) (hg : GpioOk 16 s) :
    ∃ t, exec (.gotoxy x y) s = .next t
      ∧ OperationDone (byteEvents s.cfg.strobeMs false (addressByte (base + x.toNat))) (addressImages (base + x.toNat))
          (nibblePins false ((BitVec.ofNat 7 (base + x.toNat)).extractLsb' 0 4)) 16 (4 * s.cfg.strobeMs) s t := by
  have ⟨hv, _, _, hd, _⟩ := hr
  have ⟨_, _, _, _, _, _, haddr⟩ := hin
  have ht := gotoxyTarget_of_inRange hin
  obtain ⟨himgs, hlow⟩ := addressByte_sends haddr
  rw [exec_gotoxy_of_valid hv (.inl ⟨_, ht⟩), ← himgs, ← hlow]
  exact publicOp_done rfl hr (opCode_gotoxy_of_byte hd ht)
    ((rangeCheck_completes (s := acquired _ s) ht).append fun t _ hgpio => sendByte_completes (hg.of_eq hgpio))
    EdgesOf_byteEvents (driveAll_byteEvents ..) (configAll_byteEvents ..) (waitedMs_byteEvents ..)

theorem exec_gotoxy_outOfRange {x y : Byte} {dc : DisplayConfig} {cols rows : Nat} {s : State} (hr : Ready s)
    (hconfig : s.config = some dc) (hgeo : geometryOf s.cfg dc.geometry = some (cols, rows))
    (hout : OutOfRange x y cols rows s) (hon : s.cfg.lockReleaseOnError = true) :
    exec (.gotoxy x y) s
      = .next (returned s.cur.requester (.err (.rangeError x y)) (acquired s.cur.requester s).tick) := by
  have ⟨hv, _, _, hd, _⟩ := hr
  have ht := gotoxyTarget_of_outOfRange hconfig hgeo hout
  rw [exec_gotoxy_of_valid hv (.inr ht)]
  exact publicOp_of_failed rfl hr hon (opCode_gotoxy_of_outOfRange hd ht) (rangeCheck_fails (s := acquired _ s) ht)
    (tick_pinEffect _)

theorem exec_gotoxy_aborted {x y : Byte} {dc : DisplayConfig} {cols rows : Nat} {bases : List Nat} {base k : Nat}
    {s : State} (hr : Ready s) (hin : InRange x y dc cols rows bases base s) (hon : s.cfg.lockReleaseOnError = true)
    (hk : k < 16) (hg : GpioFailsAt k s) :
    ∃ t, exec (.gotoxy x y) s = .next t
      ∧ OperationAborted (cutAt k (byteEvents s.cfg.strobeMs false (addressByte (base + x.toNat))))
          ((addressImages (base + x.toNat)).take (k / 8)) s t := by
  have ⟨hv, _, _, hd, _⟩ := hr
  have ⟨_, _, _, _, _, _, haddr⟩ := hin
  have ht := gotoxyTarget_of_inRange hin
  rw [exec_gotoxy_of_valid hv (.inl ⟨_, ht⟩), ← (addressByte_sends haddr).1]
  have hfails := (rangeCheck_completes (s := acquired s.cur.requester s) ht).failsAfter fun t _ hgpio =>
    sendByte_failsAfter (t := s.cfg.strobeMs) (ph := .cmd) (rs := false) (v := addressByte (base + x.toNat)) nofun hk
      (hg.of_eq hgpio)
  exact publicOp_aborted rfl hr hon (opCode_gotoxy_of_byte hd ht) (hfails.append _) (EdgesOf_cutAt_byteEvents hk)
    (configAll_cutAt_byteEvents _ _ _ _ hk)

/-- Settles O38: the position has an address, whose byte is sent or aborted, or it is found out of range inside the
lock. -/
theorem gotoxySendsTheAddressOrFails : Obligations.GotoxySendsTheAddressOrFails := by
  unfold Obligations.GotoxySendsTheAddressOrFails
  intro x y
  have hword : encode (.gotoxy x y) = .req20 (0x4#4 ++ x ++ y) := rfl
  refine ⟨hword ▸ encodeThenDecodeGivesTheInstruction (.gotoxy x y) rfl, rfl,
    fun s dc cols rows bases base hr hin hg => exec_gotoxy_done hr hin hg,
    fun s dc cols rows hr hconfig hgeo hout hon => ⟨_, exec_gotoxy_outOfRange hr hconfig hgeo hout hon, ?_⟩,
    fun s dc cols rows bases base k hr hin hon hk hg => exec_gotoxy_aborted hr hin hon hk hg⟩
  have hf := (tick_pinEffect (acquired s.cur.requester s)).framed (.err (.rangeError x y))
  exact ⟨by simp [hf.trace], hf.result, hf.keepsPins rfl, hf.lock, hf.seq, hf.text, hf.handle, hf.port⟩

end Sys2Proof.Machine
end

section
/-! WRITE_STRING (43_public_operations.md R125): each byte before the terminator is read and sent as data, the
terminator only read. -/

namespace Sys2Proof.Machine

/-! ### Terminated texts -/

theorem textTerminated_cons (b : Byte) {bs : List Byte} (h : textTerminated bs = true) :
    textTerminated (b :: bs) = true := by
  rw [textTerminated, List.contains_cons]
  exact Bool.or_eq_true_iff.mpr (.inr h)

/-- A terminated text begins with its terminator, or with another byte before a terminated text. -/
theorem terminated_induction {motive : ∀ bs, textTerminated bs = true → Prop}
    (stop : ∀ bs, motive (0x00#8 :: bs) rfl)
    (more : ∀ b bs (_ : b ≠ 0x00#8) (hbs : textTerminated bs = true), motive bs hbs →
      motive (b :: bs) (textTerminated_cons b hbs))
    (bs : List Byte) (hbs : textTerminated bs = true) : motive bs hbs := by
  induction bs with
  | nil => cases hbs
  | cons b bs ih =>
    by_cases hb : b = 0x00#8
    · subst hb
      exact stop bs
    · have hrest : textTerminated bs = true := by simpa [textTerminated, Ne.symm hb] using hbs
      exact more b bs hb hrest (ih hrest)

theorem textBody_stop (bs : List Byte) : textBody (0x00#8 :: bs) = [] := rfl

theorem textBody_more {b : Byte} (hb : b ≠ 0x00#8) (bs : List Byte) : textBody (b :: bs) = b :: textBody bs := by
  simp [textBody, hb]

theorem stringCode_load_stop (cfg : Config) (d : DispatchTable) (i : Nat) (bs : List Byte) :
    stringCode cfg d (Memory.load i (0x00#8 :: bs)) = [plain (.fetch i) (.fetch i)] := rfl

theorem stringCode_load_more (cfg : Config) (d : DispatchTable) (i : Nat) {b : Byte} (hb : b ≠ 0x00#8)
    (bs : List Byte) :
    stringCode cfg d (Memory.load i (b :: bs))
      = [plain (.fetch i) (.fetch i)]
        ++ (sendByte cfg.strobeMs (.data i) d.writeData.rs b ++ stringCode cfg d (Memory.load (i + 1) bs)) := by
  rw [Memory.load, stringCode, if_neg hb]
  rfl

/-- The TEXT space holds the bytes `bs` from index `i` on (20_memory.md R52). -/
def TextFrom (text : Memory) (i : Nat) (bs : List Byte) : Prop := ∀ k, Memory.read text (i + k) = bs[k]?

theorem TextFrom.head {text : Memory} {i : Nat} {b : Byte} {bs : List Byte} (h : TextFrom text i (b :: bs)) :
    Memory.read text i = some b := h 0

theorem TextFrom.tail {text : Memory} {i : Nat} {b : Byte} {bs : List Byte} (h : TextFrom text i (b :: bs)) :
    TextFrom text (i + 1) bs := fun k => by
  rw [Nat.add_assoc, Nat.add_comm 1 k]
  exact h (k + 1)

/-! ### The events of a text -/

theorem stringEvents_cons (t i : Nat) (b : Byte) (bs : List Byte) :
    stringEvents t i (b :: bs) = [.rd i b] ++ (byteEvents t true b ++ stringEvents t (i + 1) bs) := rfl

theorem cutAt_rd (k i : Nat) (b : Byte) (evs : List Event) :
    cutAt k (.rd i b :: evs) = [.rd i b] ++ cutAt k evs := by cases k <;> rfl

theorem cutAt_stringEvents_of_lt (t i : Nat) (b : Byte) (bs : List Byte) {k : Nat} (hk : k < 16) :
    cutAt k (stringEvents t i (b :: bs)) = [.rd i b] ++ cutAt k (byteEvents t true b) := by
  have hcalls : k < codeCalls (sendByte t .cmd true b) := hk.trans_eq (codeCalls_sendByte ..).symm
  rw [stringEvents_cons, List.singleton_append, cutAt_rd, ← codeEvents_sendByte t .cmd true b,
    cutAt_codeEvents_of_lt hcalls]

theorem cutAt_stringEvents_add (t i : Nat) (b : Byte) (bs : List Byte) (k : Nat) :
    cutAt (16 + k) (stringEvents t i (b :: bs))
      = [.rd i b] ++ (byteEvents t true b ++ cutAt k (stringEvents t (i + 1) bs)) := by
  rw [stringEvents_cons, List.singleton_append, cutAt_rd, ← codeEvents_sendByte t .cmd true b,
    ← codeCalls_sendByte t .cmd true b, cutAt_codeEvents_add]

theorem driveAll_stringEvents (t i : Nat) (bs : List Byte) (pins : PerPin Level) :
    driveAll (stringEvents t i bs) pins = bs.getLast?.elim pins fun v => nibblePins true (loNibble v) := by
  induction bs generalizing i pins with
  | nil => rfl
  | cons b bs ih =>
    rw [stringEvents_cons, driveAll_append, driveAll_append, driveAll_byteEvents, ih, List.getLast?_cons]
    cases bs.getLast? <;> rfl

theorem configAll_stringEvents (t i : Nat) (bs : List Byte) (dirs : PerPin Dir) :
    configAll (stringEvents t i bs) dirs = dirs := by
  induction bs generalizing i with
  | nil => rfl
  | cons b bs ih =>
    rw [stringEvents_cons, configAll_append, configAll_append, configAll_byteEvents]
    exact ih (i + 1)

theorem waitedMs_stringEvents (t i : Nat) (bs : List Byte) :
    waitedMs (stringEvents t i bs) = 4 * bs.length * t := by
  induction bs generalizing i with
  | nil => simp [stringEvents, waitedMs]
  | cons b bs ih =>
    rw [stringEvents_cons, waitedMs_append, waitedMs_append, waitedMs_byteEvents, ih, List.length_cons]
    simp only [waitedMs]
    ring

/-- Reading a byte shows no image (20_memory.md R60). -/
theorem edgesOf_rd {i : Nat} {b : Byte} {evs : List Event} {pins : PerPin Level} {imgs : List Image}
    (h : EdgesOf pins ([.rd i b] ++ evs) imgs) : EdgesOf pins evs imgs := by
  obtain ⟨x, y, rfl, hx, hy⟩ := h.split
  rwa [(edgesOf_iff_eq_nil (by simp)).mp hx]

theorem EdgesOf_stringEvents {t i : Nat} {bs : List Byte} {pins : PerPin Level} {imgs : List Image}
    (h : EdgesOf pins (stringEvents t i bs) imgs) : imgs = bs.flatMap (byteImages true) := by
  induction bs generalizing i pins imgs with
  | nil => exact (edgesOf_iff_eq_nil (by simp [stringEvents])).mp h
  | cons b bs ih =>
    rw [stringEvents_cons] at h
    obtain ⟨x, y, rfl, hx, hy⟩ := (edgesOf_rd h).split
    rw [EdgesOf_byteEvents hx, ih hy, List.flatMap_cons]

/-- Cut at call `k`, a text has shown the images of its nibbles completed before it. -/
theorem EdgesOf_cutAt_stringEvents {t i k : Nat} {bs : List Byte} {pins : PerPin Level} {imgs : List Image}
    (hk : k < 16 * bs.length) (h : EdgesOf pins (cutAt k (stringEvents t i bs)) imgs) :
    imgs = (bs.flatMap (byteImages true)).take (k / 8) := by
  induction bs generalizing i k pins imgs with
  | nil => cases hk
  | cons b bs ih =>
    rw [List.length_cons] at hk
    by_cases hfirst : k < 16
    · rw [cutAt_stringEvents_of_lt t i b bs hfirst] at h
      rw [EdgesOf_cutAt_byteEvents hfirst (edgesOf_rd h), List.flatMap_cons,
        List.take_append_of_le_length (show k / 8 ≤ 2 by omega)]
    · obtain ⟨n, rfl⟩ := Nat.exists_eq_add_of_le (Nat.le_of_not_lt hfirst)
      rw [cutAt_stringEvents_add] at h
      obtain ⟨x, y, rfl, hx, hy⟩ := (edgesOf_rd h).split
      rw [EdgesOf_byteEvents hx, ih (by omega) hy, show (16 + n) / 8 = n / 8 + 2 by omega]
      rfl

theorem configAll_cutAt_stringEvents {t i k : Nat} {bs : List Byte} (dirs : PerPin Dir) (hk : k < 16 * bs.length) :
    configAll (cutAt k (stringEvents t i bs)) dirs = dirs := by
  induction bs generalizing i k with
  | nil => cases hk
  | cons b bs ih =>
    rw [List.length_cons] at hk
    by_cases hfirst : k < 16
    · rw [cutAt_stringEvents_of_lt t i b bs hfirst, configAll_append]
      exact configAll_cutAt_byteEvents t true b dirs hfirst
    · obtain ⟨n, rfl⟩ := Nat.exists_eq_add_of_le (Nat.le_of_not_lt hfirst)
      rw [cutAt_stringEvents_add, configAll_append, configAll_append, configAll_byteEvents]
      exact ih (by omega)

/-! ### The loop -/

theorem textRead_pinEffect {i : Nat} {b : Byte} {s : State} (h : Memory.read s.text i = some b) :
    PinEffect [.rd i b] s (textRead i s) := by
  rw [textRead, h]
  constructor <;> simp [configEvent, driveEvent, waitedMs, EdgesOf, EdgeOf, callsOf, callOf]

theorem fetch_completes {i : Nat} {b : Byte} {s : State} (h : Memory.read s.text i = some b) :
    Completes [.rd i b] 0 [plain (.fetch i) (.fetch i)] s := by
  refine ⟨textRead i s, runCode_whole_cons _ _ [] s, textRead_pinEffect h, ?_⟩
  rw [textRead, h]
  rfl

theorem stringCode_completes {bs : List Byte} (hbs : textTerminated bs = true) {cfg : Config} {i : Nat} {s : State}
    (htext : TextFrom s.text i bs) (hg : GpioOk (16 * (textBody bs).length) s) :
    Completes (stringEvents cfg.strobeMs i (textBody bs)) (16 * (textBody bs).length)
      (stringCode cfg fourBit (Memory.load i bs)) s := by
  induction bs, hbs using terminated_induction generalizing i s with
  | stop bs =>
    rw [textBody_stop, stringCode_load_stop]
    exact fetch_completes htext.head
  | more b bs hb _ ih =>
    have hcalls : 16 * (textBody (b :: bs)).length = 0 + (16 + 16 * (textBody bs).length) := by
      rw [textBody_more hb, List.length_cons]
      omega
    rw [hcalls] at hg ⊢
    rw [textBody_more hb, stringCode_load_more cfg fourBit i hb, stringEvents_cons]
    refine (fetch_completes htext.head).append fun t ht hgt => ?_
    have hok := hg.drop hgt
    refine (sendByte_completes hok.left).append fun u hu hgu => ih ?_ (hok.drop hgu)
    exact (hu.text.trans ht.text) ▸ htext.tail

theorem stringCode_failsAfter {bs : List Byte} (hbs : textTerminated bs = true) {cfg : Config} {i k : Nat} {s : State}
    (htext : TextFrom s.text i bs) (hk : k < 16 * (textBody bs).length) (hg : GpioFailsAt k s) :
    FailsAfter (cutAt k (stringEvents cfg.strobeMs i (textBody bs))) .gpio
      (stringCode cfg fourBit (Memory.load i bs)) s := by
  induction bs, hbs using terminated_induction generalizing i k s with
  | stop bs => cases hk
  | more b bs hb _ ih =>
    rw [textBody_more hb] at hk ⊢
    rw [List.length_cons] at hk
    rw [stringCode_load_more cfg fourBit i hb]
    by_cases hfirst : k < 16
    · rw [cutAt_stringEvents_of_lt cfg.strobeMs i b _ hfirst]
      exact (fetch_completes htext.head).failsAfter fun t _ hgt =>
        (sendByte_failsAfter (ph := .data i) nofun hfirst (hg.of_eq hgt)).append _
    · obtain ⟨n, rfl⟩ := Nat.exists_eq_add_of_le (Nat.le_of_not_lt hfirst)
      rw [cutAt_stringEvents_add]
      refine (fetch_completes htext.head).failsAfter fun t ht hgt => ?_
      have hfails : GpioFailsAt (16 + n) t := hg.of_eq hgt
      refine (sendByte_completes hfails.gpioOk).failsAfter fun u hu hgu => ih ?_ (by omega) (hfails.drop hgu)
      exact (hu.text.trans ht.text) ▸ htext.tail

/-! ### The operation -/

/-- The state in which WRITE_STRING begins: its text is in the TEXT space (20_memory.md R52). -/
def textLoaded (s : State) : State := { s with text := Memory.load 0 s.cur.text }

theorem exec_writeString_of_ready {s : State} (hr : Ready s) (ht : textTerminated s.cur.text = true) :
    exec .writeString s = publicOp .writeString (textLoaded s) := by
  have ⟨hv, hl, hs, _, _⟩ := hr
  have hload : withText s = textLoaded s := if_pos ⟨hv, hl, hs⟩
  show execWriteString s = _
  rw [execWriteString, if_neg (by simp [ht]), hload]

theorem opCode_writeString {c : Requester} {s : State} (hd : s.dispatch = some fourBit) :
    opCode c .writeString (textLoaded s)
      = some (plain .acq (.acq c)
          :: (stringCode s.cfg fourBit (Memory.load 0 s.cur.text) ++ [plain .rel (.release c)])) := by
  show s.dispatch.map _ = _
  rw [hd]
  rfl

theorem textFrom_load (bs : List Byte) : TextFrom (Memory.load 0 bs) 0 bs := fun k => Memory.read_load_add 0 k bs

/-- Settles O41: the loop over the loaded text ends at its terminator, or at the failing call of one of its bytes. -/
theorem writeStringSendsUpToTheTerminator : Obligations.WriteStringSendsUpToTheTerminator := by
  unfold Obligations.WriteStringSendsUpToTheTerminator
  refine ⟨rfl, rfl, fun s hr ht hg => ?_, fun s k hr ht hon hk hg => ?_⟩
  · have ⟨_, _, _, hd, _⟩ := hr
    rw [exec_writeString_of_ready hr ht]
    refine publicOp_done (s := textLoaded s) rfl hr (opCode_writeString hd)
      (stringCode_completes (s := acquired _ (textLoaded s)) ht (textFrom_load _) hg) EdgesOf_stringEvents ?_
      (configAll_stringEvents ..) (waitedMs_stringEvents ..)
    rw [driveAll_stringEvents]
    cases (textBody s.cur.text).getLast? <;> rfl
  · have ⟨_, _, _, hd, _⟩ := hr
    rw [exec_writeString_of_ready hr ht]
    exact publicOp_aborted (s := textLoaded s) rfl hr hon (opCode_writeString hd)
      ((stringCode_failsAfter (s := acquired _ (textLoaded s)) ht (textFrom_load _) hk hg).append _)
      (EdgesOf_cutAt_stringEvents hk) (configAll_cutAt_stringEvents _ hk)

end Sys2Proof.Machine
end

section
/-! One agent per requester (60_exceptions.md R155; logs 9, 24): which request a step takes from the port, whose operation
it can leave in progress, and the same of a step of a platform. -/

namespace Sys2Proof.Machine

/-! ### Whose operation is in progress -/

theorem Seq.isOf_eq_false_iff {c : Requester} {sq : Seq} : sq.isOf c = false ↔ ∀ op pos, sq ≠ .busy c op pos := by
  cases sq with
  | idle => simp [Seq.isOf]
  | busy c' op pos => simp [Seq.isOf]

theorem Seq.requester?_eq_some_iff {c : Requester} {sq : Seq} :
    sq.requester? = some c ↔ ∃ op pos, sq = .busy c op pos := by
  cases sq with
  | idle => simp [Seq.requester?]
  | busy c' op pos => simp [Seq.requester?]

/-- What goes on stays its requester's, until the engine is idle. -/
theorem resumeOp_requester {c d : Requester} {op : Op} {pos : Pos} {s t : State}
    (hstep : resumeOp c op pos s = .next t) (hd : t.seq.requester? = some d) : d = c := by
  obtain ⟨op', pos', hbusy⟩ := Seq.requester?_eq_some_iff.mp hd
  obtain ⟨-, hidle | ⟨q, hq⟩⟩ := resumeOp_port hstep
  · cases hidle.symm.trans hbusy
  · cases hq.symm.trans hbusy
    rfl

/-- Presenting an instruction begins no operation but one of the requester at the port. -/
theorem Presented.requester {s t : State} {o : Grain → Host.Outcome State Fault Refusal} {d : Requester}
    (hp : Presented s o) (ho : o .micro = .next t) (hd : t.seq.requester? = some d) :
    s.seq.requester? = some d ∨ s.cur.requester = d := by
  cases hp with
  | refusedErr c => cases ho; exact .inl hd
  | refusedNull c => cases ho; exact .inl hd
  | waits => cases ho; exact .inl hd
  | begins op code _ _ _ =>
    cases ho
    obtain ⟨op', pos', hbusy⟩ := Seq.requester?_eq_some_iff.mp hd
    rcases runOp_seq s.cur.requester op code { s with grain := .micro, text := opText op s } with hidle | ⟨q, hq⟩
    · cases hidle.symm.trans hbusy
    · cases hq.symm.trans hbusy
      exact .inr rfl
  | faulty _ => cases ho
  | refused _ => cases ho

/-! ### A step of one engine -/

/-- Settles O10: of the three turns the port can give, the one that serves takes its requester's first request, with no
operation of that requester in progress. -/
theorem oneRequesterIsServedInOrder : Obligations.OneRequesterIsServedInOrder := by
  unfold Obligations.OneRequesterIsServedInOrder
  intro s u r h
  obtain ⟨env, -, -, -, hcase⟩ := nextTurn_cases s
  rcases hcase with ⟨-, -, hnothing⟩ | ⟨c, op, pos, -, hresume⟩ | ⟨x, left, htake, hno, -, hserve⟩
  · cases hnothing.symm.trans h
  · cases hresume.symm.trans h
  · cases hserve.symm.trans h
    obtain ⟨-, before, later, hpending, hleft, hfirst⟩ := takeRequest_spec htake
    exact ⟨rfl, Seq.isOf_eq_false_iff.mp hno, before, later, hpending, hleft, hfirst⟩

/-- A step leaves the pending requests as they are, or presents one: that one is then at the port, and it has been taken
or waits again in front of the others. -/
theorem step_pending {s t : State} (hstep : step s = .next t) :
    t.pending = s.pending
      ∨ ∃ r left, takeRequest r.requester s.pending = some (r, left) ∧ t.cur = r
          ∧ (t.pending = left ∨ t.pending = r :: left) := by
  obtain ⟨env, -, -, -, hcase⟩ := step_cases s
  rcases hcase with ⟨-, -, hidle⟩ | ⟨c, op, pos, -, hresume⟩ | ⟨r, left, htake, -, -, hserve⟩
  · rw [hidle] at hstep
    cases hstep
    exact .inl rfl
  · rw [hresume] at hstep
    exact .inl (resumeOp_port hstep).1
  · rw [hserve] at hstep
    obtain ⟨_, hfollows⟩ := serveRequest_follows hstep
    have hp := serveRequest_presented r { s with grain := .micro, pending := left, cur := r, env := env }
    exact .inr ⟨r, left, htake, hfollows.cur, hp.pending hstep⟩

/-- Whose operation is in progress after a step had it in progress before, or had a request pending. -/
theorem step_requester {s t : State} {d : Requester} (hstep : step s = .next t) (hd : t.seq.requester? = some d) :
    s.seq.requester? = some d ∨ ∃ r ∈ s.pending, r.requester = d := by
  obtain ⟨env, -, -, -, hcase⟩ := step_cases s
  rcases hcase with ⟨-, -, hidle⟩ | ⟨c, op, pos, hseq, hresume⟩ | ⟨r, left, htake, -, -, hserve⟩
  · rw [hidle] at hstep
    cases hstep
    exact .inl hd
  · rw [hresume] at hstep
    obtain rfl := resumeOp_requester hstep hd
    exact .inl (Seq.requester?_eq_some_iff.mpr ⟨op, pos, hseq⟩)
  · rw [hserve] at hstep
    have hp := serveRequest_presented r { s with grain := .micro, pending := left, cur := r, env := env }
    exact (hp.requester hstep hd).imp_right fun hr => ⟨r, (takeRequest_mem htake).1, hr⟩

/-! ### The requests a display may serve -/

/-- The request stands in the queue for display `k`, and no earlier one there is of its requester. -/
def FirstInQueue (k : Nat) (r : Request) (queue : List (Nat × Request)) : Prop :=
  ∃ before later, queue = before ++ (k, r) :: later ∧ ∀ e ∈ before, e.2.requester ≠ r.requester

theorem FirstInQueue.cons {k : Nat} {r : Request} {queue : List (Nat × Request)} {e : Nat × Request}
    (he : e.2.requester ≠ r.requester) (h : FirstInQueue k r queue) : FirstInQueue k r (e :: queue) := by
  obtain ⟨before, later, rfl, hbefore⟩ := h
  exact ⟨e :: before, later, rfl, List.forall_mem_cons.2 ⟨he, hbefore⟩⟩

/-- A request found is for its display and the first of its requester, which is none of those seen. -/
theorem firstRequests_spec {k : Nat} {seen : List Requester} {queue : List (Nat × Request)} {r : Request}
    (h : r ∈ firstRequests k seen queue) : r.requester ∉ seen ∧ FirstInQueue k r queue := by
  induction queue generalizing seen with
  | nil => cases h
  | cons e queue ih =>
    obtain ⟨d, x⟩ := e
    rw [firstRequests] at h
    split at h
    · next hseen =>
      obtain ⟨hr, hfirst⟩ := ih h
      have hx : x.requester ≠ r.requester := fun hx => hr (hx ▸ List.contains_iff_mem.mp hseen)
      exact ⟨hr, hfirst.cons hx⟩
    · next hseen =>
      rcases List.mem_append.mp h with h | h
      · obtain ⟨rfl, rfl⟩ : d = k ∧ r = x := by simpa using h
        exact ⟨fun hr => hseen (List.contains_iff_mem.mpr hr), [], queue, rfl, by simp⟩
      · obtain ⟨hr, hfirst⟩ := ih h
        rw [List.mem_cons, not_or] at hr
        obtain ⟨hx, hr⟩ := hr
        exact ⟨hr, hfirst.cons (Ne.symm hx)⟩

/-- No two of the requests found are of the same requester. -/
theorem firstRequests_pairwise (k : Nat) (seen : List Requester) (queue : List (Nat × Request)) :
    (firstRequests k seen queue).Pairwise fun x y => x.requester ≠ y.requester := by
  induction queue generalizing seen with
  | nil => exact .nil
  | cons e queue ih =>
    obtain ⟨d, x⟩ := e
    rw [firstRequests]
    split
    · exact ih seen
    · split
      · refine List.pairwise_cons.mpr ⟨fun y hy hxy => ?_, ih _⟩
        exact (firstRequests_spec hy).1 (hxy ▸ List.mem_cons_self)
      · exact ih _

theorem Platform.not_mem_running {P : Platform} {c : Requester} (h : c ∉ P.running) {s : State} (hs : s ∈ P.engines) :
    s.seq.requester? ≠ some c :=
  fun hc => h (List.mem_filterMap.mpr ⟨s, hs, hc⟩)

/-! ### The queue after a step -/

theorem leftOver_of_subset {presented waiting : List Request} (h : presented ⊆ waiting) (queue : List (Nat × Request)) :
    leftOver presented waiting queue = queue := by
  have hnone : presented.find? (fun r => !waiting.contains r) = none :=
    List.find?_eq_none.mpr fun r hr => by simpa using h hr
  rw [leftOver, hnone]

theorem leftOver_of_taken {a b : List Request} {r : Request} (hr : r ∉ a ++ b) (queue : List (Nat × Request)) :
    leftOver (a ++ r :: b) (a ++ b) queue = dropFirst r.requester queue := by
  have hsome : (a ++ r :: b).find? (fun x => !(a ++ b).contains x) = some r := by
    have ha : a.find? (fun x => !(a ++ b).contains x) = none := List.find?_eq_none.mpr fun x hx => by simp [hx]
    rw [List.find?_append, ha, Option.none_or, List.find?_cons_of_pos (by simpa using hr)]
  rw [leftOver, hsome]

theorem dropFirst_of_first {c : Requester} {before later : List (Nat × Request)} {e : Nat × Request}
    (hbefore : ∀ x ∈ before, x.2.requester ≠ c) (he : e.2.requester = c) :
    dropFirst c (before ++ e :: later) = before ++ later := by
  rw [dropFirst, List.eraseP_append_right _ (fun x hx => by simpa using hbefore x hx),
    List.eraseP_cons_of_pos (by simpa using he)]

/-! ### A step of a platform -/

theorem stepAt_of_step {P : Platform} {k : Nat} {s t : State} (hs : P.engines[k]? = some s)
    (hstep : step { s with otherPins := P.pinsBut k, pending := P.presented k } = .next t) :
    P.stepAt k = .next
      { engines := P.engines.set k { t with pending := [] }
        queue := leftOver (P.presented k) t.pending P.queue } := by
  simp only [Platform.stepAt, hs, hstep]

/-- After a step of display `k` an engine is the one that stepped or as it was. -/
theorem engine_of_stepped {P Q : Platform} {k i : Nat} {t a : State} (hQ : Q.engines = P.engines.set k t)
    (ha : Q.engines[i]? = some a) : (i = k ∧ a = t) ∨ (i ≠ k ∧ P.engines[i]? = some a) := by
  rw [hQ, List.getElem?_set] at ha
  split at ha
  · next hk =>
    split at ha <;> cases ha
    exact .inl ⟨hk.symm, rfl⟩
  · next hk => exact .inr ⟨Ne.symm hk, ha⟩

/-- Settles O16: the engine presents nothing or one of the display's requests; that one stays queued where it waits
again, and is dropped where it was taken, since no other presented request is of its requester. -/
theorem aPlatformServesEachRequesterInOrder : Obligations.APlatformServesEachRequesterInOrder := by
  unfold Obligations.APlatformServesEachRequesterInOrder
  intro P Q k h
  rcases stepAt_next h with rfl | ⟨s, t, hs, hstep, -⟩
  · exact .inl rfl
  cases (stepAt_of_step hs hstep).symm.trans h
  rcases step_pending hstep with hkept | ⟨r, left, htake, hcur, hleft⟩
  · exact .inl (leftOver_of_subset (hkept ▸ List.Subset.refl _) _)
  obtain ⟨-, a, b, hpresented, rfl, -⟩ := takeRequest_spec htake
  replace hpresented : P.presented k = a ++ r :: b := hpresented
  rcases hleft with hleft | hleft
  · have hmem : r ∈ P.presented k := by simp [hpresented]
    have hpair : (r :: (a ++ b)).Pairwise fun x y => x.requester ≠ y.requester :=
      (List.pairwise_middle Ne.symm).mp (hpresented ▸ firstRequests_pairwise k P.running P.queue)
    have hother : r ∉ a ++ b := fun hr => List.rel_of_pairwise_cons hpair hr rfl
    obtain ⟨hrunning, before, later, hqueue, hbefore⟩ := firstRequests_spec hmem
    refine .inr ⟨before, r, later, { t with pending := [] }, hqueue, ?_, hbefore, fun e he op pos hbusy => ?_, ?_, hcur⟩
    · show leftOver (P.presented k) t.pending P.queue = _
      rw [hleft, hpresented, leftOver_of_taken hother, hqueue, dropFirst_of_first hbefore rfl]
    · exact Platform.not_mem_running hrunning he (Seq.requester?_eq_some_iff.mpr ⟨op, pos, hbusy⟩)
    · exact List.getElem?_set_self (List.getElem?_eq_some_iff.mp hs).1
  · refine .inl (leftOver_of_subset ?_ _)
    rw [hleft, hpresented]
    exact List.perm_middle.subset

/-- The requester whose operation is in progress on a display that has stepped runs on no other display. -/
theorem Platform.OneAgentEach.stepped {P : Platform} {k j : Nat} {s t b : State} {c : Requester} (h : P.OneAgentEach)
    (hs : P.engines[k]? = some s)
    (hstep : step { s with otherPins := P.pinsBut k, pending := P.presented k } = .next t) (hne : j ≠ k)
    (hb : P.engines[j]? = some b) (hc : t.seq.requester? = some c) : b.seq.requester? ≠ some c := by
  rcases step_requester hstep hc with hrun | ⟨r, hr, rfl⟩
  · exact h k j s b c hne.symm hs hb hrun
  · exact Platform.not_mem_running (firstRequests_spec hr).1 (List.mem_of_getElem? hb)

/-- Settles O17: what the engine that steps has in progress is its own requester's still, or that of a request presented
to it, whose requester runs nowhere; the others stay as they were. -/
theorem noRequesterRunsOnTwoDisplays : Obligations.NoRequesterRunsOnTwoDisplays := by
  unfold Obligations.NoRequesterRunsOnTwoDisplays
  intro P Q k h hstepAt
  rcases stepAt_next hstepAt with rfl | ⟨s, t, hs, hstep, hQ⟩
  · exact h
  intro i j a b c hij ha hb hc
  rcases engine_of_stepped hQ ha with ⟨rfl, rfl⟩ | ⟨hi, ha⟩
  · rcases engine_of_stepped hQ hb with ⟨rfl, rfl⟩ | ⟨hj, hb⟩
    · exact absurd rfl hij
    · exact h.stepped hs hstep hj hb hc
  · rcases engine_of_stepped hQ hb with ⟨rfl, rfl⟩ | ⟨-, hb⟩
    · exact fun hc' => h.stepped hs hstep hi ha hc' hc
    · exact h i j a b c hij ha hb hc

/-! ### A text without a terminator -/

/-- Settles O44: the check of the text stands before the check of the lock (93_implementation_defined.md U3). -/
theorem unterminatedTextIsRefused : Obligations.UnterminatedTextIsRefused := by
  unfold Obligations.UnterminatedTextIsRefused
  intro s hv htext
  have hno : textTerminated s.cur.text = false := by simpa [textTerminated] using htext
  show execWriteString s = _
  exact if_pos ⟨hv, hno⟩

end Sys2Proof.Machine
end

section
/-! The reset state (70_reset_and_hazards.md R170): nothing exists, nothing runs, and it meets the machine's invariant. -/

namespace Sys2Proof.Machine

/-- With no operation in progress and no request pending a step lets time pass (log 27). -/
theorem step_of_nothing_pending {s : State} (hseq : s.seq = .idle) (hp : s.pending = []) :
    step s = .next (State.tick { s with grain := .micro }) := by
  have hagents : agents { s with grain := .micro } = [] := by simp [agents, hseq, hp, waiters]
  simp [step, nextTurn, chooseAgent, hagents]

/-- Settles O18: no request is pending at reset, so the step from it is a tick. -/
theorem resetIsTheStateBeforeInit : Obligations.ResetIsTheStateBeforeInit := by
  unfold Obligations.ResetIsTheStateBeforeInit
  refine ⟨rfl, rfl, rfl, rfl, rfl, rfl, fun p => ?_, fun p => ?_, rfl, rfl, _, step_of_nothing_pending rfl rfl, rfl, rfl,
    ⟨rfl, rfl, rfl, rfl, rfl⟩, ⟨rfl, rfl, rfl, rfl⟩, rfl, rfl, rfl⟩
  · cases p <;> rfl
  · cases p <;> rfl

theorem reset_handleInv : HandleInv State.reset := ⟨rfl, rfl, rfl, rfl⟩

theorem reset_seqInv : SeqInv State.reset := ⟨rfl, by decide, fun _ => .inl rfl⟩

/-- Settles O46: no cell of a handle exists and the engine is idle without a lock; the empty trace leaves the lock's order
where it begins. -/
theorem resetMeetsTheInvariant : Obligations.ResetMeetsTheInvariant := by
  unfold Obligations.ResetMeetsTheInvariant
  exact ⟨⟨reset_handleInv, reset_seqInv, Memory.wf_nil, by decide⟩, rfl⟩

end Sys2Proof.Machine
end

section
/-! A VALID handle (70_reset_and_hazards.md R171): INIT cannot run where one is, and no other operation writes or takes
back a cell of a handle. -/

namespace Sys2Proof.Machine

/-! ### Micro-steps and aborts that leave the handle alone -/

/-- A micro-step that writes no cell of the handle: one of a body, or one of the lock's two. -/
def Micro.sparesHandle : Micro → Bool
  | .acq _ => true
  | .release _ => true
  | m => m.isBody

theorem Micro.act_keepsHandle {m : Micro} (hm : m.sparesHandle = true) (s : State) : KeepsHandle s (m.act s).1 := by
  have body : m.isBody = true → KeepsHandle s (m.act s).1 := fun hb =>
    have hk := Micro.act_keepsCells hb s
    ⟨hk.handle, hk.config, hk.pinMap, hk.dispatch⟩
  cases m with
  | acq c =>
    simp only [Micro.act, lockAcquire]
    split <;> exact ⟨rfl, rfl, rfl, rfl⟩
  | release c =>
    simp only [Micro.act, releaseOk, lockRelease]
    split <;> exact ⟨rfl, rfl, rfl, rfl⟩
  | _ => exact body hm

theorem IsBody.sparesHandle {ok : Phase → Bool} {code : Code} (h : IsBody ok code) :
    ∀ pm ∈ code, pm.2.sparesHandle = true := fun pm hpm => by
  have hbody := (h pm hpm).2
  unfold Micro.sparesHandle
  split
  · rfl
  · rfl
  · exact hbody

/-- Every operation but INIT writes no cell of the handle. -/
theorem opCode_sparesHandle {c : Requester} {op : Op} (hop : op.isInit = false) {s : State} {code : Code}
    (h : opCode c op s = some code) : ∀ pm ∈ code, pm.2.sparesHandle = true := by
  rcases op.kinds with hop | ⟨g, m, pm, rfl⟩ | ⟨x, rfl⟩
  · rcases opCode_onHandle hop h with ⟨body, hbody, rfl⟩ | ⟨x, y, -, -, rfl⟩
    · simp only [List.forall_mem_cons, List.forall_mem_append]
      exact ⟨rfl, hbody.sparesHandle, rfl, List.forall_mem_nil _⟩
    · simp [plain, Micro.sparesHandle, Micro.isBody]
  · cases hop
  · obtain rfl := Option.some.inj h
    exact (level1Code_isBody _ x).sparesHandle

/-- No abort but INIT's touches the handle (60_exceptions.md R146). -/
theorem abortOp_keepsHandle (c : Requester) {op : Op} (hop : op.isInit = false) (f : Cause) (s : State) :
    KeepsHandle s (abortOp c op f s) := by
  have hrelease : KeepsHandle s (if s.cfg.lockReleaseOnError then lockRelease c s else s) := by
    unfold lockRelease
    split
    · split <;> exact ⟨rfl, rfl, rfl, rfl⟩
    · exact ⟨rfl, rfl, rfl, rfl⟩
  cases op with
  | init g m pm => cases hop
  | level1 x => exact ⟨rfl, rfl, rfl, rfl⟩
  | _ => exact hrelease

/-! ### Running an operation -/

theorem afterMicro_keepsHandle {s : State} {r : State × Raised} (h : KeepsHandle s r.1) (c : Requester) (op : Op)
    (pos : Pos) (rest : Code) : KeepsHandle s (afterMicro c op pos rest r) := by
  rcases r with ⟨t, _ | f⟩
  · cases rest with
    | nil => cases op <;> exact h
    | cons x rest => exact h
  · exact h

theorem runOp_keepsHandle {s : State} (hg : s.grain = .micro) (c : Requester) (op : Op) {code : Code}
    (hc : ∀ pm ∈ code, pm.2.sparesHandle = true) : KeepsHandle s (runOp c op code s) := by
  cases code with
  | nil =>
    rw [runOp, hg]
    cases op <;> exact ⟨rfl, rfl, rfl, rfl⟩
  | cons x rest =>
    rw [runOp_micro_cons hg]
    exact afterMicro_keepsHandle (Micro.act_keepsHandle (hc x (List.mem_cons_self ..)) s) c op x.1 rest

/-! ### INIT and a VALID handle -/

/-- At no position of INIT is the handle VALID (42_init_sequence.md R110). -/
theorem InitAt.not_valid {s : State} {pos : Pos} (h : InitAt s pos) : s.handle ≠ .valid := by
  intro hv
  unfold InitAt at h
  rw [hv] at h
  split at h <;> simp at h

theorem Inv.not_isInit {s : State} {c : Requester} {op : Op} {pos : Pos} (h : Inv s) (hv : s.handle = .valid)
    (hseq : s.seq = .busy c op pos) : op.isInit = false := by
  cases op with
  | init g m pm =>
    obtain ⟨hi, -⟩ := h.inInit hseq
    exact absurd hv hi.built.not_valid
  | _ => rfl

theorem MayBegin.not_isInit {s : State} {op : Op} (h : MayBegin op s) (hv : s.handle = .valid) : op.isInit = false := by
  cases op with
  | init g m pm =>
    obtain ⟨hnone, -⟩ := h
    rw [hv] at hnone
    cases hnone
  | _ => rfl

theorem Presented.keepsHandle {s t : State} {o : Grain → Host.Outcome State Fault Refusal} (h : Presented s o)
    (hv : s.handle = .valid) (ho : o .micro = .next t) : KeepsHandle s t := by
  cases h with
  | refusedErr c => cases ho; exact ⟨rfl, rfl, rfl, rfl⟩
  | refusedNull c => cases ho; exact ⟨rfl, rfl, rfl, rfl⟩
  | waits => cases ho; exact ⟨rfl, rfl, rfl, rfl⟩
  | faulty _ => cases ho
  | refused _ => cases ho
  | begins op code _ hmay hcode =>
    cases ho
    exact runOp_keepsHandle (s := { s with grain := .micro, text := opText op s }) rfl s.cur.requester op
      (opCode_sparesHandle (hmay.not_isInit hv) hcode)

theorem Moves.keepsHandle {s t : State} (h : Moves s (.next t)) (hinv : Inv s) (hg : s.grain = .micro)
    (hv : s.handle = .valid) : KeepsHandle s t := by
  generalize ho : Host.Outcome.next t = o at h
  cases h with
  | idles hseq => cases ho; exact ⟨rfl, rfl, rfl, rfl⟩
  | aborts hseq hpos => cases ho; exact abortOp_keepsHandle _ (hinv.not_isInit hv hseq) _ s
  | goesOn hseq hpos hcode =>
    cases ho
    have hspares := opCode_sparesHandle (hinv.not_isInit hv hseq) hcode
    exact runOp_keepsHandle hg _ _ fun pm hpm => hspares pm (codeFrom_subset _ _ hpm)
  | isStuck hseq hpos hcode => cases ho
  | presents hp => exact hp.keepsHandle hv ho.symm

/-- Settles O59: with a VALID handle no INIT is in progress and none begins, and no other move touches the handle. -/
theorem aValidHandleStaysValid : Obligations.AValidHandleStaysValid := by
  unfold Obligations.AValidHandleStaysValid
  intro s t hinv hv hstep
  obtain ⟨left, r, env, hmoves⟩ := step_moves s
  rw [hstep] at hmoves
  have ⟨hhandle, hcells⟩ := hmoves.keepsHandle (hinv.of_keepsCells ⟨rfl, rfl, rfl, rfl, rfl, rfl, rfl, id⟩ rfl) rfl hv
  exact ⟨hhandle.trans hv, hcells⟩

end Sys2Proof.Machine
end

section
/-! EN and the strobe (70_reset_and_hazards.md R173): every operation is a sequence of nibbles and of micro-steps that do
not raise EN, so that EN is high exactly between the two strobe calls of a nibble, as long as no SET(EN,0) fails. -/

namespace Sys2Proof.Machine

/-! ### As long as no SET(EN,0) fails -/

/-- What holds of a state unless a SET(EN,0) has failed since the trace was `tr`. -/
def UnlessFallFails (tr : List Event) (B : State → Prop) (s : State) : Prop :=
  ∃ evs, s.trace = tr ++ evs ∧ (evs.all (fun e => !isEnFallFailure e) = true → B s)

theorem UnlessFallFails.of_holds {B : State → Prop} {s : State} (h : B s) : UnlessFallFails s.trace B s :=
  ⟨[], (List.append_nil _).symm, fun _ => h⟩

/-- A change that appends events carries on with them. -/
theorem UnlessFallFails.append {tr evs : List Event} {B B' : State → Prop} {s t : State} (h : UnlessFallFails tr B s)
    (ht : t.trace = s.trace ++ evs) (hB : evs.all (fun e => !isEnFallFailure e) = true → B s → B' t) :
    UnlessFallFails tr B' t := by
  obtain ⟨before, hs, hbefore⟩ := h
  refine ⟨before ++ evs, by rw [ht, hs, List.append_assoc], fun hall => ?_⟩
  rw [List.all_append, Bool.and_eq_true] at hall
  exact hB hall.2 (hbefore hall.1)

theorem UnlessFallFails.of_same {tr : List Event} {B B' : State → Prop} {s t : State} (h : UnlessFallFails tr B s)
    (ht : t.trace = s.trace) (hB : B s → B' t) : UnlessFallFails tr B' t :=
  h.append (evs := []) (by rw [ht, List.append_nil]) fun _ => hB

theorem UnlessFallFails.holds {tr : List Event} {B : State → Prop} {s : State} (h : UnlessFallFails tr B s)
    (hclean : ∀ evs, s.trace = tr ++ evs → evs.all (fun e => !isEnFallFailure e) = true) : B s := by
  obtain ⟨evs, hs, hB⟩ := h
  exact hB (hclean evs hs)

/-! ### EN at a position -/

/-- EN is high. -/
def EnHigh (s : State) : Prop := s.pins.en = .high

/-- EN is low or not yet driven. -/
def EnNotHigh (s : State) : Prop := s.pins.en ≠ .high

theorem EnNotHigh.congr {s t : State} (h : EnNotHigh s) (pins : t.pins = s.pins) : EnNotHigh t := by
  rw [EnNotHigh, pins]
  exact h

/-- EN as the position asks: high at the strobe's wait and its SET(EN,0), and nowhere else (10_state.md R24). -/
def EnAt (pos : Pos) (s : State) : Prop :=
  if pos.nstep = 7 ∨ pos.nstep = 8 then EnHigh s else EnNotHigh s

theorem enAt_of_nstep_zero {pos : Pos} (h : pos.nstep = 0) : EnAt pos = EnNotHigh :=
  funext fun s => by simp [EnAt, h]

theorem enFollows_of_idle {s : State} (h : s.seq = .idle) : EnFollows s ↔ EnNotHigh s := by
  simp only [EnFollows, EnNotHigh, h]

theorem enFollows_of_busy {s : State} {c : Requester} {op : Op} {pos : Pos} (h : s.seq = .busy c op pos) :
    EnFollows s ↔ EnAt pos s := by
  simp only [EnFollows, EnAt, EnHigh, EnNotHigh, h]

theorem EnFollows.congr {s t : State} (h : EnFollows s) (pins : t.pins = s.pins) (seq : t.seq = s.seq) :
    EnFollows t := by
  unfold EnFollows
  rw [pins, seq]
  exact h

/-! ### One micro-step -/

theorem driveEvent_en_ne_high {e : Event} (he : e ≠ .set .en true true) {pins : PerPin Level} (h : pins.en ≠ .high) :
    (driveEvent pins e).en ≠ .high := by
  cases e with
  | set p v ok =>
    cases ok with
    | false => exact h
    | true =>
      cases p with
      | en =>
        cases v with
        | false => simp [driveEvent, PerPin.set, Level.ofBool]
        | true => exact absurd rfl he
      | _ => exact h
  | _ => exact h

/-- A micro-step that is not the SET(EN,1) leaves EN not high where it was not. -/
theorem Micro.act_enNotHigh {m : Micro} (hm : m ≠ .set .en true) {tr : List Event} {s : State}
    (h : UnlessFallFails tr EnNotHigh s) : UnlessFallFails tr EnNotHigh (m.act s).1 := by
  cases hp : m.isPin with
  | false =>
    obtain ⟨evs, hf, -⟩ := m.act_follows s
    exact h.append hf.trace fun _ hlow => hlow.congr (m.act_pins_of_not_isPin hp s).1
  | true =>
    obtain ⟨e, he, hset⟩ := Micro.act_event hp s
    refine h.append he.trace fun _ hlow => ?_
    rw [EnNotHigh, he.pins]
    exact driveEvent_en_ne_high (fun h => hm (hset _ _ h)) hlow

/-- The SET(EN,1) raises EN, or fails and leaves it. -/
theorem act_raise {tr : List Event} {s : State} (h : UnlessFallFails tr EnNotHigh s) :
    (((Micro.set .en true).act s).2 = none → UnlessFallFails tr EnHigh ((Micro.set .en true).act s).1)
      ∧ (((Micro.set .en true).act s).2 ≠ none → UnlessFallFails tr EnNotHigh ((Micro.set .en true).act s).1) := by
  obtain ⟨b, he, hr, -⟩ := gpioSet_spec .en true s
  rw [Micro.act, hr]
  cases b with
  | true => exact ⟨fun _ => h.append he.trace fun _ _ => congrArg PerPin.en he.pins, absurd rfl⟩
  | false => exact ⟨nofun, fun _ => h.append he.trace fun _ hlow => by rw [EnNotHigh, he.pins]; exact hlow⟩

/-- The SET(EN,0) lowers EN, unless it fails. -/
theorem act_lower {tr : List Event} {s : State} (h : UnlessFallFails tr EnHigh s) :
    UnlessFallFails tr EnNotHigh ((Micro.set .en false).act s).1 := by
  obtain ⟨b, he, -⟩ := gpioSet_spec .en false s
  refine h.append he.trace fun hclean _ => ?_
  cases b with
  | true =>
    rw [EnNotHigh, Micro.act, he.pins]
    exact Level.noConfusion
  | false => cases hclean

/-! ### The micro-steps of the operations -/

/-- A sequence of nibbles and of micro-steps outside one that do not raise EN. -/
inductive Strobed : Code → Prop where
  | nil : Strobed []
  | cons {pos : Pos} {m : Micro} {rest : Code} (hpos : pos.nstep = 0) (hm : m ≠ .set .en true) (h : Strobed rest) :
      Strobed ((pos, m) :: rest)
  | nibble (ph : Phase) (half : Half) (t : Nat) (rs : Bool) (n : Nibble) {rest : Code} (hph : ∀ f, ph ≠ .abort f)
      (h : Strobed rest) : Strobed (numberFrom ph half 0 (nibbleCode t rs n) ++ rest)

theorem Strobed.sendByte (t : Nat) (ph : Phase) (rs : Bool) (v : Byte) {rest : Code} (hph : ∀ f, ph ≠ .abort f)
    (h : Strobed rest) : Strobed (sendByte t ph rs v ++ rest) := by
  rw [Machine.sendByte, List.append_assoc]
  exact .nibble ph .hi t rs _ hph (.nibble ph .lo t rs _ hph h)

theorem Strobed.configure {rest : Code} (h : Strobed rest) : Strobed (configureCode ++ rest) := by
  have hall : ∀ pm ∈ configureCode, pm.1.nstep = 0 ∧ pm.2 ≠ .set .en true := by decide
  generalize configureCode = code at hall ⊢
  induction code with
  | nil => exact h
  | cons x code ih =>
    obtain ⟨⟨hpos, hm⟩, hrest⟩ := List.forall_mem_cons.1 hall
    exact .cons hpos hm (ih hrest)

theorem Strobed.initCommands (cfg : Config) (st : Strategy) (j : Nat) (bs : List Byte) {rest : Code} (h : Strobed rest) :
    Strobed (initCommands cfg st j bs ++ rest) := by
  induction bs generalizing j with
  | nil => exact h
  | cons b bs ih =>
    rw [Machine.initCommands, List.append_assoc]
    exact .sendByte _ (.initCmd j) _ b nofun (.cons rfl nofun (ih (j + 1)))

theorem Strobed.string (cfg : Config) (d : DispatchTable) (m : Memory) {rest : Code} (h : Strobed rest) :
    Strobed (stringCode cfg d m ++ rest) := by
  induction m with
  | nil => exact h
  | cons x m ih =>
    obtain ⟨i, b⟩ := x
    rw [stringCode, List.cons_append]
    refine .cons rfl nofun ?_
    split
    · exact h
    · rw [List.append_assoc]
      exact .sendByte _ (.data i) _ b nofun ih

theorem Strobed.release (c : Requester) : Strobed [plain .rel (.release c)] := .cons rfl nofun .nil

theorem Strobed.command (cfg : Config) (c : Requester) (d : DispatchTable) (v : Byte) :
    Strobed (commandCode cfg c d v) :=
  .cons rfl nofun (.sendByte _ .cmd _ v nofun (.cons rfl nofun (.release c)))

theorem strobed_initCode (cfg : Config) (c : Requester) (g m : Byte) (pm : PinMap) :
    Strobed (initCode cfg c g m pm) := by
  rcases initCode_cases cfg c g m pm with rfl | hcheck
  · rw [initCode_bit4, initBody, List.append_assoc]
    exact .cons rfl nofun (.cons rfl nofun (.cons rfl nofun
      (.configure (.initCommands _ _ 0 _ (.cons rfl nofun (.cons rfl nofun .nil))))))
  · rw [hcheck]
    exact .cons rfl nofun .nil

theorem strobed_level1Code (cfg : Config) (x : Level1) : Strobed (level1Code cfg x) := by
  rw [← List.append_nil (level1Code cfg x)]
  cases x with
  | configure => exact .configure .nil
  | nibble rs n => exact .nibble .cmd .hi _ rs n nofun .nil
  | byte rs v => exact .sendByte _ .cmd rs v nofun .nil

theorem strobed_opCode {c : Requester} {op : Op} {s : State} {code : Code} (h : opCode c op s = some code) :
    Strobed code := by
  cases op with
  | init g m pm =>
    obtain rfl := Option.some.inj h
    exact strobed_initCode ..
  | level1 x =>
    obtain rfl := Option.some.inj h
    exact strobed_level1Code ..
  | clear =>
    obtain ⟨d, -, rfl⟩ := Option.map_eq_some_iff.mp h
    exact .command ..
  | home =>
    obtain ⟨d, -, rfl⟩ := Option.map_eq_some_iff.mp h
    exact .command ..
  | gotoxy x y =>
    obtain ⟨d, -, rfl⟩ := Option.map_eq_some_iff.mp h
    refine .cons rfl nofun (.cons rfl nofun ?_)
    split
    · exact .sendByte _ .cmd _ _ nofun (.release c)
    · exact .nil
  | writeString =>
    obtain ⟨d, -, rfl⟩ := Option.map_eq_some_iff.mp h
    exact .cons rfl nofun (.string _ d s.text (.release c))

/-- A micro-step in the phase of the abort path, if there were one, would stand outside every nibble. -/
theorem Strobed.nstep_of_abort {code : Code} (h : Strobed code) {pos : Pos} (hmem : pos ∈ code.map Prod.fst)
    {f : Cause} (hpos : pos.phase = .abort f) : pos.nstep = 0 := by
  induction h with
  | nil => cases hmem
  | cons hzero _ _ ih =>
    rcases List.mem_cons.mp hmem with rfl | hmem
    · exact hzero
    · exact ih hmem
  | nibble ph half t rs n hph _ ih =>
    rw [List.map_append] at hmem
    rcases List.mem_append.mp hmem with hmem | hmem
    · obtain ⟨pm, hpm, rfl⟩ := List.mem_map.mp hmem
      exact absurd ((mem_numberFrom hpm).1.symm.trans hpos) (hph f)
    · exact ih hmem

/-! ### What the micro-steps carry along -/

/-- EN as each position asks, as long as no SET(EN,0) fails, and not high at the end or after another failure. -/
abbrev CarriesEn (tr : List Event) (code : Code) : Prop :=
  Carries (fun pos => UnlessFallFails tr (EnAt pos)) (UnlessFallFails tr EnNotHigh) (UnlessFallFails tr EnNotHigh) code

/-- EN as the first position asks, or not high where no micro-step is left. -/
abbrev StartsEn (tr : List Event) (code : Code) (s : State) : Prop :=
  Start (fun pos => UnlessFallFails tr (EnAt pos)) (UnlessFallFails tr EnNotHigh) code s

theorem Strobed.starts {tr : List Event} {code : Code} (h : Strobed code) {s : State}
    (hs : UnlessFallFails tr EnNotHigh s) : StartsEn tr code s := by
  cases h with
  | nil => exact hs
  | cons hpos hm h =>
    show UnlessFallFails tr (EnAt _) s
    rw [enAt_of_nstep_zero hpos]
    exact hs
  | nibble ph half t rs n hph h => exact hs

/-- A micro-step that finds EN not high and does not raise it, before code that asks the same. -/
theorem CarriesEn.cons {tr : List Event} {pos : Pos} {m : Micro} {rest : Code} (hpos : EnAt pos = EnNotHigh)
    (hm : m ≠ .set .en true) (hnext : ∀ s, UnlessFallFails tr EnNotHigh s → StartsEn tr rest s)
    (h : CarriesEn tr rest) : CarriesEn tr ((pos, m) :: rest) := by
  refine ⟨fun s hs => ?_, h⟩
  replace hs : UnlessFallFails tr (EnAt pos) s := hs
  rw [hpos] at hs
  exact ⟨fun _ => hnext _ (Micro.act_enNotHigh hm hs), fun _ => Micro.act_enNotHigh hm hs⟩

/-- The ten micro-steps of a nibble: EN is raised by the seventh and lowered by the ninth (41_nibble_transfer.md R100). -/
theorem nibble_carriesEn {tr : List Event} (ph : Phase) (half : Half) (t : Nat) (rs : Bool) (n : Nibble) {rest : Code}
    (hnext : ∀ s, UnlessFallFails tr EnNotHigh s → StartsEn tr rest s) (h : CarriesEn tr rest) :
    CarriesEn tr (numberFrom ph half 0 (nibbleCode t rs n) ++ rest) := by
  have settle := CarriesEn.cons (pos := ⟨ph, half, 9⟩) (m := .sleep t) rfl nofun hnext h
  have strobe : CarriesEn tr ((⟨ph, half, 6⟩, .set .en true) :: (⟨ph, half, 7⟩, .sleep t)
      :: (⟨ph, half, 8⟩, .set .en false) :: (⟨ph, half, 9⟩, .sleep t) :: rest) :=
    ⟨fun s hs => act_raise hs,
      fun s hs => ⟨fun _ => hs.append (sleepFor_trace t s) fun _ => id, absurd rfl⟩,
      fun s hs => ⟨fun _ => act_lower hs, fun _ => act_lower hs⟩, settle⟩
  exact .cons rfl nofun (fun _ => id) (.cons rfl nofun (fun _ => id) (.cons rfl nofun (fun _ => id)
    (.cons rfl nofun (fun _ => id) (.cons rfl nofun (fun _ => id) (.cons rfl nofun (fun _ => id) strobe)))))

theorem Strobed.carriesEn {code : Code} (h : Strobed code) (tr : List Event) : CarriesEn tr code := by
  induction h with
  | nil => trivial
  | cons hpos hm h ih => exact .cons (enAt_of_nstep_zero hpos) hm (fun _ => h.starts) ih
  | nibble ph half t rs n _ h ih => exact nibble_carriesEn ph half t rs n (fun _ => h.starts) ih

/-! ### Running an operation -/

theorem abortOp_enFollows {tr : List Event} {s : State} (h : UnlessFallFails tr EnNotHigh s) (c : Requester) (op : Op)
    (f : Cause) : UnlessFallFails tr EnFollows (abortOp c op f s) :=
  h.append (abortOp_follows c op f s).trace fun _ hlow =>
    (enFollows_of_idle (abortOp_port c op f s).1).mpr (hlow.congr (abortOp_pins c op f s).1)

theorem finishOp_enFollows {tr : List Event} {s : State} (h : UnlessFallFails tr EnNotHigh s) (op : Op) :
    UnlessFallFails tr EnFollows (finishOp op s) := by
  cases op <;> exact h.of_same rfl id

/-- A run from where EN is as the position asks leaves it so, whatever the grain. -/
theorem runOp_enFollows {tr : List Event} {code : Code} {s : State} (hc : CarriesEn tr code) (hs : StartsEn tr code s)
    (c : Requester) (op : Op) : UnlessFallFails tr EnFollows (runOp c op code s) := by
  have h := runCode_carries hc s.grain hs
  rw [runOp]
  generalize runCode s.grain code s = r at h
  rcases r with ⟨t, _ | q | ⟨pos, f⟩⟩
  · exact finishOp_enFollows h op
  · exact UnlessFallFails.of_same h.1 rfl id
  · obtain ⟨hlow, -⟩ := h
    cases s.grain with
    | micro => exact hlow.of_same rfl id
    | whole => exact abortOp_enFollows hlow c op _

/-- A run of whole grain leaves the engine idle. -/
theorem runOp_whole_idle {s : State} (hg : s.grain = .whole) (c : Requester) (op : Op) (code : Code) :
    (runOp c op code s).seq = .idle := by
  have hnot : ∀ q, (runCode .whole code s).2 ≠ .paused q := by
    clear hg
    induction code generalizing s with
    | nil => exact nofun
    | cons x code ih =>
      rw [runCode_whole_cons]
      split
      · exact nofun
      · exact ih
  rw [runOp, hg]
  generalize runCode .whole code s = r at hnot ⊢
  rcases r with ⟨t, _ | q | ⟨pos, f⟩⟩
  · exact (finishOp_follows op t).2.2
  · exact absurd rfl (hnot q)
  · exact (abortOp_port c op _ t).1

/-! ### Instructions and steps -/

/-- What is presented leaves EN and the sequencer as they were, or begins at an idle engine and leaves EN as its position
asks. -/
theorem Presented.en_cases {s t : State} {o : Grain → Host.Outcome State Fault Refusal} (h : Presented s o) {g : Grain}
    (ho : o g = .next t) :
    (t.pins = s.pins ∧ t.seq = s.seq ∧ ∃ evs, t.trace = s.trace ++ evs)
      ∨ s.seq = .idle ∧ (EnNotHigh s → UnlessFallFails s.trace EnFollows t) ∧ (g = .whole → t.seq = .idle) := by
  cases h with
  | refusedErr c => cases ho; exact .inl ⟨rfl, rfl, _, refuseErr_trace ..⟩
  | refusedNull c => cases ho; exact .inl ⟨rfl, rfl, _, refuseNull_trace ..⟩
  | waits => cases ho; exact .inl ⟨rfl, rfl, [], (List.append_nil _).symm⟩
  | faulty _ => cases ho
  | refused _ => cases ho
  | begins op code hidle _ hcode =>
    cases ho
    have hstrobed := strobed_opCode hcode
    exact .inr ⟨hidle, fun hlow => runOp_enFollows (hstrobed.carriesEn s.trace)
      (hstrobed.starts (s := { s with grain := g, text := opText op s }) (.of_holds hlow)) s.cur.requester op,
      fun hg => runOp_whole_idle hg ..⟩

/-- Settles O56: an instruction taken whole that begins ends with the engine idle and EN not high, and EN stays driven. -/
theorem enStaysLowBetweenOperations : Obligations.EnStaysLowBetweenOperations := by
  unfold Obligations.EnStaysLowBetweenOperations
  intro i s t hwhole hlow hexec hclean
  rcases (exec_presented i s).en_cases (g := s.grain) hexec with ⟨hpins, -⟩ | ⟨-, hrun, hidle⟩
  · rw [hpins, hlow]
  have hnotHigh : t.pins.en ≠ .high :=
    (enFollows_of_idle (hidle hwhole)).mp ((hrun (by simp [EnNotHigh, hlow])).holds hclean)
  have hdriven : t.pins.en ≠ .unknown :=
    ((exec_presented i s).showsNoRead (by simp [hlow]) (g := s.grain) hexec).en (by simp [hlow])
  cases hen : t.pins.en with
  | low => rfl
  | high => exact absurd hen hnotHigh
  | unknown => exact absurd hen hdriven

/-- On the abort path EN is not high. -/
theorem EnFollows.enNotHigh_of_abort {s : State} {c : Requester} {op : Op} {pos : Pos} {f : Cause} (h : EnFollows s)
    (hinv : Inv s) (hseq : s.seq = .busy c op pos) (hpos : pos.phase = .abort f) : EnNotHigh s := by
  have hzero : pos.nstep = 0 := by
    rcases hinv.posOk hseq with ⟨f, rfl⟩ | ⟨code, hcode, hmem⟩
    · rfl
    · exact (strobed_opCode hcode).nstep_of_abort hmem hpos
  rw [← enAt_of_nstep_zero hzero]
  exact (enFollows_of_busy hseq).mp h

theorem Moves.enFollows {s t : State} (h : Moves s (.next t)) (hinv : Inv s) (hen : EnFollows s) :
    UnlessFallFails s.trace EnFollows t := by
  have hhere : UnlessFallFails s.trace EnFollows s := .of_holds hen
  generalize ho : Host.Outcome.next t = o at h
  cases h with
  | idles hseq => cases ho; exact hhere.of_same rfl fun h => h.congr rfl rfl
  | aborts hseq hpos =>
    cases ho
    exact abortOp_enFollows (.of_holds (hen.enNotHigh_of_abort hinv hseq hpos)) _ _ _
  | goesOn hseq hpos hcode =>
    cases ho
    refine runOp_enFollows (((strobed_opCode hcode).carriesEn s.trace).from _) ?_ _ _
    exact start_codeFrom ((hinv.posOk hseq).mem hpos hcode) (.of_holds ((enFollows_of_busy hseq).mp hen))
  | isStuck hseq hpos hcode => cases ho
  | presents hp =>
    rcases hp.en_cases ho.symm with ⟨hpins, hseq, evs, htrace⟩ | ⟨hidle, hrun, -⟩
    · exact hhere.append htrace fun _ h => h.congr hpins hseq
    · exact hrun ((enFollows_of_idle hidle).mp hen)

/-- Settles O57: each of the moves a step can be leaves EN as the sequencer's position asks. -/
theorem enIsHighOnlyInsideTheStrobe : Obligations.EnIsHighOnlyInsideTheStrobe := by
  unfold Obligations.EnIsHighOnlyInsideTheStrobe
  intro s t hinv hen hstep hclean
  obtain ⟨left, r, env, hmoves⟩ := step_moves s
  rw [hstep] at hmoves
  exact (hmoves.enFollows (hinv.of_keepsCells ⟨rfl, rfl, rfl, rfl, rfl, rfl, rfl, id⟩ rfl) hen).holds hclean

end Sys2Proof.Machine
end

section
/-! The launch premises of INIT (93_implementation_defined.md U7; log 16): they are checked once the geometry and the mode
are found good, the handle before the pin map. -/

namespace Sys2Proof.Machine

theorem exec_init_of_handle {g : Byte} {s : State} (hg : (geometryOf s.cfg g).isSome = true) (hh : s.handle ≠ .none) :
    exec (.init g 0x00#8) s = .refused .secondInit := by
  have hgeometry : geometryOf s.cfg g ≠ none := Option.isSome_iff_ne_none.mp hg
  show execInit g 0x00#8 s = _
  rw [execInit, if_neg hgeometry, if_neg (by decide), if_pos hh]

theorem exec_init_of_pinConflict {g : Byte} {s : State} (hg : (geometryOf s.cfg g).isSome = true)
    (hh : s.handle = .none) (hp : pinMapAccepted s.otherPins s.cur.pinMap = false) :
    exec (.init g 0x00#8) s = .refused .pinMapConflict := by
  have hgeometry : geometryOf s.cfg g ≠ none := Option.isSome_iff_ne_none.mp hg
  show execInit g 0x00#8 s = _
  rw [execInit, if_neg hgeometry, if_neg (by decide), if_neg (not_not.2 hh), if_pos hp]

/-- Settles O35: a handle stops INIT first, and without one the pin map does. -/
theorem initOutsideItsPremisesIsRefused : Obligations.InitOutsideItsPremisesIsRefused := by
  unfold Obligations.InitOutsideItsPremisesIsRefused
  intro s g hg
  exact ⟨exec_init_of_handle hg, exec_init_of_pinConflict hg⟩

end Sys2Proof.Machine
end
